-- ==== Sys2Proof/Word.lean ====
section
/-! DEFINITION. The word types of the bit-buffer codec core (spec/30_encoding.md R60, R61; spec/10_state.md R20).
Every value is unsigned and bit 0 is the least significant bit (spec/00_scope.md R7). -/

namespace Sys2Proof

/-- One byte: a byte of a stream, the accumulator, or a symbol (R5 `SYM_W`, `ACC_W`). -/
abbrev Byte := BitVec 8

/-- A 48-bit command word, format `CMD48` (R60). -/
abbrev CmdWord := BitVec 48

/-- A 48-bit response word, format `RSP48` (R61). -/
abbrev RspWord := BitVec 48

/-- The `len` field of a command or response: a bit length 0..63 (R60, R61). -/
abbrev LenField := BitVec 6

/-- The `data` field of a command or response (R60, R61). -/
abbrev DataField := BitVec 32

/-- The valid-bit count `cnt`: 0 to 8 and nothing else (R22). The type excludes 9..15, as
spec/93_implementation_defined.md U15 allows; STATUS shows it as four bits. -/
abbrev Cnt := Fin 9

end Sys2Proof
end

