-- ==== Sys2Proof/Syntax.lean ====
section
/-! DEFINITION. The ten commands of the core (spec/30_encoding.md R63, spec/opcode_table.json), one constructor a row,
with the operand fields of R68. -/

namespace Sys2Proof

/-- A command whose opcode is defined and whose reserved fields are zero. -/
inductive Instr where
  /-- START_ENC, opcode 0x1: open an encode pass (R150). -/
  | startEnc
  /-- START_DEC, opcode 0x2: open a decode pass (R151). -/
  | startDec
  /-- APPEND, opcode 0x3: append the low `len` bits of `data` (R100). -/
  | append (len : LenField) (data : DataField)
  /-- FLUSH, opcode 0x4: emit the pending byte, zero-padded (R102). -/
  | flush
  /-- NEXT, opcode 0x5: pull the next self-delimiting codeword (R121). -/
  | next
  /-- END, opcode 0x6: close the pass and discard the buffer (R152). -/
  | endPass
  /-- CODE_OF, opcode 0x7: the codeword of a symbol byte (R86). -/
  | codeOf (sym : Byte)
  /-- BITLEN_OF, opcode 0x8: the codeword length of a symbol byte (R87). -/
  | bitlenOf (sym : Byte)
  /-- SYMBOL_OF, opcode 0x9: the symbol of a codeword (R88). -/
  | symbolOf (len : LenField) (data : DataField)
  /-- STATUS, opcode 0xA: read the state word (R153). -/
  | status
deriving DecidableEq, Repr

end Sys2Proof
end

