-- ==== Sys2Proof/WellFormed.lean ====
section
/-! DEFINITION. The operand checks of spec/30_encoding.md R64 that the type of `Instr` does not already make: the only one
is APPEND's bit length. Zero reserved fields are part of decoding, since no `Instr` can carry them. -/

namespace Sys2Proof

/-- R64: whether a command's fields satisfy the "fields" column. -/
def WellFormed : Instr → Bool
  | .startEnc => true
  | .startDec => true
  | .append len _ => decide (1 ≤ len.toNat) && decide (len.toNat ≤ 32)
  | .flush => true
  | .next => true
  | .endPass => true
  | .codeOf _ => true
  | .bitlenOf _ => true
  | .symbolOf _ _ => true
  | .status => true

end Sys2Proof
end

