-- ==== Sys2Proof/Decode.lean ====
section
/-! DEFINITION. Decoding a 48-bit command word and the encoder beside it (spec/30_encoding.md R60, R62 to R67).
Decoding is total: a word that stands for no command is rejected by name, and the core answers it ILLEGAL_COMMAND.
The length range of APPEND is not a matter of the word's fixed bits (spec/opcode_table.json), so a word with the opcode of
APPEND and a zero reserved field decodes to APPEND whatever its `len`; APPEND itself answers ILLEGAL_COMMAND (R66, R100;
notes/assumptions/16.md). -/

namespace Sys2Proof

/-- `op = cmd[47:44]` (R62). -/
def cmdOp (w : CmdWord) : BitVec 4 := w.extractLsb' 44 4
/-- `rsv = cmd[43:38]` (R62). -/
def cmdRsv (w : CmdWord) : BitVec 6 := w.extractLsb' 38 6
/-- `len = cmd[37:32]` (R62). -/
def cmdLen (w : CmdWord) : LenField := w.extractLsb' 32 6
/-- `data = cmd[31:0]` (R62). -/
def cmdData (w : CmdWord) : DataField := w.extractLsb' 0 32
/-- `data[31:8]`, which CODE_OF and BITLEN_OF require to be zero (R64). -/
def cmdDataHigh (w : CmdWord) : BitVec 24 := w.extractLsb' 8 24
/-- `sym = cmd[7:0]` (R62). -/
def cmdSym (w : CmdWord) : Byte := w.extractLsb' 0 8

/-- Why a word stands for no command. -/
inductive DecodeError where
  /-- Opcode 0x0 or 0xB to 0xF (R65). -/
  | reservedOpcode
  /-- A nonzero `rsv` field (R66). -/
  | reservedField
  /-- A nonzero `len` where the command takes none (R66). -/
  | strayLen
  /-- Nonzero `data`, or `data[31:8]` for the symbol lookups, where the command takes none (R66). -/
  | strayData
deriving DecidableEq, Repr

/-- A command without operands: `rsv`, `len` and `data` are zero (R64). -/
def decodeBare (w : CmdWord) (i : Instr) : Except DecodeError Instr :=
  if cmdRsv w ≠ 0 then .error .reservedField
  else if cmdLen w ≠ 0 then .error .strayLen
  else if cmdData w ≠ 0 then .error .strayData
  else .ok i

/-- A command with a symbol operand: `rsv`, `len` and `data[31:8]` are zero (R64). -/
def decodeSym (w : CmdWord) (i : Byte → Instr) : Except DecodeError Instr :=
  if cmdRsv w ≠ 0 then .error .reservedField
  else if cmdLen w ≠ 0 then .error .strayLen
  else if cmdDataHigh w ≠ 0 then .error .strayData
  else .ok (i (cmdSym w))

/-- A command with a length and a value operand: `rsv` is zero (R64). -/
def decodeLenData (w : CmdWord) (i : LenField → DataField → Instr) : Except DecodeError Instr :=
  if cmdRsv w ≠ 0 then .error .reservedField
  else .ok (i (cmdLen w) (cmdData w))

/-- The opcode map R63, with the field checks of R64. -/
def decode (w : CmdWord) : Except DecodeError Instr :=
  match (cmdOp w).toNat with
  | 0x1 => decodeBare w .startEnc
  | 0x2 => decodeBare w .startDec
  | 0x3 => decodeLenData w .append
  | 0x4 => decodeBare w .flush
  | 0x5 => decodeBare w .next
  | 0x6 => decodeBare w .endPass
  | 0x7 => decodeSym w .codeOf
  | 0x8 => decodeSym w .bitlenOf
  | 0x9 => decodeLenData w .symbolOf
  | 0xA => decodeBare w .status
  | _ => .error .reservedOpcode

/-- A command word from its fields, `rsv` zero (R60). -/
def mkCmd (op : BitVec 4) (len : LenField) (data : DataField) : CmdWord :=
  op ++ 0#6 ++ len ++ data

/-- The opcode of each command (R63). -/
def opcode : Instr → BitVec 4
  | .startEnc => 0x1
  | .startDec => 0x2
  | .append _ _ => 0x3
  | .flush => 0x4
  | .next => 0x5
  | .endPass => 0x6
  | .codeOf _ => 0x7
  | .bitlenOf _ => 0x8
  | .symbolOf _ _ => 0x9
  | .status => 0xA

/-- The `len` field of each command's word (R68). -/
def operandLen : Instr → LenField
  | .append len _ => len
  | .symbolOf len _ => len
  | .startEnc | .startDec | .flush | .next | .endPass | .codeOf _ | .bitlenOf _ | .status => 0

/-- The `data` field of each command's word (R68): a value, a zero-extended symbol, or zero. -/
def operandData : Instr → DataField
  | .append _ data => data
  | .symbolOf _ data => data
  | .codeOf sym => sym.setWidth 32
  | .bitlenOf sym => sym.setWidth 32
  | .startEnc | .startDec | .flush | .next | .endPass | .status => 0

/-- The command word of a command (R60, R63, R68). -/
def encode (i : Instr) : CmdWord := mkCmd (opcode i) (operandLen i) (operandData i)

/-- What the decoder reads from an instruction whose bits are `w`, numbered as spec/opcode_table.json numbers them: the
command word is one parallel 48-bit word (R45, R60), so bit k of `w` is bit k of the word and bits from `nbits` up are 0. -/
def decodeTableWord (nbits w : Nat) : Option Instr :=
  match decode (BitVec.ofNat 48 (w % 2 ^ nbits)) with
  | .ok i => some i
  | .error _ => none

end Sys2Proof
end

