-- ==== Sys2Proof/Machine/Response.lean ====
section
/-! DEFINITION. Status codes (spec/60_exceptions.md R170, R173) and the response word (spec/30_encoding.md R61). -/

namespace Sys2Proof.Machine

/-- The ten status codes (R170). -/
inductive Status where
  | ok
  | codeword
  | endOfStream
  | corruptStream
  | unknownSymbol
  | unknownCode
  | ioError
  | illegalCommand
  | wrongMode
  | failed
deriving DecidableEq, Repr

/-- The statuses that `raise Fatal` can carry: exactly two (R173). -/
inductive FatalStatus where
  | corruptStream
  | ioError
deriving DecidableEq, Repr

/-- The code of each status (R170). -/
def statusCode : Status → BitVec 4
  | .ok => 0x0
  | .codeword => 0x1
  | .endOfStream => 0x2
  | .corruptStream => 0x3
  | .unknownSymbol => 0x4
  | .unknownCode => 0x5
  | .ioError => 0x6
  | .illegalCommand => 0x7
  | .wrongMode => 0x8
  | .failed => 0x9

/-- A fatal status as a status (R172). -/
def fatalCode : FatalStatus → Status
  | .corruptStream => .corruptStream
  | .ioError => .ioError

/-- The response word: `status`, six zero bits, `len`, `data` (R61). -/
def rspWord (st : Status) (len : LenField) (data : DataField) : RspWord :=
  statusCode st ++ 0#6 ++ len ++ data

/-- `rsp[47:44]` (R61). -/
def rspStatusBits (w : RspWord) : BitVec 4 := w.extractLsb' 44 4
/-- `rsp[43:38]`, always 0 (R61). -/
def rspRsvBits (w : RspWord) : BitVec 6 := w.extractLsb' 38 6
/-- `rsp[37:32]` (R61). -/
def rspLenBits (w : RspWord) : LenField := w.extractLsb' 32 6
/-- `rsp[31:0]` (R61). -/
def rspDataBits (w : RspWord) : DataField := w.extractLsb' 0 32

end Sys2Proof.Machine
end

