-- ==== Sys2Proof/Config.lean ====
section
/-! DEFINITION. What an implementation of the core fixes (spec/00_scope.md R5) and the free values of its two devices
(spec/20_memory.md R42, R43; spec/93_implementation_defined.md U7, U8). -/

namespace Sys2Proof

/-- One entry of the symbol ROM (spec/10_state.md R28): a symbol, its codeword's value and its codeword's length. -/
structure RomEntry where
  sym : Byte
  val : BitVec 12
  len : BitVec 4
deriving DecidableEq, Repr

/-- The byte sink's answer to one SinkWrite (R42). Whether a byte answered `Err` was stored is open, so both cases are
answers of their own (spec/92_eei_decisions.md D14). -/
inductive SinkAnswer where
  /-- `Ok`: the byte was appended. -/
  | ok
  /-- `Err`, and the byte was appended all the same. -/
  | errStored
  /-- `Err`, and the byte was not appended. -/
  | errDropped
deriving DecidableEq, Repr, Inhabited

/-- The byte source's answer to one SourcePull (R43). With `ok` it gives its first byte, or `EOS` if it holds none. -/
inductive SourceAnswer where
  /-- The next byte, or `EOS`. -/
  | ok
  /-- `Err`. -/
  | err
deriving DecidableEq, Repr, Inhabited

namespace Config

/-- `SinkOracle` (R5): the sink's answer to its n-th write. A free value with no body: nothing can be proved of it. It is
used where the state's own script of answers has run out (notes/assumptions/4.md). -/
opaque sinkOracle : Nat → SinkAnswer

/-- `SourceOracle` (R5): the source's answer to its n-th pull. A free value with no body (notes/assumptions/5.md). -/
opaque sourceOracle : Nat → SourceAnswer

/-- The default of `DEC_MAX_W` (R5). -/
def decMaxWDefault : Nat := 32

end Config

end Sys2Proof
end

