-- ==== Sys2Proof/Machine/Table.lean ====
section
/-! DEFINITION. The symbol table (spec/41_symbol_table.md): the alphabet, the constraints a legal `CODE_TABLE` meets, the
two lookup directions, and the table the model's reset state names. A table is data, the contents of the ROM in State. -/

namespace Sys2Proof.Machine

/-- The alphabet `ALPHA` (R81): newline, space, then A to Z. -/
def alphabet : List Byte :=
  0x0A#8 :: 0x20#8 :: (List.range 26).map fun k => BitVec.ofNat 8 (0x41 + k)

/-- R84 T0: the table is defined on exactly the 28 symbols, one entry each (R28). -/
def tableT0 (t : List RomEntry) : Bool :=
  decide (t.length = 28) && decide ((t.map RomEntry.sym).Nodup) &&
    t.all (fun e => alphabet.contains e.sym) && alphabet.all (fun s => t.any fun e => e.sym == s)

/-- R84 T1: 3 ≤ len ≤ 12. -/
def entryT1 (e : RomEntry) : Bool := decide (3 ≤ e.len.toNat) && decide (e.len.toNat ≤ 12)

/-- R84 T2: val < 2^len. -/
def entryT2 (e : RomEntry) : Bool := decide (e.val.toNat < 2 ^ e.len.toNat)

/-- R84 T3: val[len-1] = 1. -/
def entryT3 (e : RomEntry) : Bool := e.val.getLsbD (e.len.toNat - 1)

/-- R84 T4: val[1:0] = 0b00. -/
def entryT4 (e : RomEntry) : Bool := !e.val.getLsbD 1 && !e.val.getLsbD 0

/-- R84 T5: no j with 1 ≤ j ≤ len-2 has val[j+1] = 0 and val[j] = 0. -/
def entryT5 (e : RomEntry) : Bool :=
  (List.range (e.len.toNat - 1)).all fun j => j == 0 || e.val.getLsbD (j + 1) || e.val.getLsbD j

/-- R84 T6: distinct symbols have distinct pairs (val, len). -/
def tableT6 (t : List RomEntry) : Bool := decide ((t.map fun e => (e.val, e.len)).Nodup)

/-- R83: the two entries every table has, 'A' = 0x2C/6 and newline = 0x56C/11. -/
def tableKnown (t : List RomEntry) : Bool :=
  t.contains ⟨0x41, 0x2C, 6⟩ && t.contains ⟨0x0A, 0x56C, 11⟩

/-- R84 T1 to T5, for one entry. -/
def entryLegal (e : RomEntry) : Bool :=
  entryT1 e && entryT2 e && entryT3 e && entryT4 e && entryT5 e

/-- A legal `CODE_TABLE` (R83, R84). -/
def tableLegal (t : List RomEntry) : Bool :=
  tableT0 t && t.all entryLegal && tableT6 t && tableKnown t

/-- `CodeOf(s)` (R82): the entry of symbol `s`, none outside the alphabet. -/
def codeOf (t : List RomEntry) (s : Byte) : Option RomEntry := t.find? fun e => e.sym == s

/-- Whether an entry's codeword is (v, L), with v compared as 32 bits and L as 6 bits (R88). -/
def entryMatches (v : DataField) (len : LenField) (e : RomEntry) : Bool :=
  e.val.setWidth 32 == v && e.len.setWidth 6 == len

/-- `SymOf(v, L)` (R82): the entry whose codeword is exactly (v, L), if there is one. -/
def symOf (t : List RomEntry) (v : DataField) (len : LenField) : Option RomEntry :=
  t.find? (entryMatches v len)

/-- The table in the ROM of the model's reset state. Its entries for 'A' and newline are the spec's (R83). DESIGN CHOICE
(unsafe, notes/assumptions/1.md): its other 26 entries are open in the spec (U1); they are the shortest codewords that R84
allows, by length and then by value, given to the remaining symbols in byte order. No statement rests on them: the ROM is a
field of State, and every claim holds for every legal table in it. -/
def namedTable : List RomEntry :=
  [ ⟨0x0A, 0x56C, 11⟩, ⟨0x20, 0x4, 3⟩, ⟨0x41, 0x2C, 6⟩, ⟨0x42, 0xC, 4⟩,
    ⟨0x43, 0x14, 5⟩, ⟨0x44, 0x1C, 5⟩, ⟨0x45, 0x34, 6⟩, ⟨0x46, 0x3C, 6⟩,
    ⟨0x47, 0x54, 7⟩, ⟨0x48, 0x5C, 7⟩, ⟨0x49, 0x6C, 7⟩, ⟨0x4A, 0x74, 7⟩,
    ⟨0x4B, 0x7C, 7⟩, ⟨0x4C, 0xAC, 8⟩, ⟨0x4D, 0xB4, 8⟩, ⟨0x4E, 0xBC, 8⟩,
    ⟨0x4F, 0xD4, 8⟩, ⟨0x50, 0xDC, 8⟩, ⟨0x51, 0xEC, 8⟩, ⟨0x52, 0xF4, 8⟩,
    ⟨0x53, 0xFC, 8⟩, ⟨0x54, 0x154, 9⟩, ⟨0x55, 0x15C, 9⟩, ⟨0x56, 0x16C, 9⟩,
    ⟨0x57, 0x174, 9⟩, ⟨0x58, 0x17C, 9⟩, ⟨0x59, 0x1AC, 9⟩, ⟨0x5A, 0x1B4, 9⟩ ]

end Sys2Proof.Machine
end

