-- ==== Sys2Proof/Machine/State.lean ====
section
/-! DEFINITION. The machine's state as plain data (spec/10_state.md R20), with the two byte devices, the symbol ROM, the
command channel and the host's pending actions beside it (spec/20_memory.md R41; spec/00_scope.md R6), the reasons a step can
stop, and the state after reset (R32). -/

namespace Sys2Proof.Machine

/-- `mode` (R27): which pass is open. The type excludes the value 3, which is never held (R35 I-6, U15). -/
inductive Mode where
  /-- 0: no pass. -/
  | idle
  /-- 1: an encode pass, write path. -/
  | enc
  /-- 2: a decode pass, read path. -/
  | dec
deriving DecidableEq, Repr

/-- The answers a device gives, in order (R42, R43): first those of `script`, then the free values of Config.
The model's own form of the oracles of R5, not state of the core (notes/assumptions/4.md, 5.md). -/
structure Oracle (α : Type) where
  /-- The answers that are fixed in advance. -/
  script : List α
  /-- How many answers the device has given. -/
  draws : Nat
deriving DecidableEq, Repr

/-- The byte sink (R42). -/
structure Sink where
  /-- The bytes the sink holds, oldest first. -/
  bytes : List Byte
  /-- Its answers to the writes to come. -/
  oracle : Oracle SinkAnswer
deriving DecidableEq, Repr

/-- The byte source (R43). -/
structure Source where
  /-- The bytes not yet pulled, next first. -/
  bytes : List Byte
  /-- Its answers to the pulls to come. -/
  oracle : Oracle SourceAnswer
deriving DecidableEq, Repr

/-- What the host, the only agent outside the core and its devices (R6), can do to the core (R185, R200). -/
inductive HostAction where
  /-- Put a command word on the command channel (R41, R60). -/
  | command (w : CmdWord)
  /-- Assert reset between commands (R200). -/
  | reset
  /-- Put a command word on the channel and assert reset while it is in progress, once it has made `calls` device calls or
  all it makes (R200, U11). -/
  | resetDuring (w : CmdWord) (calls : Nat)
  /-- Bind the sink to a stream that already holds `stored` (R181, R202). -/
  | bindSink (stored : List Byte)
  /-- Bind the source to a stream of `bytes` (R181, R202). -/
  | bindSource (bytes : List Byte)
deriving DecidableEq, Repr

/-- The whole machine. -/
structure State where
  /-- The accumulator `acc[7:0]` (R21). -/
  acc : Byte
  /-- The count of valid bits in `acc`, 0 to 8 (R22). -/
  cnt : Cnt
  /-- The end-of-stream flag (R25). -/
  eos : Bool
  /-- The sticky fatal flag (R26). -/
  failed : Bool
  /-- Which pass is open (R27). -/
  mode : Mode
  /-- The symbol ROM, `CODE_TABLE` (R28). No command writes it. -/
  rom : List RomEntry
  /-- `DEC_MAX_W`, the longest codeword NEXT accumulates (R5). A parameter: no command writes it. -/
  decMaxW : Nat
  /-- The byte sink. -/
  sink : Sink
  /-- The byte source. -/
  source : Source
  /-- The response word last put on the command channel (R41, R61), none before the first. -/
  rsp : Option RspWord
  /-- What the host will do, next first: its position in its command list takes the place of a program counter (R30). -/
  host : List HostAction
deriving DecidableEq, Repr

/-- The core has no faults: every 48-bit word has a response, and every error is reported in it (R67, R170;
spec/93_implementation_defined.md, the note under the table of part 1). So there is no reason for a fault, and no step ends
in one. -/
inductive Fault
deriving DecidableEq, Repr

/-- Why the model gives a step no meaning. -/
inductive Refusal where
  /-- An instruction that has no meaning yet; raised in exec's arm only, and by none today. Safe. -/
  | notModelled (mnemonic : String)
  /-- The ROM holds a table that breaks R84 or R83, which is no legal parameter and "a model refuses it" (R84, U2). Raised by
  CODE_OF, BITLEN_OF and SYMBOL_OF, the commands that read the ROM. Safe. -/
  | illegalCodeTable
  /-- `DEC_MAX_W` is outside 12..32, which is refused (R5, U9). Raised by NEXT where it would unpack a codeword. Safe. -/
  | illegalDecMaxW
deriving DecidableEq, Repr

/-- The machine right after reset (R32, R200), for a given ROM and `DEC_MAX_W`, two parameters that reset leaves alone. The
streams, their answers, the response channel and the host's actions are not the core's: they are empty here
(notes/assumptions/4.md, 5.md, 8.md, 9.md, 10.md). -/
def State.resetWith (rom : List RomEntry) (decMaxW : Nat) : State where
  acc := 0x00
  cnt := 0
  eos := false
  failed := false
  mode := .idle
  rom := rom
  decMaxW := decMaxW
  sink := ⟨[], ⟨[], 0⟩⟩
  source := ⟨[], ⟨[], 0⟩⟩
  rsp := none
  host := []

/-- The machine right after reset, with the named table in its ROM (notes/assumptions/1.md) and the default `DEC_MAX_W`
(R5). -/
def State.reset : State := State.resetWith namedTable Config.decMaxWDefault

end Sys2Proof.Machine
end

