-- ==== Sys2Proof/Machine/Ops.lean ====
section
/-! DEFINITION. The named operations over the state: one setter per register, `Respond`, the fatal procedure and the way out
of it, the two device primitives, and reset (spec/00_scope.md R10, spec/20_memory.md R42, R43, spec/60_exceptions.md R172,
spec/70_reset_and_hazards.md R200). -/

namespace Sys2Proof.Machine

/-- What a command ends in. -/
abbrev Result := Host.Outcome State Fault Refusal

/-! ### Register writes -/

/-- Write the bit buffer: `acc` and `cnt` (R21, R22). -/
def State.setBuf (s : State) (acc : Byte) (cnt : Cnt) : State := { s with acc := acc, cnt := cnt }
/-- Write `eos` (R25). -/
def State.setEos (s : State) (b : Bool) : State := { s with eos := b }
/-- Write `failed` (R26). -/
def State.setFailed (s : State) (b : Bool) : State := { s with failed := b }
/-- Write `mode` (R27). -/
def State.setMode (s : State) (m : Mode) : State := { s with mode := m }
/-- Put a response word on the command channel, or take it off (R61). -/
def State.setRsp (s : State) (r : Option RspWord) : State := { s with rsp := r }
/-- Replace the sink's contents and its answers to come (R42). -/
def State.setSink (s : State) (k : Sink) : State := { s with sink := k }
/-- Replace the source's contents and its answers to come (R43). -/
def State.setSource (s : State) (k : Source) : State := { s with source := k }
/-- Replace what the host will do. -/
def State.setHost (s : State) (h : List HostAction) : State := { s with host := h }

/-! ### Responding and failing -/

/-- `Respond(status, len, data)` (R10, R61). -/
def respond (st : Status) (len : LenField) (data : DataField) (s : State) : State :=
  s.setRsp (some (rspWord st len data))

/-- A command that ends at once with a bare status: nothing but the response changes (R176). -/
def answer (st : Status) (s : State) : Result := .next (respond st 0 0 s)

/-- Empty the buffer: `acc` <- 0x00, `cnt` <- 0. -/
def emptyBuf (s : State) : State := s.setBuf 0x00 0

/-- `raise Fatal(st)` (R172): the buffer is emptied, `failed` is set, the status is the whole report. The counterpart of
taking an exception: there is no vector, no saved state and no handler. -/
def fatal (f : FatalStatus) (s : State) : State :=
  respond (fatalCode f) 0 0 ((emptyBuf s).setFailed true)

/-- Create or discard the buffer and set `mode`: what START_ENC, START_DEC and END do (R33, R150 to R152). With `idle` it is
the way out of a failed pass (R175), the counterpart of returning from an exception. -/
def setPass (m : Mode) (s : State) : State :=
  (((emptyBuf s).setEos false).setFailed false).setMode m

/-- Reset of the core (R200): the registers take the values of R32, a command in flight gets no response, and the ROM,
`DEC_MAX_W` and the streams stay as they are. -/
def resetCore (s : State) : State := (setPass .idle s).setRsp none

/-! ### Devices -/

/-- A device's next answer: from its script, or where that has run out a free value of Config. -/
def Oracle.answer {α : Type} (free : Nat → α) (o : Oracle α) : α := o.script.head?.getD (free o.draws)

/-- A device's oracle once it has given `n` answers. -/
def Oracle.skip {α : Type} (o : Oracle α) (n : Nat) : Oracle α := ⟨o.script.drop n, o.draws + n⟩

/-- A device's oracle once it has answered. -/
def Oracle.advance {α : Type} (o : Oracle α) : Oracle α := o.skip 1

/-- What the core sees of a SinkWrite (R42). -/
inductive WriteReply where
  | ok
  | err
deriving DecidableEq, Repr

/-- What the core sees of a SourcePull (R43). -/
inductive PullReply where
  | byte (b : Byte)
  | eos
  | err
deriving DecidableEq, Repr

/-- The sink stores a byte. -/
def Sink.push (k : Sink) (b : Byte) : Sink := ⟨k.bytes ++ [b], k.oracle.advance⟩

/-- The sink answers without storing. -/
def Sink.skip (k : Sink) : Sink := ⟨k.bytes, k.oracle.advance⟩

/-- `SinkWrite(b)` (R42): `Ok` appends b; `Err` appends it or not (D14). -/
def sinkWrite (b : Byte) (s : State) : WriteReply × State :=
  match s.sink.oracle.answer Config.sinkOracle with
  | .ok => (.ok, s.setSink (s.sink.push b))
  | .errStored => (.err, s.setSink (s.sink.push b))
  | .errDropped => (.err, s.setSink s.sink.skip)

/-- `SourcePull()` (R43): the next byte, which is removed, or `EOS` if there is none, or `Err`, which moves none
(R47). -/
def sourcePull (s : State) : PullReply × State :=
  match s.source.oracle.answer Config.sourceOracle, s.source.bytes with
  | .err, bs => (.err, s.setSource ⟨bs, s.source.oracle.advance⟩)
  | .ok, [] => (.eos, s.setSource ⟨[], s.source.oracle.advance⟩)
  | .ok, b :: bs => (.byte b, s.setSource ⟨bs, s.source.oracle.advance⟩)

/-! ### A command cut short by reset -/

/-- The sink after the first `n` SinkWrites of a command that takes it from `before` to `after` (R200, U11). Every write but a
command's last is answered `Ok` and stores one byte. -/
def Sink.cut (n : Nat) (before after : Sink) : Sink :=
  if after.oracle.draws ≤ before.oracle.draws + n then after
  else ⟨after.bytes.take (before.bytes.length + n), before.oracle.skip n⟩

/-- The source after the first `n` SourcePulls of a command that takes it from `before` to `after` (R200, U11). Every pull but
a command's last gives one byte. -/
def Source.cut (n : Nat) (before after : Source) : Source :=
  if after.oracle.draws ≤ before.oracle.draws + n then after
  else ⟨before.bytes.drop n, before.oracle.skip n⟩

/-- Reset during a command that would take `s` to `t`, after `n` of its device calls: bytes written stay written, bytes pulled
stay pulled, and the core is reset (R200). -/
def abandon (n : Nat) (s t : State) : State :=
  resetCore ((s.setSink (Sink.cut n s.sink t.sink)).setSource (Source.cut n s.source t.source))

end Sys2Proof.Machine
end

