-- ==== Sys2Proof/Machine/Flags.lean ====
section
/-! DEFINITION. The flags and the mode as bits, and the state word that STATUS reads (spec/44_pass_control.md R153). The core
has no flags but `eos` and `failed` (spec/10_state.md R30). -/

namespace Sys2Proof.Machine

/-- `mode[1:0]`: 0 IDLE, 1 ENC, 2 DEC (R27). -/
def modeBits : Mode → BitVec 2
  | .idle => 0
  | .enc => 1
  | .dec => 2

/-- The state word: `{0x0000, failed, eos, mode[1:0], cnt[3:0], acc[7:0]}` (R153). -/
def statusWord (s : State) : DataField :=
  0#16 ++ BitVec.ofBool s.failed ++ BitVec.ofBool s.eos ++ modeBits s.mode ++ BitVec.ofNat 4 s.cnt.val ++ s.acc

/-- Whether `DEC_MAX_W` has a legal value, 12 to 32 (R5, U9). -/
def decMaxWLegal (n : Nat) : Bool := decide (12 ≤ n) && decide (n ≤ 32)

end Sys2Proof.Machine
end

