-- ==== Sys2Proof/Machine/Operands.lean ====
section
/-! DEFINITION. The operand forms of the commands and the checks made before a command executes, in the order of
spec/60_exceptions.md R177: fields, then mode, then `failed` (spec/30_encoding.md R64). -/

namespace Sys2Proof.Machine

/-- The bit lengths APPEND accepts, 1 to 32 (R5, R64). -/
def appendLenOk (len : LenField) : Bool := decide (1 ≤ len.toNat) && decide (len.toNat ≤ 32)

/-- The field check of R64: a command whose fields break it is ILLEGAL_COMMAND (R66). -/
def ifWellFormed (ok : Bool) (run : State → Result) (s : State) : Result :=
  if ok then run s else answer .illegalCommand s

/-- The mode check of R64: a command in a mode it does not allow is WRONG_MODE. -/
def inMode (m : Mode) (run : State → Result) (s : State) : Result :=
  if s.mode = m then run s else answer .wrongMode s

/-- The failed check: APPEND, FLUSH and NEXT are FAILED while `failed` = 1 (R174). -/
def unlessFailed (run : State → Result) (s : State) : Result :=
  if s.failed then answer .failed s else run s

/-- The checks of a command of an open pass: mode first, then `failed` (R177). -/
def inPass (m : Mode) (run : State → Result) : State → Result := inMode m (unlessFailed run)

/-- A lookup reads the ROM; a table that breaks R84 or R83 is refused (R84). -/
def withTable (run : State → Result) (s : State) : Result :=
  if tableLegal s.rom then run s else .refused .illegalCodeTable

/-- The `len` field of a response that carries a ROM entry's length (R86, R87). -/
def entryLen (e : RomEntry) : LenField := e.len.setWidth 6

/-- The `data` field of a response that carries a ROM entry's value: `zext_32(v)` (R86). -/
def entryData (e : RomEntry) : DataField := e.val.setWidth 32

/-- The `data` field of a response that carries a symbol: `zext_32(s)` (R88). -/
def symData (e : RomEntry) : DataField := e.sym.setWidth 32

end Sys2Proof.Machine
end

