-- ==== Sys2Proof/Machine/Lookup.lean ====
section
/-! DEFINITION. The symbol-table lookups CODE_OF, BITLEN_OF, SYMBOL_OF (spec/41_symbol_table.md). They are legal in every mode
and while `failed` = 1, and change nothing but the response (R90). -/

namespace Sys2Proof.Machine

/-- CODE_OF (R86): the codeword of a symbol and its length. -/
def execCodeOf (sym : Byte) (s : State) : Result :=
  withTable (fun s =>
    match codeOf s.rom sym with
    | some e => .next (respond .ok (entryLen e) (entryData e) s)
    | none => answer .unknownSymbol s) s

/-- BITLEN_OF (R87): the codeword length of a symbol. -/
def execBitlenOf (sym : Byte) (s : State) : Result :=
  withTable (fun s =>
    match codeOf s.rom sym with
    | some e => .next (respond .ok (entryLen e) 0 s)
    | none => answer .unknownSymbol s) s

/-- SYMBOL_OF (R88): the symbol whose codeword matches in value and length. -/
def execSymbolOf (len : LenField) (data : DataField) (s : State) : Result :=
  withTable (fun s =>
    match symOf s.rom data len with
    | some e => .next (respond .ok 0 (symData e) s)
    | none => answer .unknownCode s) s

end Sys2Proof.Machine
end

