-- ==== Sys2Proof/Machine/PassControl.lean ====
section
/-! DEFINITION. Pass control and the read-out: START_ENC, START_DEC, END, STATUS (spec/44_pass_control.md). -/

namespace Sys2Proof.Machine

/-- START_ENC (R150): open an encode pass from IDLE. -/
def execStartEnc (s : State) : Result :=
  inMode .idle (fun s => .next (respond .ok 0 0 (setPass .enc s))) s

/-- START_DEC (R151): open a decode pass from IDLE. It pulls nothing. -/
def execStartDec (s : State) : Result :=
  inMode .idle (fun s => .next (respond .ok 0 0 (setPass .dec s))) s

/-- END (R152): close the pass and discard the buffer, in every mode and while `failed` = 1. It does not flush. -/
def execEndPass (s : State) : Result := .next (respond .ok 0 0 (setPass .idle s))

/-- STATUS (R153): read the state word, in every mode and while `failed` = 1. -/
def execStatus (s : State) : Result := .next (respond .ok 0 (statusWord s) s)

end Sys2Proof.Machine
end

