-- ==== Sys2Proof/Machine/ReadPath.lean ====
section
/-! DEFINITION. The read path: NEXT, the self-delimiting codeword unpacker (spec/43_read_path.md R121). -/

namespace Sys2Proof.Machine

/-- NEXT's per-command temporaries (spec/10_state.md R29), set afresh by every NEXT. `w` and `zr` are counters, exact integers
that stay within 0..32 and 0..2 (R8). -/
structure NextTemps where
  /-- The running code, `code[31:0]`. -/
  code : DataField
  /-- Its width in bits, `w[5:0]`. -/
  w : Nat
  /-- Consecutive zero bits since the last one bit, `zr[1:0]`. -/
  zr : Nat
  /-- The first bit of this call, `fb`. -/
  fb : Option Bool
deriving DecidableEq, Repr

/-- The temporaries at the start of a NEXT. -/
def freshTemps : NextTemps := ⟨0, 0, 0, none⟩

/-- Take one bit into the temporaries: record the first bit, shift `code`, count the width and the zero run (R121). -/
def takeBit (b : Bool) (t : NextTemps) : NextTemps where
  code := (t.code <<< 1) ||| (BitVec.ofBool b).setWidth 32
  w := t.w + 1
  zr := if b then 0 else t.zr + 1
  fb := if t.w = 0 then some b else t.fb

/-- What looking for the next bit gives: a buffer that holds one, the end of the source, or a source `Err`. -/
inductive Refill where
  | ready (s : State)
  | exhausted (s : State)
  | err (s : State)
deriving DecidableEq, Repr

/-- If the leftover is used up, pull a byte, unless the source has ended before (R121, R25). -/
def refill (s : State) : Refill :=
  if s.cnt = 0 then
    if s.eos then .exhausted s
    else
      match sourcePull s with
      | (.err, t) => .err t
      | (.eos, t) => .exhausted (t.setEos true)
      | (.byte b, t) => .ready (t.setBuf b 8)
  else .ready s

/-- The next bit to consume, `acc[cnt-1]` (R24). -/
def topBit (s : State) : Bool := s.acc.getLsbD (s.cnt.val - 1)

/-- `cnt - 1`. It is used above 0 only, where it is exact (R8, R35). -/
def cntDown (c : Cnt) : Cnt := ⟨c.val - 1, by omega⟩

/-- Count the top bit as consumed; `acc` keeps it (R24). -/
def dropBit (s : State) : State := s.setBuf s.acc (cntDown s.cnt)

/-- The end of the source was reached (R126): END_OF_STREAM if this call consumed no bit, else a truncated codeword. -/
def exhausted (t : NextTemps) (s : State) : State :=
  if t.w = 0 then respond .endOfStream 0 0 (s.setBuf 0x00 s.cnt)
  else fatal .corruptStream s

/-- NEXT's loop (R121). The first argument is how many more bits this call may consume, `DEC_MAX_W` less `w`; when it is used
up without a terminator the codeword is overlong (R127). In each round the leading-zero check comes before the terminator
check, which comes before the overlong check (R177). -/
def unpack : Nat → NextTemps → State → State
  | 0, _, s => fatal .corruptStream s
  | n + 1, t, s =>
    match refill s with
    | .err s' => fatal .ioError s'
    | .exhausted s' => exhausted t s'
    | .ready s' =>
      let t' := takeBit (topBit s') t
      if t'.w = 1 ∧ t'.fb = some false then fatal .corruptStream (dropBit s')
      else if t'.zr = 2 then respond .codeword (BitVec.ofNat 6 t'.w) t'.code (dropBit s')
      else unpack n t' (dropBit s')

/-- Whether a call starts with 1 to 7 leftover bits that are all zero (R125). -/
def onlyPadding (s : State) : Bool :=
  decide (1 ≤ s.cnt.val) && decide (s.cnt.val ≤ 7) && decide (s.acc.toNat % 2 ^ s.cnt.val = 0)

/-- The padding rule (R125): discard the leftover zeros and pull once more; only the end of the source may follow. -/
def skipPadding (s : State) : State :=
  match sourcePull (emptyBuf s) with
  | (.err, t) => fatal .ioError t
  | (.byte _, t) => fatal .corruptStream t
  | (.eos, t) => respond .endOfStream 0 0 (t.setEos true)

/-- NEXT once its checks have passed (R121). A `DEC_MAX_W` outside 12..32 is refused (U9). -/
def nextCodeword (s : State) : Result :=
  if decMaxWLegal s.decMaxW then
    if onlyPadding s then .next (skipPadding s) else .next (unpack s.decMaxW freshTemps s)
  else .refused .illegalDecMaxW

/-- NEXT (R121): pull the next self-delimiting codeword. -/
def execNext (s : State) : Result := inPass .dec nextCodeword s

end Sys2Proof.Machine
end

