-- ==== Sys2Proof/Machine/WritePath.lean ====
section
/-! DEFINITION. The write path: APPEND and FLUSH (spec/42_write_path.md). -/

namespace Sys2Proof.Machine

/-- `cnt + 1`. It is used below 8 only, where it is exact (R8, R35). -/
def cntUp (c : Cnt) : Cnt := ⟨min 8 (c.val + 1), by omega⟩

/-- Shift one bit into the low end of `acc` and count it (R100). -/
def pushBit (b : Bool) (s : State) : State :=
  s.setBuf ((s.acc <<< 1) ||| (BitVec.ofBool b).setWidth 8) (cntUp s.cnt)

/-- Before a bit is inserted, a full byte is written to the sink and the buffer emptied (R100). -/
def emitFull (s : State) : WriteReply × State :=
  if s.cnt = 8 then
    match sinkWrite s.acc s with
    | (.ok, t) => (.ok, emptyBuf t)
    | (.err, t) => (.err, t)
  else (.ok, s)

/-- APPEND's loop over the bits v[i-1], ..., v[0], most significant first (R100). -/
def appendBits (v : DataField) : Nat → State → State
  | 0, s => respond .ok 0 0 s
  | i + 1, s =>
    match emitFull s with
    | (.ok, t) => appendBits v i (pushBit (v.getLsbD i) t)
    | (.err, t) => fatal .ioError t

/-- APPEND (R100): append the low `len` bits of `data` to the bitstream. -/
def execAppend (len : LenField) (data : DataField) (s : State) : Result :=
  ifWellFormed (appendLenOk len) (inPass .enc fun s => .next (appendBits data len.toNat s)) s

/-- The byte FLUSH writes: the valid bits at the top, zeros below (R102). -/
def paddedByte (s : State) : Byte := s.acc <<< (8 - s.cnt.val)

/-- FLUSH once its checks have passed (R102). An empty buffer emits nothing. -/
def flushBuf (s : State) : State :=
  if s.cnt = 0 then respond .ok 0 0 s
  else
    match sinkWrite (paddedByte s) s with
    | (.ok, t) => respond .ok 0 0 (emptyBuf t)
    | (.err, t) => fatal .ioError t

/-- FLUSH (R102): emit the partial byte, zero-padded on the low-order side. -/
def execFlush (s : State) : Result := inPass .enc (fun s => .next (flushBuf s)) s

end Sys2Proof.Machine
end

