-- ==== Sys2Proof/Machine/Dispatch.lean ====
section
/-! DEFINITION. One arm per command: its meaning. -/

namespace Sys2Proof.Machine

def exec (i : Instr) (s : State) : Host.Outcome State Fault Refusal :=
  match i with
  | .startEnc => Sys2Proof.Machine.execStartEnc s
  | .startDec => Sys2Proof.Machine.execStartDec s
  | .append len data => Sys2Proof.Machine.execAppend len data s
  | .flush => Sys2Proof.Machine.execFlush s
  | .next => Sys2Proof.Machine.execNext s
  | .endPass => Sys2Proof.Machine.execEndPass s
  | .codeOf sym => Sys2Proof.Machine.execCodeOf sym s
  | .bitlenOf sym => Sys2Proof.Machine.execBitlenOf sym s
  | .symbolOf len data => Sys2Proof.Machine.execSymbolOf len data s
  | .status => Sys2Proof.Machine.execStatus s

end Sys2Proof.Machine
end

