-- ==== Sys2Proof/Machine/Channel.lean ====
section
/-! DEFINITION. The command channel (spec/20_memory.md R41, R50) and the host's turns (spec/60_exceptions.md R185): one command
word in, one response word out, one at a time (spec/70_reset_and_hazards.md R203). -/

namespace Sys2Proof.Machine

/-- One command word: decoded and executed, or answered ILLEGAL_COMMAND (R65, R66, R177). -/
def runWord (w : CmdWord) (s : State) : Result :=
  match decode w with
  | .ok i => exec i s
  | .error _ => answer .illegalCommand s

/-- One command word, with reset asserted after `n` of its device calls (R200, U11). -/
def runCut (w : CmdWord) (n : Nat) (s : State) : Result :=
  match runWord w s with
  | .next t => .next (abandon n s t)
  | .fault r => .fault r
  | .refused r => .refused r

/-- Bind the sink to a stream that already holds `stored` (R181, R202). -/
def bindSink (stored : List Byte) (s : State) : State := s.setSink ⟨stored, s.sink.oracle⟩

/-- Bind the source to a stream of `bytes` (R181, R202). -/
def bindSource (bytes : List Byte) (s : State) : State := s.setSource ⟨bytes, s.source.oracle⟩

/-- The host's next action and all that follows from it, as one atomic step (R6). Between the host's actions the core is idle
and keeps all state (R184). -/
def hostTurn (s : State) : Result :=
  match s.host with
  | [] => .next s
  | .command w :: rest => runWord w (s.setHost rest)
  | .reset :: rest => .next (resetCore (s.setHost rest))
  | .resetDuring w n :: rest => runCut w n (s.setHost rest)
  | .bindSink stored :: rest => .next (bindSink stored (s.setHost rest))
  | .bindSource bytes :: rest => .next (bindSource bytes (s.setHost rest))

end Sys2Proof.Machine
end

