-- ==== Sys2Proof/Machine/Step.lean ====
section
/-! DEFINITION. One step of the machine: the host's next action (spec/00_scope.md R6), and where a command word is placed for
the next step to run it. -/

namespace Sys2Proof.Machine

/-- One step. -/
def step (s : State) : Host.Outcome State Fault Refusal := hostTurn s

/-- `s` with the command word whose bits are `w` as the host's next action, before what it was about to do. -/
def State.withFetchWord (s : State) (nbits w : Nat) : State :=
  s.setHost (.command (BitVec.ofNat 48 (w % 2 ^ nbits)) :: s.host)

end Sys2Proof.Machine
end

