-- ==== Sys2Proof/Machine/Drivers.lean ====
section
/-! DEFINITION. The host protocol: the two pseudo-instructions (spec/30_encoding.md R69) and the encoder and decoder drivers
(spec/60_exceptions.md R186, R187, R191). They are host software around the core, not commands of it; the spec states its
round-trip law over them. -/

namespace Sys2Proof.Machine

/-- How a driver's run ends (R191). -/
inductive DriverEnd where
  | done
  | invalidInputSymbol
  | invalidEncodedStream
  | ioError
  /-- The decoder's loop was cut off by the bound the model gives it (notes/assumptions/20.md). -/
  | unfinished
deriving DecidableEq, Repr

/-- Go on from a next state; a fault or a refusal ends the run. -/
def andThen {α β : Type} (o : Host.Outcome α Fault Refusal) (f : α → Host.Outcome β Fault Refusal) :
    Host.Outcome β Fault Refusal :=
  match o with
  | .next a => f a
  | .fault r => .fault r
  | .refused r => .refused r

/-- The host issues a command and waits for its response (R203). -/
def issue (i : Instr) (s : State) : Result := runWord (encode i) s

/-- Whether the response on the channel has this status. -/
def rspIs (st : Status) (s : State) : Bool :=
  match s.rsp with
  | some w => rspStatusBits w == statusCode st
  | none => false

/-- The `len` field of the response on the channel. -/
def rspLen (s : State) : LenField := (s.rsp.map rspLenBits).getD 0

/-- The `data` field of the response on the channel. -/
def rspData (s : State) : DataField := (s.rsp.map rspDataBits).getD 0

/-- `ENCSYM s` (R69): CODE_OF, and on OK an APPEND of the codeword it returned. -/
def encSym (b : Byte) (s : State) : Result :=
  andThen (issue (.codeOf b) s) fun t =>
    if rspIs .ok t then issue (.append (rspLen t) (rspData t)) t else .next t

/-- `DECSYM` (R69): NEXT, and on CODEWORD a SYMBOL_OF of the codeword it returned. -/
def decSym (s : State) : Result :=
  andThen (issue .next s) fun t =>
    if rspIs .codeword t then issue (.symbolOf (rspLen t) (rspData t)) t else .next t

/-- END, and then the run is over. -/
def endRun {α : Type} (r : α) (s : State) : Host.Outcome (α × State) Fault Refusal :=
  andThen (issue .endPass s) fun t => .next (r, t)

/-- The encoder driver's loop and its final FLUSH and END (R186). -/
def encodeSymbols : List Byte → State → Host.Outcome (DriverEnd × State) Fault Refusal
  | [], s =>
    andThen (issue .flush s) fun t =>
      if rspIs .ioError t then endRun .ioError t else endRun .done t
  | b :: bs, s =>
    andThen (encSym b s) fun t =>
      if rspIs .unknownSymbol t then endRun .invalidInputSymbol t
      else if rspIs .ioError t then endRun .ioError t
      else encodeSymbols bs t

/-- The encoder driver (R186). -/
def encodeDriver (text : List Byte) (s : State) : Host.Outcome (DriverEnd × State) Fault Refusal :=
  andThen (issue .startEnc s) (encodeSymbols text)

/-- The decoder driver's loop (R187), at most `n` rounds long, with the symbols written so far. DESIGN CHOICE
(notes/assumptions/22.md): R187 has no branch for a NEXT that answers ILLEGAL_COMMAND, WRONG_MODE or FAILED (START_DEC was not
from IDLE); such a round writes nothing, issues no SYMBOL_OF and goes on with the next round. -/
def decodeSymbols : Nat → List Byte → State → Host.Outcome ((DriverEnd × List Byte) × State) Fault Refusal
  | 0, written, s => .next ((.unfinished, written), s)
  | n + 1, written, s =>
    andThen (decSym s) fun t =>
      if rspIs .endOfStream t then endRun (.done, written) t
      else if rspIs .corruptStream t then endRun (.invalidEncodedStream, written) t
      else if rspIs .ioError t then endRun (.ioError, written) t
      else if rspIs .unknownCode t then endRun (.invalidEncodedStream, written) t
      else if rspIs .ok t then decodeSymbols n (written ++ [(rspData t).setWidth 8]) t
      else decodeSymbols n written t

/-- The decoder driver (R187): how the run ended, the symbols written, and the state. -/
def decodeDriver (n : Nat) (s : State) : Host.Outcome ((DriverEnd × List Byte) × State) Fault Refusal :=
  andThen (issue .startDec s) (decodeSymbols n [])

end Sys2Proof.Machine
end

