-- ==== Sys2Proof/Safety.lean ====
section
/-! DEFINITION. The terms claims use: the invariants of spec/10_state.md R35, and bits, codewords and streams as bit sequences
(spec/00_scope.md R11, R12). -/

namespace Sys2Proof.Safety

open Sys2Proof Sys2Proof.Machine

/-! ### Invariants -/

/-- I-2: IDLE holds an empty buffer and clear flags (R35). -/
abbrev IdleEmpty (s : State) : Prop :=
  s.mode = .idle → s.acc = 0 ∧ s.cnt = 0 ∧ s.eos = false ∧ s.failed = false

/-- I-3: in ENC, `eos` is clear and the bits of `acc` above `cnt` are zero (R35, R23). -/
abbrev EncBuffer (s : State) : Prop := s.mode = .enc → s.eos = false ∧ s.acc.toNat < 2 ^ s.cnt.val

/-- I-4: a failed pass holds an empty buffer (R35). -/
abbrev FailedEmpty (s : State) : Prop := s.failed = true → s.acc = 0 ∧ s.cnt = 0

/-- I-5: at the end of the stream no leftover bits are held (R35, R25). -/
abbrev EosEmpty (s : State) : Prop := s.eos = true → s.cnt = 0

/-- In DEC at most 7 leftover bits are held between commands (R24, R121). -/
abbrev DecLeftover (s : State) : Prop := s.mode = .dec → s.cnt.val ≤ 7

/-- The parameters are legal (R5, R83, R84). -/
abbrev ParamsLegal (s : State) : Prop := tableLegal s.rom = true ∧ decMaxWLegal s.decMaxW = true

/-- The invariants of R35 and the legality of the parameters. I-1 and I-6 hold by the types of `cnt` and `mode`. -/
abbrev Inv (s : State) : Prop :=
  IdleEmpty s ∧ EncBuffer s ∧ FailedEmpty s ∧ EosEmpty s ∧ DecLeftover s ∧ ParamsLegal s

/-! ### Bit sequences -/

/-- The L-bit sequence v[L-1], ..., v[0], most significant bit first (R11). -/
def bitsOf {n : Nat} (v : BitVec n) : Nat → List Bool
  | 0 => []
  | L + 1 => v.getLsbD L :: bitsOf v L

/-- The bitstream of a byte stream (R12, R44). -/
def streamBits (bs : List Byte) : List Bool := bs.flatMap fun b => bitsOf b 8

/-- The unsigned number a bit sequence spells, most significant bit first (R11). -/
def valueOf (bits : List Bool) : Nat := bits.foldl (fun n b => 2 * n + b.toNat) 0

/-- The bits appended and not yet in the sink, oldest first (R23). In a decode pass these are the leftover bits (R24). -/
def heldBits (s : State) : List Bool := bitsOf s.acc s.cnt.val

/-- All bits written in the stream so far: those in the sink, then those held (R23). -/
def writtenBits (s : State) : List Bool := streamBits s.sink.bytes ++ heldBits s

/-- All bits yet to be consumed: the leftover bits, then the rest of the source's bitstream (R131). -/
def unreadBits (s : State) : List Bool := heldBits s ++ streamBits s.source.bytes

/-- Whether two zero bits stand at positions j and j+1 of a bit sequence. -/
abbrev ZerosAt (bits : List Bool) (j : Nat) : Prop := bits[j]? = some false ∧ bits[j + 1]? = some false

/-- A self-delimiting codeword as bits: it starts with 1, and its first `00` ends at its last bit (R84 T3 to T5, R85). -/
abbrev Framed (bits : List Bool) : Prop :=
  bits.head? = some true ∧ 3 ≤ bits.length ∧ ZerosAt bits (bits.length - 2) ∧
    ∀ j < bits.length - 2, ¬ ZerosAt bits j

/-- The codeword of a ROM entry as bits. -/
def entryBits (e : RomEntry) : List Bool := bitsOf e.val e.len.toNat

/-! ### Commands -/

/-- A byte of the alphabet `ALPHA` (R81). -/
abbrev InAlphabet (s : Byte) : Prop := (0x41 ≤ s.toNat ∧ s.toNat ≤ 0x5A) ∨ s.toNat = 0x20 ∨ s.toNat = 0x0A

/-- The number in bits hi..lo of a command word, lo = `lo`, width = `width` (R7, R60). -/
abbrev fieldOf (w : CmdWord) (lo width : Nat) : Nat := w.toNat / 2 ^ lo % 2 ^ width

/-- The "fields" column of R64 as a condition on the number a word spells: `op` is bits 47:44, `rsv` 43:38, `len` 37:32 and
`data` 31:0. -/
abbrev FieldsLegal (w : CmdWord) : Prop :=
  (fieldOf w 44 4 ∈ [1, 2, 4, 5, 6, 10] ∧ fieldOf w 0 44 = 0) ∨
  (fieldOf w 44 4 = 3 ∧ fieldOf w 38 6 = 0 ∧ 1 ≤ fieldOf w 32 6 ∧ fieldOf w 32 6 ≤ 32) ∨
  (fieldOf w 44 4 ∈ [7, 8] ∧ fieldOf w 8 36 = 0) ∨
  (fieldOf w 44 4 = 9 ∧ fieldOf w 38 6 = 0)

/-- The conditions under which APPEND and FLUSH execute (R64, R177). -/
abbrev CanWrite (s : State) : Prop := s.mode = .enc ∧ s.failed = false

/-- The conditions under which NEXT executes (R64, R177), with a legal `DEC_MAX_W` (R5). -/
abbrev CanRead (s : State) : Prop := s.mode = .dec ∧ s.failed = false ∧ decMaxWLegal s.decMaxW = true

/-- The commands that only look up or read out (R154, last row but four). -/
abbrev OnlyReads (i : Instr) : Prop :=
  (∃ c, i = .codeOf c) ∨ (∃ c, i = .bitlenOf c) ∨ (∃ l d, i = .symbolOf l d) ∨ i = .status

/-- Commands issued one after the other, each after the response to the one before (R50, R203). -/
def runAll : List Instr → State → Result
  | [], s => .next s
  | i :: is, s => andThen (exec i s) (runAll is)

/-! ### Device answers -/

/-- The answer the sink gives to the (n+1)-th write from now. -/
def sinkAnswerAt (k : Sink) (n : Nat) : SinkAnswer :=
  (k.oracle.script[n]?).getD (Config.sinkOracle (k.oracle.draws + n))

/-- The answer the source gives to the (n+1)-th pull from now. -/
def sourceAnswerAt (k : Source) (n : Nat) : SourceAnswer :=
  (k.oracle.script[n]?).getD (Config.sourceOracle (k.oracle.draws + n))

/-- The next n SinkWrites are answered `Ok`. -/
abbrev SinkOk (n : Nat) (s : State) : Prop := ∀ k < n, sinkAnswerAt s.sink k = .ok

/-- None of the next n SourcePulls is answered `Err`. -/
abbrev SourceOk (n : Nat) (s : State) : Prop := ∀ k < n, sourceAnswerAt s.source k = .ok

/-- The sink after one more write, with the bytes it then holds. -/
def sinkAfter (k : Sink) (bytes : List Byte) : Sink := ⟨bytes, k.oracle.skip 1⟩

/-- The source after one more pull, with the bytes it then holds. -/
def sourceAfter (k : Source) (bytes : List Byte) : Source := ⟨bytes, k.oracle.skip 1⟩

/-- How many SourcePulls give `n` more bits than the `held` ones: ⌈(n - held) / 8⌉. -/
def pullsFor (n held : Nat) : Nat := (n - held + 7) / 8

end Sys2Proof.Safety
end

