-- ==== Sys2Proof/Certificates/Slice0/Obligations.lean ====
section
/-! DEFINITION. The statements for the provers. Each docstring names the rules of spec/ it formalises. -/

open Sys2Proof Sys2Proof.Machine Sys2Proof.Safety

/-! ## Encoding -/

/-- R70 (the spec's own inference from R60, R63 and R68): the example command words decode to the commands they are listed
for, and the example response word is built from its fields. -/
def Obligations.ExampleWordsDecode : Prop :=
  decode 0x100000000000 = .ok .startEnc ∧ decode 0x200000000000 = .ok .startDec ∧
  decode 0x30060000002C = .ok (.append 6 0x2C) ∧ decode 0x300B0000056C = .ok (.append 11 0x56C) ∧
  decode 0x300200000002 = .ok (.append 2 0x2) ∧ decode 0x3020FFFFFFFF = .ok (.append 32 0xFFFFFFFF) ∧
  decode 0x400000000000 = .ok .flush ∧ decode 0x500000000000 = .ok .next ∧ decode 0x600000000000 = .ok .endPass ∧
  decode 0x700000000041 = .ok (.codeOf 0x41) ∧ decode 0x70000000000A = .ok (.codeOf 0x0A) ∧
  decode 0x700000000061 = .ok (.codeOf 0x61) ∧ decode 0x800000000041 = .ok (.bitlenOf 0x41) ∧
  decode 0x90060000002C = .ok (.symbolOf 6 0x2C) ∧ decode 0x900B0000056C = .ok (.symbolOf 11 0x56C) ∧
  decode 0x900300000004 = .ok (.symbolOf 3 0x4) ∧ decode 0xA00000000000 = .ok .status ∧
  rspWord .codeword 6 0x2C = 0x10060000002C

/-- R60, R63, R68: every command is read back from its word, with every operand at every value. -/
def Obligations.DecodeOfEncode : Prop := ∀ i : Instr, decode (encode i) = .ok i

/-- R60, R64, R67: a word that decodes is the word of the command it decodes to, so each accepted word has one meaning and no
bit of it is ignored. -/
def Obligations.EncodeOfDecode : Prop := ∀ (w : CmdWord) (i : Instr), decode w = .ok i → encode i = w

/-- R64: the words whose fields satisfy the "fields" column are those that decode to a well-formed command. -/
def Obligations.LegalFieldsAreWellFormed : Prop :=
  ∀ w : CmdWord, FieldsLegal w ↔ ∃ i, decode w = .ok i ∧ WellFormed i = true

/-! ## Steps of the whole machine -/

/-- R6, R50, R203: when the host's next action is a command word, the step runs that word on the state with the action taken
off the host's list; when the word decodes, that is the command's meaning; a word placed by `withFetchWord` is the one the next
step runs. That the host is a list of actions in State is the model's choice (notes/assumptions/9.md). -/
def Obligations.StepRunsTheCommand : Prop :=
  (∀ (s : State) (w : CmdWord) (rest : List HostAction), s.host = .command w :: rest →
    step s = runWord w { s with host := rest }) ∧
  (∀ (s : State) (w : CmdWord) (rest : List HostAction) (i : Instr), s.host = .command w :: rest → decode w = .ok i →
    step s = exec i { s with host := rest }) ∧
  (∀ (s : State) (nbits w : Nat) (i : Instr), decodeTableWord nbits w = some i → step (s.withFetchWord nbits w) = exec i s)

/-- R65, R66: every 48-bit word that R64 does not accept, by its opcode or by its fields, is answered ILLEGAL_COMMAND with
`len` = 0 and `data` = 0, and nothing else changes, `failed` in particular. -/
def Obligations.IllegalWordsAreAnswered : Prop :=
  ∀ (s : State) (w : CmdWord), ¬ FieldsLegal w → runWord w s = .next { s with rsp := some 0x700000000000 }

/-- R184: with no action of the host pending, a step keeps all state; binding a stream (R181, R202) changes that stream's
bytes and nothing else. That a step with nothing to do exists, and that binding is a step, are the model's choices
(notes/assumptions/9.md, 12.md). -/
def Obligations.CoreIsIdleBetweenCommands : Prop :=
  ∀ (s : State) (rest : List HostAction) (bs : List Byte),
    (s.host = [] → step s = .next s) ∧
    (s.host = .bindSink bs :: rest →
      step s = .next { s with host := rest, sink := ⟨bs, s.sink.oracle⟩ }) ∧
    (s.host = .bindSource bs :: rest →
      step s = .next { s with host := rest, source := ⟨bs, s.source.oracle⟩ })

/-- R203: each step takes exactly one of the host's actions, the first. The list of actions is the model's choice
(notes/assumptions/9.md). -/
def Obligations.OneActionAStep : Prop := ∀ s t : State, step s = .next t → t.host = s.host.tail

/-- R32: the registers after reset, for every ROM and `DEC_MAX_W`, and the ROM unchanged. -/
def Obligations.ResetValues : Prop :=
  (∀ (rom : List RomEntry) (n : Nat),
    (State.resetWith rom n).acc = 0x00 ∧ (State.resetWith rom n).cnt = 0 ∧ (State.resetWith rom n).eos = false ∧
    (State.resetWith rom n).failed = false ∧ (State.resetWith rom n).mode = .idle ∧ (State.resetWith rom n).rom = rom) ∧
  (∃ (rom : List RomEntry) (n : Nat), State.reset = State.resetWith rom n)

/-- R200: reset between commands sets the registers to the values of R32 and leaves the ROM, `DEC_MAX_W` and both streams. That
the response channel is then empty is the model's choice (notes/assumptions/10.md). -/
def Obligations.ResetBetweenCommands : Prop :=
  ∀ (s : State) (rest : List HostAction), s.host = .reset :: rest →
    step s = .next { s with acc := 0, cnt := 0, eos := false, failed := false, mode := .idle, rsp := none, host := rest }

/-- R200: reset during a command, after `n` of its device calls or all of them. The registers take the values of R32, the
command gets no response, bytes it had written stay written and bytes it had pulled stay pulled, each of the first `n` calls
but the command's last moving one byte. Where it makes no more than `n` calls, each stream is as the whole command leaves it.
That a cut-short command is seen as a number of its calls is the model's choice (notes/assumptions/11.md). -/
def Obligations.ResetDuringACommand : Prop :=
  ∀ (s t : State) (w : CmdWord) (n : Nat) (rest : List HostAction), s.host = .resetDuring w n :: rest →
    runWord w { s with host := rest } = .next t →
    ∃ u, step s = .next u ∧
      u = { s with acc := 0, cnt := 0, eos := false, failed := false, mode := .idle, rsp := none, host := rest,
                   sink := u.sink, source := u.source } ∧
      s.sink.bytes <+: u.sink.bytes ∧ u.sink.bytes <+: t.sink.bytes ∧
      u.source.bytes <:+ s.source.bytes ∧ t.source.bytes <:+ u.source.bytes ∧
      u.sink.oracle.draws = min (s.sink.oracle.draws + n) t.sink.oracle.draws ∧
      u.source.oracle.draws = min (s.source.oracle.draws + n) t.source.oracle.draws ∧
      (s.sink.oracle.draws + n < t.sink.oracle.draws →
        u.sink.bytes.length = s.sink.bytes.length + n ∧ u.sink.oracle = s.sink.oracle.skip n) ∧
      (s.source.oracle.draws + n < t.source.oracle.draws →
        u.source.bytes.length + n = s.source.bytes.length ∧ u.source.oracle = s.source.oracle.skip n) ∧
      (t.sink.oracle.draws ≤ s.sink.oracle.draws + n → u.sink = t.sink) ∧
      (t.source.oracle.draws ≤ s.source.oracle.draws + n → u.source = t.source)

/-! ## Invariants of every step -/

/-- R35, R32: the invariants hold after reset. -/
def Obligations.InvariantsHoldAtReset : Prop := Inv State.reset

/-- R35 (the spec's own inference): every step keeps the invariants I-2 to I-5, at most 7 leftover bits in DEC (R24), and the parameters legal. -/
def Obligations.StepKeepsInvariants : Prop := ∀ s t : State, Inv s → step s = .next t → Inv t

/-- R67, R190: with legal parameters every step answers a next state, whatever the host does and the devices answer; a command
word gets its response. That every device call is answered is the model's choice (R190, notes/assumptions/14.md). -/
def Obligations.EveryStepAnswers : Prop :=
  ∀ s : State, ParamsLegal s →
    ∃ t, step s = .next t ∧ ∀ w rest, s.host = .command w :: rest → ∃ r, t.rsp = some r

/-- R84, U2, U9: a ROM that breaks R84 or R83 is refused by the lookups, a `DEC_MAX_W` outside 12..32 by NEXT.
Which commands refuse is the model's choice (notes/assumptions/3.md). -/
def Obligations.IllegalParametersAreRefused : Prop :=
  ∀ (s : State) (c : Byte) (l : LenField) (d : DataField),
    (tableLegal s.rom = false →
      exec (.codeOf c) s = .refused .illegalCodeTable ∧ exec (.bitlenOf c) s = .refused .illegalCodeTable ∧
      exec (.symbolOf l d) s = .refused .illegalCodeTable) ∧
    (s.mode = .dec → s.failed = false → (s.decMaxW < 12 ∨ 32 < s.decMaxW) →
      exec .next s = .refused .illegalDecMaxW)

/-- R28, R53: no step writes the ROM or `DEC_MAX_W`. -/
def Obligations.ParametersAreNeverWritten : Prop :=
  ∀ s t : State, step s = .next t → t.rom = s.rom ∧ t.decMaxW = s.decMaxW

/-- R42, R55: the sink's bytes are never retracted: a step appends to them, unless the host binds the sink to another
stream (notes/assumptions/12.md). -/
def Obligations.SinkBytesAreNeverRetracted : Prop :=
  ∀ s t : State, step s = .next t → (∀ bs rest, s.host ≠ .bindSink bs :: rest) → s.sink.bytes <+: t.sink.bytes

/-- R175: out of a failed pass there is no way but END and reset. -/
def Obligations.OnlyEndOrResetClearsFailed : Prop :=
  ∀ s t : State, s.failed = true → s.mode ≠ .idle → step s = .next t → t.failed = false →
    ∃ rest, s.host = .command 0x600000000000 :: rest ∨ s.host = .reset :: rest ∨
      ∃ w n, s.host = .resetDuring w n :: rest

/-! ## Responses -/

/-- R61: every command returns one response word; its bits 43:38 are 0; `len` is nonzero only from NEXT, CODE_OF and
BITLEN_OF, `data` only from NEXT, CODE_OF, SYMBOL_OF (8 bits) and STATUS; both are 0 with a status other than OK or
CODEWORD. -/
def Obligations.ResponseFormat : Prop :=
  ∀ (i : Instr) (s t : State), exec i s = .next t → ∃ r, t.rsp = some r ∧ rspRsvBits r = 0 ∧
    (rspStatusBits r ≠ 0 → rspStatusBits r ≠ 1 → rspLenBits r = 0 ∧ rspDataBits r = 0) ∧
    (rspLenBits r ≠ 0 → i = .next ∨ (∃ c, i = .codeOf c) ∨ ∃ c, i = .bitlenOf c) ∧
    (rspDataBits r ≠ 0 → i = .next ∨ (∃ c, i = .codeOf c) ∨ (∃ l d, i = .symbolOf l d) ∨ i = .status) ∧
    ((∃ l d, i = .symbolOf l d) → (rspDataBits r).toNat < 2 ^ 8)

/-- R170: which commands return which status, and no other status than the ten. -/
def Obligations.StatusesByCommand : Prop :=
  ∀ (i : Instr) (s t : State) (r : RspWord), exec i s = .next t → t.rsp = some r →
    (rspStatusBits r = 0x0 → i ≠ .next) ∧
    (rspStatusBits r = 0x1 ∨ rspStatusBits r = 0x2 ∨ rspStatusBits r = 0x3 → i = .next) ∧
    (rspStatusBits r = 0x4 → (∃ c, i = .codeOf c) ∨ ∃ c, i = .bitlenOf c) ∧
    (rspStatusBits r = 0x5 → ∃ l d, i = .symbolOf l d) ∧
    (rspStatusBits r = 0x6 ∨ rspStatusBits r = 0x9 → (∃ l d, i = .append l d) ∨ i = .flush ∨ i = .next) ∧
    (rspStatusBits r = 0x7 → WellFormed i = false) ∧
    (rspStatusBits r = 0x8 → i = .startEnc ∨ i = .startDec ∨ (∃ l d, i = .append l d) ∨ i = .flush ∨ i = .next) ∧
    rspStatusBits r ≤ 0x9

/-- R176, R173: ILLEGAL_COMMAND, WRONG_MODE, FAILED, UNKNOWN_SYMBOL and UNKNOWN_CODE change no state. -/
def Obligations.ErrorAnswersChangeNothing : Prop :=
  ∀ (i : Instr) (s t : State) (r : RspWord), exec i s = .next t → t.rsp = some r →
    (rspStatusBits r = 0x7 ∨ rspStatusBits r = 0x8 ∨ rspStatusBits r = 0x9 ∨ rspStatusBits r = 0x4 ∨
      rspStatusBits r = 0x5) →
    t = { s with rsp := some r }

/-- R172, R173: after CORRUPT_STREAM and IO_ERROR, and no other status, `failed` is newly set; the buffer is then empty, the
mode is unchanged, and `eos` is as the command left it, which for IO_ERROR is unchanged. -/
def Obligations.FatalOutcomes : Prop :=
  ∀ (i : Instr) (s t : State) (r : RspWord), exec i s = .next t → t.rsp = some r →
    ((rspStatusBits r = 0x3 ∨ rspStatusBits r = 0x6) →
      t.acc = 0 ∧ t.cnt = 0 ∧ t.failed = true ∧ t.mode = s.mode ∧ s.failed = false ∧
      (rspStatusBits r = 0x6 → t.eos = s.eos) ∧ (s.eos = true → t.eos = true)) ∧
    (s.failed = false → t.failed = true → rspStatusBits r = 0x3 ∨ rspStatusBits r = 0x6)

/-- R64, R174, R177: the checks of the commands that need a pass or its absence, in their order: the fields, the mode, then
`failed`. Each refusal changes nothing but the response. -/
def Obligations.ChecksBeforeExecution : Prop :=
  ∀ (s : State) (l : LenField) (d : DataField),
    ((l.toNat = 0 ∨ 32 < l.toNat) → exec (.append l d) s = .next { s with rsp := some 0x700000000000 }) ∧
    (1 ≤ l.toNat → l.toNat ≤ 32 → s.mode ≠ .enc → exec (.append l d) s = .next { s with rsp := some 0x800000000000 }) ∧
    (1 ≤ l.toNat → l.toNat ≤ 32 → s.mode = .enc → s.failed = true →
      exec (.append l d) s = .next { s with rsp := some 0x900000000000 }) ∧
    (s.mode ≠ .enc → exec .flush s = .next { s with rsp := some 0x800000000000 }) ∧
    (s.mode = .enc → s.failed = true → exec .flush s = .next { s with rsp := some 0x900000000000 }) ∧
    (s.mode ≠ .dec → exec .next s = .next { s with rsp := some 0x800000000000 }) ∧
    (s.mode = .dec → s.failed = true → exec .next s = .next { s with rsp := some 0x900000000000 }) ∧
    (s.mode ≠ .idle → exec .startEnc s = .next { s with rsp := some 0x800000000000 } ∧
      exec .startDec s = .next { s with rsp := some 0x800000000000 })

/-! ## Pass control and STATUS -/

/-- R150: START_ENC, its word, its effect from IDLE, and its refusals. -/
def Obligations.StartEncOpensAPass : Prop :=
  encode .startEnc = 0x100000000000 ∧
  ∀ s : State,
    (s.mode = .idle → exec .startEnc s = .next
      { s with acc := 0, cnt := 0, eos := false, failed := false, mode := .enc, rsp := some 0x000000000000 }) ∧
    (s.mode ≠ .idle → exec .startEnc s = .next { s with rsp := some 0x800000000000 }) ∧
    ∀ w : CmdWord, fieldOf w 44 4 = 1 → w ≠ 0x100000000000 → runWord w s = .next { s with rsp := some 0x700000000000 }

/-- R151: START_DEC, its word, its effect from IDLE (no pull), and its refusals. -/
def Obligations.StartDecOpensAPass : Prop :=
  encode .startDec = 0x200000000000 ∧
  ∀ s : State,
    (s.mode = .idle → exec .startDec s = .next
      { s with acc := 0, cnt := 0, eos := false, failed := false, mode := .dec, rsp := some 0x000000000000 }) ∧
    (s.mode ≠ .idle → exec .startDec s = .next { s with rsp := some 0x800000000000 }) ∧
    ∀ w : CmdWord, fieldOf w 44 4 = 2 → w ≠ 0x200000000000 → runWord w s = .next { s with rsp := some 0x700000000000 }

/-- R152: END, its word, and its effect in every mode and while `failed` = 1; pending bits are discarded and no stream is
touched. -/
def Obligations.EndClosesThePass : Prop :=
  encode .endPass = 0x600000000000 ∧
  ∀ s : State,
    exec .endPass s = .next
      { s with acc := 0, cnt := 0, eos := false, failed := false, mode := .idle, rsp := some 0x000000000000 } ∧
    ∀ w : CmdWord, fieldOf w 44 4 = 6 → w ≠ 0x600000000000 → runWord w s = .next { s with rsp := some 0x700000000000 }

/-- R153: STATUS, its word, and the state word it returns in every mode, bit by bit; nothing else changes. -/
def Obligations.StatusReadsTheState : Prop :=
  encode .status = 0xA00000000000 ∧
  ∀ s : State,
    (∃ d : DataField, exec .status s = .next { s with rsp := some (rspWord .ok 0 d) } ∧
      d.toNat = s.failed.toNat * 2 ^ 15 + s.eos.toNat * 2 ^ 14 +
        (match s.mode with | .idle => 0 | .enc => 1 | .dec => 2) * 2 ^ 12 + s.cnt.val * 2 ^ 8 + s.acc.toNat) ∧
    ∀ w : CmdWord, fieldOf w 44 4 = 10 → w ≠ 0xA00000000000 → runWord w s = .next { s with rsp := some 0x700000000000 }

/-- R154 (the spec's own inference from R150 to R153): the pass lifecycle as a machine on `mode` and `failed`, row by row. -/
def Obligations.PassLifecycle : Prop :=
  ∀ (i : Instr) (s t : State), exec i s = .next t →
    (i = .startEnc → s.mode = .idle → t.mode = .enc ∧ t.failed = false) ∧
    (i = .startDec → s.mode = .idle → t.mode = .dec ∧ t.failed = false) ∧
    ((∃ l d, i = .append l d) ∨ i = .flush → s.mode = .enc →
      t.mode = .enc ∧ (s.failed = false → (t.failed = true ↔ t.rsp = some 0x600000000000))) ∧
    (i = .next → s.mode = .dec → t.mode = .dec ∧
      (s.failed = false → (t.failed = true ↔ t.rsp = some 0x300000000000 ∨ t.rsp = some 0x600000000000))) ∧
    (i = .endPass → t.mode = .idle ∧ t.failed = false) ∧
    (OnlyReads i → t = { s with rsp := t.rsp }) ∧
    (i = .startEnc ∨ i = .startDec → s.mode ≠ .idle → t = { s with rsp := some 0x800000000000 }) ∧
    ((∃ l d, i = .append l d ∧ WellFormed i = true) ∨ i = .flush → s.mode ≠ .enc →
      t = { s with rsp := some 0x800000000000 }) ∧
    (i = .next → s.mode ≠ .dec → t = { s with rsp := some 0x800000000000 })

/-- R25: only START_ENC, START_DEC and END clear `eos`, and only NEXT sets it; while it is set with no leftover bits, NEXT
pulls nothing. -/
def Obligations.EosIsFinalForThePass : Prop :=
  ∀ (i : Instr) (s t : State), exec i s = .next t →
    (s.eos = true → t.eos = false → i = .startEnc ∨ i = .startDec ∨ i = .endPass) ∧
    (s.eos = false → t.eos = true → i = .next) ∧
    (s.eos = true → s.cnt = 0 → t.source = s.source)

/-- R55, R41: only APPEND and FLUSH in an encode pass touch the sink, and only NEXT in a decode pass touches the source. -/
def Obligations.StreamsAreSeparate : Prop :=
  ∀ (i : Instr) (s t : State), exec i s = .next t →
    (t.sink ≠ s.sink → ((∃ l d, i = .append l d) ∨ i = .flush) ∧ s.mode = .enc) ∧
    (t.source ≠ s.source → i = .next ∧ s.mode = .dec)

/-! ## Symbol table -/

/-- R86: CODE_OF returns the codeword of a symbol and its length, or UNKNOWN_SYMBOL outside the alphabet, in every mode and
whether or not `failed` is set; nothing but the response changes. -/
def Obligations.CodeOfLooksUp : Prop :=
  ∀ (s : State) (sym : Byte), tableLegal s.rom = true →
    (encode (.codeOf sym)).toNat = 0x700000000000 + sym.toNat ∧
    (InAlphabet sym → ∃ e ∈ s.rom, e.sym = sym) ∧
    (∀ e ∈ s.rom, e.sym = sym → exec (.codeOf sym) s =
      .next { s with rsp := some (rspWord .ok (e.len.setWidth 6) (e.val.setWidth 32)) }) ∧
    (¬ InAlphabet sym → exec (.codeOf sym) s = .next { s with rsp := some 0x400000000000 }) ∧
    ∀ w : CmdWord, fieldOf w 44 4 = 7 → fieldOf w 8 36 ≠ 0 → runWord w s = .next { s with rsp := some 0x700000000000 }

/-- R87: BITLEN_OF returns the codeword length of a symbol, or UNKNOWN_SYMBOL; its `len` is the one CODE_OF returns (the
spec's own inference from R86). -/
def Obligations.BitlenOfLooksUp : Prop :=
  ∀ (s : State) (sym : Byte), tableLegal s.rom = true →
    (encode (.bitlenOf sym)).toNat = 0x800000000000 + sym.toNat ∧
    (∀ e ∈ s.rom, e.sym = sym → exec (.bitlenOf sym) s =
      .next { s with rsp := some (rspWord .ok (e.len.setWidth 6) 0) }) ∧
    (¬ InAlphabet sym → exec (.bitlenOf sym) s = .next { s with rsp := some 0x400000000000 }) ∧
    (∃ r q, exec (.codeOf sym) s = .next { s with rsp := some r } ∧ exec (.bitlenOf sym) s = .next { s with rsp := some q } ∧
      rspLenBits q = rspLenBits r) ∧
    ∀ w : CmdWord, fieldOf w 44 4 = 8 → fieldOf w 8 36 ≠ 0 → runWord w s = .next { s with rsp := some 0x700000000000 }

/-- R88: SYMBOL_OF returns the symbol whose codeword matches in value (32 bits) and length (6 bits), else UNKNOWN_CODE: for
every length outside 3..12, and for every value with bits at or above the length (the spec's own inferences from R84). -/
def Obligations.SymbolOfLooksUp : Prop :=
  ∀ (s : State) (l : LenField) (v : DataField), tableLegal s.rom = true →
    (encode (.symbolOf l v)).toNat = 0x900000000000 + l.toNat * 2 ^ 32 + v.toNat ∧
    (∀ e ∈ s.rom, e.val.toNat = v.toNat → e.len.toNat = l.toNat → exec (.symbolOf l v) s =
      .next { s with rsp := some (rspWord .ok 0 (e.sym.setWidth 32)) }) ∧
    ((∀ e ∈ s.rom, ¬ (e.val.toNat = v.toNat ∧ e.len.toNat = l.toNat)) →
      exec (.symbolOf l v) s = .next { s with rsp := some 0x500000000000 }) ∧
    ((l.toNat < 3 ∨ 12 < l.toNat ∨ 2 ^ l.toNat ≤ v.toNat) →
      exec (.symbolOf l v) s = .next { s with rsp := some 0x500000000000 }) ∧
    ∀ w : CmdWord, fieldOf w 44 4 = 9 → fieldOf w 38 6 ≠ 0 → runWord w s = .next { s with rsp := some 0x700000000000 }

/-- R83, with the examples of R86 to R88: the two entries every legal table has, as the lookups return them. -/
def Obligations.KnownCodewords : Prop :=
  ∀ s : State, tableLegal s.rom = true →
    exec (.codeOf 0x41) s = .next { s with rsp := some 0x00060000002C } ∧
    exec (.codeOf 0x0A) s = .next { s with rsp := some 0x000B0000056C } ∧
    exec (.bitlenOf 0x0A) s = .next { s with rsp := some 0x000B00000000 } ∧
    exec (.symbolOf 6 0x2C) s = .next { s with rsp := some 0x000000000041 } ∧
    exec (.symbolOf 11 0x56C) s = .next { s with rsp := some 0x00000000000A } ∧
    exec (.symbolOf 7 0x2C) s = .next { s with rsp := some 0x500000000000 }

/-- R82: for every symbol of the alphabet, SYMBOL_OF of what CODE_OF returns is the symbol. -/
def Obligations.LookupsAreInverse : Prop :=
  ∀ (s : State) (sym : Byte), tableLegal s.rom = true → InAlphabet sym →
    ∃ r, exec (.codeOf sym) s = .next { s with rsp := some r } ∧ rspStatusBits r = 0x0 ∧
      exec (.symbolOf (rspLenBits r) (rspDataBits r)) s = .next { s with rsp := some (rspWord .ok 0 (sym.setWidth 32)) }

/-- R90, R80: the lookups are legal in every mode and while `failed` = 1, change nothing but the response, and depend on nothing
but the ROM. -/
def Obligations.LookupsAreLegalEverywhere : Prop :=
  ∀ (i : Instr) (s : State), OnlyReads i → i ≠ .status → tableLegal s.rom = true →
    ∃ r, rspStatusBits r ∈ [0x0, 0x4, 0x5] ∧
      ∀ s' : State, s'.rom = s.rom → exec i s' = .next { s' with rsp := some r }

/-- R85 (the spec's own inference from R84): in a legal table (a) no codeword is a proper prefix of another, and equal codewords are one entry; (b) whatever
follows a codeword, the first `00` ends at its last bit; (c) a 3-bit codeword is `100` and a 4-bit one is `1100`; (d) none
starts with 0. -/
def Obligations.CodewordsAreSelfDelimiting : Prop :=
  ∀ t : List RomEntry, tableLegal t = true → ∀ e ∈ t,
    (∀ f ∈ t, entryBits e <+: entryBits f → e = f) ∧
    (∀ rest : List Bool, ZerosAt (entryBits e ++ rest) (e.len.toNat - 2) ∧
      ∀ j < e.len.toNat - 2, ¬ ZerosAt (entryBits e ++ rest) j) ∧
    (e.len.toNat = 3 → e.val = 0x4) ∧ (e.len.toNat = 4 → e.val = 0xC) ∧
    (entryBits e).head? = some true

/-! ## Write path -/

/-- R101 (the spec's own inference from R100): the effect of an APPEND that returns OK. With c0 valid bits before it, it emits E = (c0 + L - 1) div 8 bytes,
leaves ((c0 + L - 1) mod 8) + 1 valid bits, and the bytes emitted followed by the bits held are the bits held before followed
by the L bits of the value, in order; the bits of `acc` above `cnt` are zero; nothing else changes. -/
def Obligations.AppendEffect : Prop :=
  ∀ (s : State) (l : LenField) (v : DataField), CanWrite s → s.acc.toNat < 2 ^ s.cnt.val →
    1 ≤ l.toNat → l.toNat ≤ 32 → SinkOk ((s.cnt.val + l.toNat - 1) / 8) s →
    ∃ t out, exec (.append l v) s = .next t ∧
      t = { s with acc := t.acc, cnt := t.cnt, sink := t.sink, rsp := some 0x000000000000 } ∧
      t.sink.bytes = s.sink.bytes ++ out ∧ out.length = (s.cnt.val + l.toNat - 1) / 8 ∧
      t.sink.oracle = s.sink.oracle.skip out.length ∧
      t.cnt.val = (s.cnt.val + l.toNat - 1) % 8 + 1 ∧ t.acc.toNat < 2 ^ t.cnt.val ∧
      streamBits out ++ heldBits t = heldBits s ++ bitsOf v l.toNat

/-- R100, R172, R176, R42: an APPEND whose (k+1)-th SinkWrite is answered `Err`. The k bytes before it stay in the sink, the
refused byte is there or not as the sink chose (notes/assumptions/6.md), and the core fails with IO_ERROR. -/
def Obligations.AppendSinkError : Prop :=
  ∀ (s : State) (l : LenField) (v : DataField) (k : Nat), CanWrite s → 1 ≤ l.toNat → l.toNat ≤ 32 →
    k < (s.cnt.val + l.toNat - 1) / 8 → SinkOk k s → sinkAnswerAt s.sink k ≠ .ok →
    ∃ t out b, exec (.append l v) s = .next t ∧
      t = { s with acc := 0, cnt := 0, failed := true, sink := t.sink, rsp := some 0x600000000000 } ∧
      t.sink.bytes = s.sink.bytes ++ out ++ (if sinkAnswerAt s.sink k = .errStored then [b] else []) ∧
      t.sink.oracle = s.sink.oracle.skip (k + 1) ∧ out.length = k ∧
      streamBits (out ++ [b]) <+: heldBits s ++ bitsOf v l.toNat

/-- R62, R100: bits `v[31:L]` of the value operand are ignored. -/
def Obligations.AppendIgnoresHighBits : Prop :=
  ∀ (s : State) (l : LenField) (v u : DataField), v.toNat % 2 ^ l.toNat = u.toNat % 2 ^ l.toNat →
    exec (.append l v) s = exec (.append l u) s

/-- R102: FLUSH. An empty buffer emits nothing; else one byte, the valid bits at the top and 8 - `cnt` zeros below, and the
buffer is emptied; a refused write is IO_ERROR (R172), and the refused byte is in the sink or not as the sink chose, which R42
leaves open and the model puts into the sink's answer (notes/assumptions/6.md). -/
def Obligations.FlushEffect : Prop :=
  encode .flush = 0x400000000000 ∧
  (∀ s : State, CanWrite s →
    (s.cnt = 0 → exec .flush s = .next { s with rsp := some 0x000000000000 }) ∧
    (s.cnt ≠ 0 → ∃ b : Byte, bitsOf b 8 = heldBits s ++ List.replicate (8 - s.cnt.val) false ∧
      (sinkAnswerAt s.sink 0 = .ok → exec .flush s = .next
        { s with acc := 0, cnt := 0, sink := sinkAfter s.sink (s.sink.bytes ++ [b]), rsp := some 0x000000000000 }) ∧
      (sinkAnswerAt s.sink 0 = .errStored → exec .flush s = .next
        { s with acc := 0, cnt := 0, failed := true, sink := sinkAfter s.sink (s.sink.bytes ++ [b]),
                 rsp := some 0x600000000000 }) ∧
      (sinkAnswerAt s.sink 0 = .errDropped → exec .flush s = .next
        { s with acc := 0, cnt := 0, failed := true, sink := sinkAfter s.sink s.sink.bytes,
                 rsp := some 0x600000000000 }))) ∧
  (∀ (s : State) (w : CmdWord), fieldOf w 44 4 = 4 → w ≠ 0x400000000000 →
    runWord w s = .next { s with rsp := some 0x700000000000 }) ∧
  (∀ s : State, (s.mode ≠ .enc → exec .flush s = .next { s with rsp := some 0x800000000000 }) ∧
    (s.mode = .enc → s.failed = true → exec .flush s = .next { s with rsp := some 0x900000000000 }))

/-- R103 (the spec's own inference from R100 to R102): the packing law. START_ENC, any APPENDs of legal lengths, then FLUSH, with every SinkWrite answered `Ok`: the sink
receives ⌈N/8⌉ bytes, whose bitstream is the N appended bits in order, then zeros. -/
def Obligations.PackingLaw : Prop :=
  ∀ (s : State) (cs : List (LenField × DataField)), s.mode = .idle →
    (∀ c ∈ cs, 1 ≤ c.1.toNat ∧ c.1.toNat ≤ 32) →
    SinkOk (((cs.map fun c => c.1.toNat).sum + 7) / 8) s →
    ∃ t out, runAll (.startEnc :: (cs.map (fun c => .append c.1 c.2) ++ [.flush])) s = .next t ∧
      t.sink.bytes = s.sink.bytes ++ out ∧ out.length = ((cs.map fun c => c.1.toNat).sum + 7) / 8 ∧
      streamBits out = (cs.flatMap fun c => bitsOf c.2 c.1.toNat) ++
        List.replicate (8 * out.length - (cs.map fun c => c.1.toNat).sum) false

/-! ## Read path -/

/-- R121, R123, with R122 and R131 (the spec's own inferences): when the unread bits start with a framed codeword no longer than `DEC_MAX_W` and the pulls it
takes are not answered `Err`, NEXT returns its value and its length, consumes exactly its bits, and pulls no byte it does not
need. -/
def Obligations.NextReturnsTheCodeword : Prop :=
  ∀ (s : State) (cw rest : List Bool), CanRead s → s.eos = false → Framed cw → cw.length ≤ s.decMaxW →
    unreadBits s = cw ++ rest → SourceOk (pullsFor cw.length s.cnt.val) s →
    ∃ t pulled, exec .next s = .next t ∧
      t = { s with acc := t.acc, cnt := t.cnt, source := t.source,
                   rsp := some (rspWord .codeword (BitVec.ofNat 6 cw.length) (BitVec.ofNat 32 (valueOf cw))) } ∧
      s.source.bytes = pulled ++ t.source.bytes ∧ pulled.length = pullsFor cw.length s.cnt.val ∧
      t.source.oracle = s.source.oracle.skip pulled.length ∧
      t.cnt.val ≤ 7 ∧ t.acc = pulled.getLast?.getD s.acc ∧ unreadBits t = rest

/-- R132 (the spec's own inference from R121): every codeword NEXT returns starts with 1, is 3 to `DEC_MAX_W` bits long, ends in `00`, and has no earlier `00`. -/
def Obligations.CodewordShape : Prop :=
  ∀ (s t : State) (r : RspWord), exec .next s = .next t → t.rsp = some r → rspStatusBits r = 0x1 →
    3 ≤ (rspLenBits r).toNat ∧ (rspLenBits r).toNat ≤ s.decMaxW ∧
    (rspDataBits r).toNat < 2 ^ (rspLenBits r).toNat ∧
    (rspDataBits r).getLsbD ((rspLenBits r).toNat - 1) = true ∧
    (rspDataBits r).getLsbD 1 = false ∧ (rspDataBits r).getLsbD 0 = false ∧ (rspDataBits r).getLsbD 2 = true ∧
    ∀ j, 1 ≤ j → j ≤ (rspLenBits r).toNat - 2 →
      ¬ ((rspDataBits r).getLsbD (j + 1) = false ∧ (rspDataBits r).getLsbD j = false)

/-- R122 (the spec's own inference from R121): no bit is lost or duplicated: the bits unread before a NEXT that returns CODEWORD are the codeword's, then the bits
unread after it. -/
def Obligations.NoBitLostOrDuplicated : Prop :=
  ∀ (s t : State) (r : RspWord), exec .next s = .next t → t.rsp = some r → rspStatusBits r = 0x1 →
    unreadBits s = bitsOf (rspDataBits r) (rspLenBits r).toNat ++ unreadBits t

/-- R128 (the spec's own inference from R121): the state after each outcome of NEXT. After CODEWORD at most 7 leftover bits, `acc` the last pulled byte, `eos`
unchanged; after END_OF_STREAM an empty buffer and `eos` = 1; after CORRUPT_STREAM or IO_ERROR an empty buffer and `failed`
= 1. -/
def Obligations.StateAfterNext : Prop :=
  ∀ (s t : State) (r : RspWord), CanRead s → exec .next s = .next t → t.rsp = some r →
    (rspStatusBits r = 0x1 → t.cnt.val ≤ 7 ∧ t.eos = s.eos ∧
      ∃ pulled, s.source.bytes = pulled ++ t.source.bytes ∧ t.acc = pulled.getLast?.getD s.acc) ∧
    (rspStatusBits r = 0x2 → t.acc = 0 ∧ t.cnt = 0 ∧ t.eos = true) ∧
    (rspStatusBits r = 0x3 ∨ rspStatusBits r = 0x6 → t.acc = 0 ∧ t.cnt = 0 ∧ t.failed = true) ∧
    (rspStatusBits r = 0x1 ∨ rspStatusBits r = 0x2 ∨ rspStatusBits r = 0x3 ∨ rspStatusBits r = 0x6)

/-- The frame of NEXT (R121): `mode`, the sink, the parameters and the host's list are unchanged, and the source loses bytes
from its front only. -/
def Obligations.NextFrame : Prop :=
  ∀ s t : State, exec .next s = .next t →
    t = { s with acc := t.acc, cnt := t.cnt, eos := t.eos, failed := t.failed, source := t.source, rsp := t.rsp } ∧
    t.source.bytes <:+ s.source.bytes

/-- R126: NEXT at the end of the source, with no bit consumed: END_OF_STREAM, without a pull if the end was met before. -/
def Obligations.NextAtTheEnd : Prop :=
  ∀ s : State, CanRead s → s.cnt = 0 →
    (s.eos = true → exec .next s = .next { s with acc := 0, rsp := some 0x200000000000 }) ∧
    (s.eos = false → s.source.bytes = [] → sourceAnswerAt s.source 0 = .ok → exec .next s = .next
      { s with acc := 0, eos := true, source := sourceAfter s.source [], rsp := some 0x200000000000 })

/-- R129 (the spec's own inference from R121): after END_OF_STREAM every further NEXT answers the same and changes nothing. -/
def Obligations.EndOfStreamRepeats : Prop :=
  ∀ s t : State, exec .next s = .next t → t.rsp = some 0x200000000000 → exec .next t = .next t

/-- R125: the padding rule. A call that starts with 1 to 7 leftover bits, all zero, discards them and pulls once: the end of
the source gives END_OF_STREAM, a byte CORRUPT_STREAM with that byte consumed, an `Err` IO_ERROR. -/
def Obligations.PaddingRule : Prop :=
  ∀ s : State, CanRead s → 1 ≤ s.cnt.val → s.cnt.val ≤ 7 → (∀ b ∈ heldBits s, b = false) →
    (sourceAnswerAt s.source 0 = .ok → s.source.bytes = [] → exec .next s = .next
      { s with acc := 0, cnt := 0, eos := true, source := sourceAfter s.source [], rsp := some 0x200000000000 }) ∧
    (∀ b bs, sourceAnswerAt s.source 0 = .ok → s.source.bytes = b :: bs → exec .next s = .next
      { s with acc := 0, cnt := 0, failed := true, source := sourceAfter s.source bs, rsp := some 0x300000000000 }) ∧
    (sourceAnswerAt s.source 0 = .err → exec .next s = .next
      { s with acc := 0, cnt := 0, failed := true, source := sourceAfter s.source s.source.bytes,
               rsp := some 0x600000000000 })

/-- R124: the leading-zero rule. A first bit of 0 where the padding rule does not apply is CORRUPT_STREAM at once, whether the
bit is a leftover one or the top bit of a fresh byte. -/
def Obligations.LeadingZeroRule : Prop :=
  ∀ s : State, CanRead s →
    ((heldBits s).head? = some false → (s.cnt.val = 8 ∨ ∃ b ∈ heldBits s, b = true) → exec .next s = .next
      { s with acc := 0, cnt := 0, failed := true, rsp := some 0x300000000000 }) ∧
    (∀ b bs, s.cnt = 0 → s.eos = false → sourceAnswerAt s.source 0 = .ok → s.source.bytes = b :: bs →
      b.getLsbD 7 = false → exec .next s = .next
        { s with acc := 0, cnt := 0, failed := true, source := sourceAfter s.source bs, rsp := some 0x300000000000 })

/-- R126, R131: a codeword the end of the source cuts off. The bits start with 1 and end, below `DEC_MAX_W` of them, without a
`00`: CORRUPT_STREAM, with the source read to its end and `eos` set. -/
def Obligations.TruncatedCodeword : Prop :=
  ∀ s : State, CanRead s → s.eos = false → (unreadBits s).head? = some true → (∀ j, ¬ ZerosAt (unreadBits s) j) →
    (unreadBits s).length < s.decMaxW → SourceOk (s.source.bytes.length + 1) s →
    ∃ t, exec .next s = .next t ∧
      t = { s with acc := 0, cnt := 0, eos := true, failed := true, source := t.source, rsp := some 0x300000000000 } ∧
      t.source = ⟨[], s.source.oracle.skip (s.source.bytes.length + 1)⟩

/-- R127, R131: the overlong rule. `DEC_MAX_W` bits that start with 1 and hold no `00`: CORRUPT_STREAM, with those bits
consumed and no further byte pulled. -/
def Obligations.OverlongCodeword : Prop :=
  ∀ s : State, CanRead s → s.eos = false → (unreadBits s).head? = some true → s.decMaxW ≤ (unreadBits s).length →
    (∀ j, j + 1 < s.decMaxW → ¬ ZerosAt (unreadBits s) j) → SourceOk (pullsFor s.decMaxW s.cnt.val) s →
    ∃ t, exec .next s = .next t ∧
      t = { s with acc := 0, cnt := 0, failed := true, source := t.source, rsp := some 0x300000000000 } ∧
      t.source = ⟨s.source.bytes.drop (pullsFor s.decMaxW s.cnt.val), s.source.oracle.skip (pullsFor s.decMaxW s.cnt.val)⟩

/-- R131 (last row), R177: the (k+1)-th pull is answered `Err`, and the bits read before it settle nothing: there are none, or
they start with 1, hold no `00` and are fewer than `DEC_MAX_W`. Then IO_ERROR, with k bytes consumed: a
refused pull moves none (R47). -/
def Obligations.NextSourceError : Prop :=
  ∀ (s : State) (k : Nat), CanRead s → s.eos = false → k ≤ s.source.bytes.length → SourceOk k s →
    sourceAnswerAt s.source k = .err →
    ((s.cnt = 0 ∧ k = 0) ∨
      ((heldBits s ++ streamBits (s.source.bytes.take k)).head? = some true ∧
        (∀ j, ¬ ZerosAt (heldBits s ++ streamBits (s.source.bytes.take k)) j) ∧
        (heldBits s ++ streamBits (s.source.bytes.take k)).length < s.decMaxW)) →
    ∃ t, exec .next s = .next t ∧
      t = { s with acc := 0, cnt := 0, failed := true, source := t.source, rsp := some 0x600000000000 } ∧
      t.source = ⟨s.source.bytes.drop k, s.source.oracle.skip (k + 1)⟩

/-- R190 (the spec's own inference from R100 and R121): the device calls of one command are bounded: APPEND makes at most 4 SinkWrites, FLUSH at most 1, NEXT at most
⌈`DEC_MAX_W`/8⌉ + 1 SourcePulls, and exactly one where the padding rule applies. -/
def Obligations.DeviceCallsAreBounded : Prop :=
  ∀ (i : Instr) (s t : State), exec i s = .next t →
    s.sink.oracle.draws ≤ t.sink.oracle.draws ∧ t.sink.oracle.draws ≤ s.sink.oracle.draws + 4 ∧
    (i = .flush → t.sink.oracle.draws ≤ s.sink.oracle.draws + 1) ∧
    s.source.oracle.draws ≤ t.source.oracle.draws ∧
    (i = .next → t.source.oracle.draws ≤ s.source.oracle.draws + ((s.decMaxW + 7) / 8 + 1)) ∧
    (i = .next → CanRead s → 1 ≤ s.cnt.val → s.cnt.val ≤ 7 → (∀ b ∈ heldBits s, b = false) →
      t.source.oracle.draws = s.source.oracle.draws + 1)

/-! ## The round trip -/

/-- R133 (the spec's own inference): the round-trip law. Any text over the alphabet, encoded by the encoder driver (R186) with every SinkWrite answered
`Ok`, gives bytes that the decoder driver (R187) turns back into the text, ending with END_OF_STREAM, from a source that holds
exactly those bytes and answers no `Err`, with the same legal table and any legal `DEC_MAX_W`. The drivers
are host software in the model's own form (notes/assumptions/20.md). -/
def Obligations.RoundTrip : Prop :=
  ∀ (s : State) (text : List Byte), s.mode = .idle → tableLegal s.rom = true → (∀ c ∈ text, InAlphabet c) →
    SinkOk (2 * text.length) s →
    ∃ t out, encodeDriver text s = .next (.done, t) ∧ t.sink.bytes = s.sink.bytes ++ out ∧
      ∀ (u : State) (n : Nat), u.mode = .idle → u.rom = s.rom → decMaxWLegal u.decMaxW = true →
        u.source.bytes = out → SourceOk (out.length + 1) u → text.length < n →
        ∃ v, decodeDriver n u = .next ((.done, text), v)
end

