-- ==== Sys2Proof/Laws/Bits.lean ====
section
/-! SUPPORT. Bit sequences: lengths, and how a bit sequence splits at its first and its last bit (R11, R12). -/

namespace Sys2Proof.Safety

open Sys2Proof Sys2Proof.Machine

@[simp] theorem bitsOf_length {n : Nat} (v : BitVec n) (L : Nat) : (bitsOf v L).length = L := by
  induction L with
  | zero => rfl
  | succ L ih => simp [bitsOf, ih]

/-- Bit j of the sequence is bit L-1-j of the value. -/
theorem bitsOf_getElem? {n : Nat} (v : BitVec n) (L j : Nat) (h : j < L) : (bitsOf v L)[j]? = some (v.getLsbD (L - 1 - j)) := by
  induction L generalizing j with
  | zero => omega
  | succ L ih =>
    cases j with
    | zero => simp [bitsOf]
    | succ j =>
      rw [bitsOf, List.getElem?_cons_succ, ih j (by omega)]
      congr 2; omega

/-- Two values that agree below bit L spell the same L bits. -/
theorem bitsOf_congr {n m : Nat} (v : BitVec n) (u : BitVec m) (L : Nat) (h : ∀ j < L, v.getLsbD j = u.getLsbD j) :
    bitsOf v L = bitsOf u L := by
  induction L with
  | zero => rfl
  | succ L ih => rw [bitsOf, bitsOf, h L (by omega), ih fun j hj => h j (by omega)]

/-- Two values of the same width that spell the same bits are equal. -/
theorem eq_of_bitsOf {n : Nat} {v u : BitVec n} (h : bitsOf v n = bitsOf u n) : v = u := by
  refine BitVec.eq_of_getLsbD_eq fun j hj => ?_
  have hv := bitsOf_getElem? v n (n - 1 - j) (by omega)
  have hu := bitsOf_getElem? u n (n - 1 - j) (by omega)
  rw [h, hu] at hv
  have e : n - 1 - (n - 1 - j) = j := by omega
  rw [e] at hv
  exact (Option.some.inj hv).symm

@[simp] theorem streamBits_nil : streamBits [] = [] := rfl

@[simp] theorem streamBits_cons (b : Byte) (bs : List Byte) : streamBits (b :: bs) = bitsOf b 8 ++ streamBits bs := by
  simp [streamBits]

@[simp] theorem streamBits_append (a b : List Byte) : streamBits (a ++ b) = streamBits a ++ streamBits b := by
  simp [streamBits]

@[simp] theorem streamBits_length (bs : List Byte) : (streamBits bs).length = 8 * bs.length := by
  induction bs with
  | nil => rfl
  | cons b bs ih => simp [ih]; omega

/-- The value of a sequence with one more bit at its end. -/
theorem valueOf_append_bit (bits : List Bool) (b : Bool) : valueOf (bits ++ [b]) = 2 * valueOf bits + b.toNat := by
  simp [valueOf]

@[simp] theorem valueOf_nil : valueOf [] = 0 := rfl

/-- A sequence of L bits spells a number below 2^L. -/
theorem valueOf_lt (bits : List Bool) : valueOf bits < 2 ^ bits.length := by
  induction bits using List.reverseRecOn with
  | nil => simp
  | append_singleton bits b ih =>
    rw [valueOf_append_bit, List.length_append, List.length_singleton, Nat.pow_succ]
    have := b.toNat_le
    omega

@[simp] theorem heldBits_length (s : State) : (heldBits s).length = s.cnt.val := by simp [heldBits]

/-- The held bits depend on the buffer alone. -/
theorem heldBits_congr {s t : State} (ha : s.acc = t.acc) (hc : s.cnt = t.cnt) : heldBits s = heldBits t := by
  simp [heldBits, ha, hc]

end Sys2Proof.Safety
end

