-- ==== Sys2Proof/Laws/Encoding.lean ====
section
/-! SUPPORT. Words and their fields: the fields of a command or response word built from its fields, a word as the join of
its fields, and the numbers they spell (R60 to R62). -/

namespace Sys2Proof

/-- The fields of a 48-bit word that is a join of fields with six zero bits after the first. -/
theorem extract_op (a : BitVec 4) (l : BitVec 6) (d : BitVec 32) : (a ++ 0#6 ++ l ++ d).extractLsb' 44 4 = a := by
  ext i hi
  simp only [BitVec.getElem_extractLsb', BitVec.getLsbD_append, BitVec.getLsbD_zero]
  rw [if_neg (by omega), if_neg (by omega), if_neg (by omega), ← BitVec.getLsbD_eq_getElem]
  congr 1; omega

theorem extract_rsv (a : BitVec 4) (l : BitVec 6) (d : BitVec 32) : (a ++ 0#6 ++ l ++ d).extractLsb' 38 6 = 0 := by
  ext i hi
  simp only [BitVec.getElem_extractLsb', BitVec.getLsbD_append, BitVec.getLsbD_zero]
  rw [if_neg (by omega), if_neg (by omega), if_pos (by omega)]
  simp

theorem extract_len (a : BitVec 4) (l : BitVec 6) (d : BitVec 32) : (a ++ 0#6 ++ l ++ d).extractLsb' 32 6 = l := by
  ext i hi
  simp only [BitVec.getElem_extractLsb', BitVec.getLsbD_append, BitVec.getLsbD_zero]
  rw [if_neg (by omega), if_pos (by omega), ← BitVec.getLsbD_eq_getElem]
  congr 1; omega

theorem extract_data (a : BitVec 4) (l : BitVec 6) (d : BitVec 32) : (a ++ 0#6 ++ l ++ d).extractLsb' 0 32 = d := by
  ext i hi
  simp only [BitVec.getElem_extractLsb', BitVec.getLsbD_append, BitVec.getLsbD_zero]
  rw [if_pos (by omega), ← BitVec.getLsbD_eq_getElem]
  congr 1; omega

/-- The number a join of fields spells. -/
theorem join_toNat (a : BitVec 4) (r l : BitVec 6) (d : BitVec 32) :
    (a ++ r ++ l ++ d).toNat = a.toNat * 2 ^ 44 + r.toNat * 2 ^ 38 + l.toNat * 2 ^ 32 + d.toNat := by
  have hr := r.isLt; have hl := l.isLt; have hd := d.isLt
  simp only [BitVec.toNat_append]
  rw [← Nat.shiftLeft_add_eq_or_of_lt hr, ← Nat.shiftLeft_add_eq_or_of_lt hl, ← Nat.shiftLeft_add_eq_or_of_lt hd]
  simp only [Nat.shiftLeft_eq]; omega

theorem cmdOp_toNat (w : CmdWord) : (cmdOp w).toNat = w.toNat / 2 ^ 44 := by
  have := w.isLt
  simp only [cmdOp, BitVec.extractLsb'_toNat, Nat.shiftRight_eq_div_pow]; omega

theorem cmdRsv_toNat (w : CmdWord) : (cmdRsv w).toNat = w.toNat / 2 ^ 38 % 2 ^ 6 := by
  simp only [cmdRsv, BitVec.extractLsb'_toNat, Nat.shiftRight_eq_div_pow]

theorem cmdLen_toNat (w : CmdWord) : (cmdLen w).toNat = w.toNat / 2 ^ 32 % 2 ^ 6 := by
  simp only [cmdLen, BitVec.extractLsb'_toNat, Nat.shiftRight_eq_div_pow]

theorem cmdData_toNat (w : CmdWord) : (cmdData w).toNat = w.toNat % 2 ^ 32 := by
  simp only [cmdData, BitVec.extractLsb'_toNat, Nat.shiftRight_zero]

theorem cmdDataHigh_toNat (w : CmdWord) : (cmdDataHigh w).toNat = w.toNat / 2 ^ 8 % 2 ^ 24 := by
  simp only [cmdDataHigh, BitVec.extractLsb'_toNat, Nat.shiftRight_eq_div_pow]

theorem cmdSym_toNat (w : CmdWord) : (cmdSym w).toNat = w.toNat % 2 ^ 8 := by
  simp only [cmdSym, BitVec.extractLsb'_toNat, Nat.shiftRight_zero]

/-- A command word is the join of its four fields (R60). -/
theorem cmd_join (w : CmdWord) : cmdOp w ++ cmdRsv w ++ cmdLen w ++ cmdData w = w := by
  apply BitVec.eq_of_toNat_eq
  have := w.isLt
  rw [join_toNat, cmdOp_toNat, cmdRsv_toNat, cmdLen_toNat, cmdData_toNat]; omega

@[simp] theorem cmdOp_mkCmd (op : BitVec 4) (len : LenField) (data : DataField) : cmdOp (mkCmd op len data) = op :=
  extract_op op len data

@[simp] theorem cmdRsv_mkCmd (op : BitVec 4) (len : LenField) (data : DataField) : cmdRsv (mkCmd op len data) = 0 :=
  extract_rsv op len data

@[simp] theorem cmdLen_mkCmd (op : BitVec 4) (len : LenField) (data : DataField) : cmdLen (mkCmd op len data) = len :=
  extract_len op len data

@[simp] theorem cmdData_mkCmd (op : BitVec 4) (len : LenField) (data : DataField) : cmdData (mkCmd op len data) = data :=
  extract_data op len data

/-- A command word with `rsv` = 0 is built from its other fields. -/
theorem mkCmd_fields (w : CmdWord) (h : cmdRsv w = 0) : mkCmd (cmdOp w) (cmdLen w) (cmdData w) = w := by
  have := cmd_join w
  rwa [h] at this

/-- A field is zero exactly if the number it spells is. -/
theorem field_eq_zero_iff {n : Nat} (x : BitVec n) : x = 0 ↔ x.toNat = 0 :=
  ⟨fun h => by simp [h], fun h => BitVec.eq_of_toNat_eq (by simpa using h)⟩

/-- A word decodes to a command without operands exactly if all its bits below `op` are zero (R64). -/
theorem decodeBare_ok_iff (w : CmdWord) (i j : Instr) : decodeBare w i = .ok j ↔ w.toNat % 2 ^ 44 = 0 ∧ i = j := by
  have := w.isLt
  simp only [decodeBare, field_eq_zero_iff, ne_eq, cmdRsv_toNat, cmdLen_toNat, cmdData_toNat]
  repeat' split
  all_goals simp; omega

/-- A word decodes to a command with a symbol operand exactly if its bits 43:8 are zero (R64). -/
theorem decodeSym_ok_iff (w : CmdWord) (i : Byte → Instr) (j : Instr) :
    decodeSym w i = .ok j ↔ w.toNat / 2 ^ 8 % 2 ^ 36 = 0 ∧ i (cmdSym w) = j := by
  have := w.isLt
  simp only [decodeSym, field_eq_zero_iff, ne_eq, cmdRsv_toNat, cmdLen_toNat, cmdDataHigh_toNat]
  repeat' split
  all_goals simp; omega

/-- A word decodes to a command with a length and a value exactly if its bits 43:38 are zero (R64). -/
theorem decodeLenData_ok_iff (w : CmdWord) (i : LenField → DataField → Instr) (j : Instr) :
    decodeLenData w i = .ok j ↔ w.toNat / 2 ^ 38 % 2 ^ 6 = 0 ∧ i (cmdLen w) (cmdData w) = j := by
  simp only [decodeLenData, field_eq_zero_iff, ne_eq, cmdRsv_toNat]
  split
  all_goals simp; omega

namespace Machine

@[simp] theorem rspStatusBits_rspWord (st : Status) (len : LenField) (data : DataField) :
    rspStatusBits (rspWord st len data) = statusCode st := extract_op _ len data

@[simp] theorem rspRsvBits_rspWord (st : Status) (len : LenField) (data : DataField) :
    rspRsvBits (rspWord st len data) = 0 := extract_rsv _ len data

@[simp] theorem rspLenBits_rspWord (st : Status) (len : LenField) (data : DataField) :
    rspLenBits (rspWord st len data) = len := extract_len _ len data

@[simp] theorem rspDataBits_rspWord (st : Status) (len : LenField) (data : DataField) :
    rspDataBits (rspWord st len data) = data := extract_data _ len data

/-- Distinct statuses have distinct codes (R170). -/
theorem statusCode_injective {a b : Status} (h : statusCode a = statusCode b) : a = b := by
  cases a <;> cases b <;> first | rfl | exact absurd h (by decide)

end Machine

end Sys2Proof
end

