-- ==== Sys2Proof/Laws/State.lean ====
section
/-! SUPPORT. One lemma per field per register write, true by rfl, so that no proof unfolds a record update. -/

namespace Sys2Proof.Machine

@[simp] theorem State.setBuf_acc (s : State) (x0 : Byte) (x1 : Cnt) : (s.setBuf x0 x1).acc = x0 := rfl
@[simp] theorem State.setBuf_cnt (s : State) (x0 : Byte) (x1 : Cnt) : (s.setBuf x0 x1).cnt = x1 := rfl
@[simp] theorem State.setBuf_eos (s : State) (x0 : Byte) (x1 : Cnt) : (s.setBuf x0 x1).eos = s.eos := rfl
@[simp] theorem State.setBuf_failed (s : State) (x0 : Byte) (x1 : Cnt) : (s.setBuf x0 x1).failed = s.failed := rfl
@[simp] theorem State.setBuf_mode (s : State) (x0 : Byte) (x1 : Cnt) : (s.setBuf x0 x1).mode = s.mode := rfl
@[simp] theorem State.setBuf_rom (s : State) (x0 : Byte) (x1 : Cnt) : (s.setBuf x0 x1).rom = s.rom := rfl
@[simp] theorem State.setBuf_decMaxW (s : State) (x0 : Byte) (x1 : Cnt) : (s.setBuf x0 x1).decMaxW = s.decMaxW := rfl
@[simp] theorem State.setBuf_sink (s : State) (x0 : Byte) (x1 : Cnt) : (s.setBuf x0 x1).sink = s.sink := rfl
@[simp] theorem State.setBuf_source (s : State) (x0 : Byte) (x1 : Cnt) : (s.setBuf x0 x1).source = s.source := rfl
@[simp] theorem State.setBuf_rsp (s : State) (x0 : Byte) (x1 : Cnt) : (s.setBuf x0 x1).rsp = s.rsp := rfl
@[simp] theorem State.setBuf_host (s : State) (x0 : Byte) (x1 : Cnt) : (s.setBuf x0 x1).host = s.host := rfl

@[simp] theorem State.setEos_acc (s : State) (x : Bool) : (s.setEos x).acc = s.acc := rfl
@[simp] theorem State.setEos_cnt (s : State) (x : Bool) : (s.setEos x).cnt = s.cnt := rfl
@[simp] theorem State.setEos_eos (s : State) (x : Bool) : (s.setEos x).eos = x := rfl
@[simp] theorem State.setEos_failed (s : State) (x : Bool) : (s.setEos x).failed = s.failed := rfl
@[simp] theorem State.setEos_mode (s : State) (x : Bool) : (s.setEos x).mode = s.mode := rfl
@[simp] theorem State.setEos_rom (s : State) (x : Bool) : (s.setEos x).rom = s.rom := rfl
@[simp] theorem State.setEos_decMaxW (s : State) (x : Bool) : (s.setEos x).decMaxW = s.decMaxW := rfl
@[simp] theorem State.setEos_sink (s : State) (x : Bool) : (s.setEos x).sink = s.sink := rfl
@[simp] theorem State.setEos_source (s : State) (x : Bool) : (s.setEos x).source = s.source := rfl
@[simp] theorem State.setEos_rsp (s : State) (x : Bool) : (s.setEos x).rsp = s.rsp := rfl
@[simp] theorem State.setEos_host (s : State) (x : Bool) : (s.setEos x).host = s.host := rfl

@[simp] theorem State.setFailed_acc (s : State) (x : Bool) : (s.setFailed x).acc = s.acc := rfl
@[simp] theorem State.setFailed_cnt (s : State) (x : Bool) : (s.setFailed x).cnt = s.cnt := rfl
@[simp] theorem State.setFailed_eos (s : State) (x : Bool) : (s.setFailed x).eos = s.eos := rfl
@[simp] theorem State.setFailed_failed (s : State) (x : Bool) : (s.setFailed x).failed = x := rfl
@[simp] theorem State.setFailed_mode (s : State) (x : Bool) : (s.setFailed x).mode = s.mode := rfl
@[simp] theorem State.setFailed_rom (s : State) (x : Bool) : (s.setFailed x).rom = s.rom := rfl
@[simp] theorem State.setFailed_decMaxW (s : State) (x : Bool) : (s.setFailed x).decMaxW = s.decMaxW := rfl
@[simp] theorem State.setFailed_sink (s : State) (x : Bool) : (s.setFailed x).sink = s.sink := rfl
@[simp] theorem State.setFailed_source (s : State) (x : Bool) : (s.setFailed x).source = s.source := rfl
@[simp] theorem State.setFailed_rsp (s : State) (x : Bool) : (s.setFailed x).rsp = s.rsp := rfl
@[simp] theorem State.setFailed_host (s : State) (x : Bool) : (s.setFailed x).host = s.host := rfl

@[simp] theorem State.setMode_acc (s : State) (x : Mode) : (s.setMode x).acc = s.acc := rfl
@[simp] theorem State.setMode_cnt (s : State) (x : Mode) : (s.setMode x).cnt = s.cnt := rfl
@[simp] theorem State.setMode_eos (s : State) (x : Mode) : (s.setMode x).eos = s.eos := rfl
@[simp] theorem State.setMode_failed (s : State) (x : Mode) : (s.setMode x).failed = s.failed := rfl
@[simp] theorem State.setMode_mode (s : State) (x : Mode) : (s.setMode x).mode = x := rfl
@[simp] theorem State.setMode_rom (s : State) (x : Mode) : (s.setMode x).rom = s.rom := rfl
@[simp] theorem State.setMode_decMaxW (s : State) (x : Mode) : (s.setMode x).decMaxW = s.decMaxW := rfl
@[simp] theorem State.setMode_sink (s : State) (x : Mode) : (s.setMode x).sink = s.sink := rfl
@[simp] theorem State.setMode_source (s : State) (x : Mode) : (s.setMode x).source = s.source := rfl
@[simp] theorem State.setMode_rsp (s : State) (x : Mode) : (s.setMode x).rsp = s.rsp := rfl
@[simp] theorem State.setMode_host (s : State) (x : Mode) : (s.setMode x).host = s.host := rfl

@[simp] theorem State.setRsp_acc (s : State) (x : Option RspWord) : (s.setRsp x).acc = s.acc := rfl
@[simp] theorem State.setRsp_cnt (s : State) (x : Option RspWord) : (s.setRsp x).cnt = s.cnt := rfl
@[simp] theorem State.setRsp_eos (s : State) (x : Option RspWord) : (s.setRsp x).eos = s.eos := rfl
@[simp] theorem State.setRsp_failed (s : State) (x : Option RspWord) : (s.setRsp x).failed = s.failed := rfl
@[simp] theorem State.setRsp_mode (s : State) (x : Option RspWord) : (s.setRsp x).mode = s.mode := rfl
@[simp] theorem State.setRsp_rom (s : State) (x : Option RspWord) : (s.setRsp x).rom = s.rom := rfl
@[simp] theorem State.setRsp_decMaxW (s : State) (x : Option RspWord) : (s.setRsp x).decMaxW = s.decMaxW := rfl
@[simp] theorem State.setRsp_sink (s : State) (x : Option RspWord) : (s.setRsp x).sink = s.sink := rfl
@[simp] theorem State.setRsp_source (s : State) (x : Option RspWord) : (s.setRsp x).source = s.source := rfl
@[simp] theorem State.setRsp_rsp (s : State) (x : Option RspWord) : (s.setRsp x).rsp = x := rfl
@[simp] theorem State.setRsp_host (s : State) (x : Option RspWord) : (s.setRsp x).host = s.host := rfl

@[simp] theorem State.setSink_acc (s : State) (x : Sink) : (s.setSink x).acc = s.acc := rfl
@[simp] theorem State.setSink_cnt (s : State) (x : Sink) : (s.setSink x).cnt = s.cnt := rfl
@[simp] theorem State.setSink_eos (s : State) (x : Sink) : (s.setSink x).eos = s.eos := rfl
@[simp] theorem State.setSink_failed (s : State) (x : Sink) : (s.setSink x).failed = s.failed := rfl
@[simp] theorem State.setSink_mode (s : State) (x : Sink) : (s.setSink x).mode = s.mode := rfl
@[simp] theorem State.setSink_rom (s : State) (x : Sink) : (s.setSink x).rom = s.rom := rfl
@[simp] theorem State.setSink_decMaxW (s : State) (x : Sink) : (s.setSink x).decMaxW = s.decMaxW := rfl
@[simp] theorem State.setSink_sink (s : State) (x : Sink) : (s.setSink x).sink = x := rfl
@[simp] theorem State.setSink_source (s : State) (x : Sink) : (s.setSink x).source = s.source := rfl
@[simp] theorem State.setSink_rsp (s : State) (x : Sink) : (s.setSink x).rsp = s.rsp := rfl
@[simp] theorem State.setSink_host (s : State) (x : Sink) : (s.setSink x).host = s.host := rfl

@[simp] theorem State.setSource_acc (s : State) (x : Source) : (s.setSource x).acc = s.acc := rfl
@[simp] theorem State.setSource_cnt (s : State) (x : Source) : (s.setSource x).cnt = s.cnt := rfl
@[simp] theorem State.setSource_eos (s : State) (x : Source) : (s.setSource x).eos = s.eos := rfl
@[simp] theorem State.setSource_failed (s : State) (x : Source) : (s.setSource x).failed = s.failed := rfl
@[simp] theorem State.setSource_mode (s : State) (x : Source) : (s.setSource x).mode = s.mode := rfl
@[simp] theorem State.setSource_rom (s : State) (x : Source) : (s.setSource x).rom = s.rom := rfl
@[simp] theorem State.setSource_decMaxW (s : State) (x : Source) : (s.setSource x).decMaxW = s.decMaxW := rfl
@[simp] theorem State.setSource_sink (s : State) (x : Source) : (s.setSource x).sink = s.sink := rfl
@[simp] theorem State.setSource_source (s : State) (x : Source) : (s.setSource x).source = x := rfl
@[simp] theorem State.setSource_rsp (s : State) (x : Source) : (s.setSource x).rsp = s.rsp := rfl
@[simp] theorem State.setSource_host (s : State) (x : Source) : (s.setSource x).host = s.host := rfl

@[simp] theorem State.setHost_acc (s : State) (x : List HostAction) : (s.setHost x).acc = s.acc := rfl
@[simp] theorem State.setHost_cnt (s : State) (x : List HostAction) : (s.setHost x).cnt = s.cnt := rfl
@[simp] theorem State.setHost_eos (s : State) (x : List HostAction) : (s.setHost x).eos = s.eos := rfl
@[simp] theorem State.setHost_failed (s : State) (x : List HostAction) : (s.setHost x).failed = s.failed := rfl
@[simp] theorem State.setHost_mode (s : State) (x : List HostAction) : (s.setHost x).mode = s.mode := rfl
@[simp] theorem State.setHost_rom (s : State) (x : List HostAction) : (s.setHost x).rom = s.rom := rfl
@[simp] theorem State.setHost_decMaxW (s : State) (x : List HostAction) : (s.setHost x).decMaxW = s.decMaxW := rfl
@[simp] theorem State.setHost_sink (s : State) (x : List HostAction) : (s.setHost x).sink = s.sink := rfl
@[simp] theorem State.setHost_source (s : State) (x : List HostAction) : (s.setHost x).source = s.source := rfl
@[simp] theorem State.setHost_rsp (s : State) (x : List HostAction) : (s.setHost x).rsp = s.rsp := rfl
@[simp] theorem State.setHost_host (s : State) (x : List HostAction) : (s.setHost x).host = x := rfl

/-- Writing the response channel twice leaves the last write. -/
@[simp] theorem State.setRsp_setRsp (s : State) (x y : Option RspWord) : (s.setRsp x).setRsp y = s.setRsp y := rfl

/-- Two states with equal fields are equal. -/
theorem State.eq_of_fields {s t : State} (h1 : s.acc = t.acc) (h2 : s.cnt = t.cnt) (h3 : s.eos = t.eos)
    (h4 : s.failed = t.failed) (h5 : s.mode = t.mode) (h6 : s.rom = t.rom) (h7 : s.decMaxW = t.decMaxW)
    (h8 : s.sink = t.sink) (h9 : s.source = t.source) (h10 : s.rsp = t.rsp) (h11 : s.host = t.host) : s = t := by
  cases s; cases t; simp_all

end Sys2Proof.Machine
end

