-- ==== Sys2Proof/Laws/Ops.lean ====
section
/-! SUPPORT. One lemma per shared operation of Machine/Ops.lean, Machine/Operands.lean and Machine/Channel.lean that says
what it can do. -/

namespace Sys2Proof.Machine

open Sys2Proof.Safety

/-! ### Fields after Respond, Fatal, a pass command and reset -/

@[simp] theorem respond_acc (st : Status) (l : LenField) (d : DataField) (s : State) : (respond st l d s).acc = s.acc := rfl
@[simp] theorem respond_cnt (st : Status) (l : LenField) (d : DataField) (s : State) : (respond st l d s).cnt = s.cnt := rfl
@[simp] theorem respond_eos (st : Status) (l : LenField) (d : DataField) (s : State) : (respond st l d s).eos = s.eos := rfl
@[simp] theorem respond_failed (st : Status) (l : LenField) (d : DataField) (s : State) :
    (respond st l d s).failed = s.failed := rfl
@[simp] theorem respond_mode (st : Status) (l : LenField) (d : DataField) (s : State) : (respond st l d s).mode = s.mode := rfl
@[simp] theorem respond_rom (st : Status) (l : LenField) (d : DataField) (s : State) : (respond st l d s).rom = s.rom := rfl
@[simp] theorem respond_decMaxW (st : Status) (l : LenField) (d : DataField) (s : State) :
    (respond st l d s).decMaxW = s.decMaxW := rfl
@[simp] theorem respond_sink (st : Status) (l : LenField) (d : DataField) (s : State) : (respond st l d s).sink = s.sink := rfl
@[simp] theorem respond_source (st : Status) (l : LenField) (d : DataField) (s : State) :
    (respond st l d s).source = s.source := rfl
@[simp] theorem respond_host (st : Status) (l : LenField) (d : DataField) (s : State) : (respond st l d s).host = s.host := rfl
@[simp] theorem respond_rsp (st : Status) (l : LenField) (d : DataField) (s : State) :
    (respond st l d s).rsp = some (rspWord st l d) := rfl

@[simp] theorem emptyBuf_acc (s : State) : (emptyBuf s).acc = 0 := rfl
@[simp] theorem emptyBuf_cnt (s : State) : (emptyBuf s).cnt = 0 := rfl
@[simp] theorem emptyBuf_eos (s : State) : (emptyBuf s).eos = s.eos := rfl
@[simp] theorem emptyBuf_failed (s : State) : (emptyBuf s).failed = s.failed := rfl
@[simp] theorem emptyBuf_mode (s : State) : (emptyBuf s).mode = s.mode := rfl
@[simp] theorem emptyBuf_rom (s : State) : (emptyBuf s).rom = s.rom := rfl
@[simp] theorem emptyBuf_decMaxW (s : State) : (emptyBuf s).decMaxW = s.decMaxW := rfl
@[simp] theorem emptyBuf_sink (s : State) : (emptyBuf s).sink = s.sink := rfl
@[simp] theorem emptyBuf_source (s : State) : (emptyBuf s).source = s.source := rfl
@[simp] theorem emptyBuf_rsp (s : State) : (emptyBuf s).rsp = s.rsp := rfl
@[simp] theorem emptyBuf_host (s : State) : (emptyBuf s).host = s.host := rfl

@[simp] theorem fatal_acc (f : FatalStatus) (s : State) : (fatal f s).acc = 0 := rfl
@[simp] theorem fatal_cnt (f : FatalStatus) (s : State) : (fatal f s).cnt = 0 := rfl
@[simp] theorem fatal_eos (f : FatalStatus) (s : State) : (fatal f s).eos = s.eos := rfl
@[simp] theorem fatal_failed (f : FatalStatus) (s : State) : (fatal f s).failed = true := rfl
@[simp] theorem fatal_mode (f : FatalStatus) (s : State) : (fatal f s).mode = s.mode := rfl
@[simp] theorem fatal_rom (f : FatalStatus) (s : State) : (fatal f s).rom = s.rom := rfl
@[simp] theorem fatal_decMaxW (f : FatalStatus) (s : State) : (fatal f s).decMaxW = s.decMaxW := rfl
@[simp] theorem fatal_sink (f : FatalStatus) (s : State) : (fatal f s).sink = s.sink := rfl
@[simp] theorem fatal_source (f : FatalStatus) (s : State) : (fatal f s).source = s.source := rfl
@[simp] theorem fatal_host (f : FatalStatus) (s : State) : (fatal f s).host = s.host := rfl
@[simp] theorem fatal_rsp (f : FatalStatus) (s : State) : (fatal f s).rsp = some (rspWord (fatalCode f) 0 0) := rfl

@[simp] theorem setPass_acc (m : Mode) (s : State) : (setPass m s).acc = 0 := rfl
@[simp] theorem setPass_cnt (m : Mode) (s : State) : (setPass m s).cnt = 0 := rfl
@[simp] theorem setPass_eos (m : Mode) (s : State) : (setPass m s).eos = false := rfl
@[simp] theorem setPass_failed (m : Mode) (s : State) : (setPass m s).failed = false := rfl
@[simp] theorem setPass_mode (m : Mode) (s : State) : (setPass m s).mode = m := rfl
@[simp] theorem setPass_rom (m : Mode) (s : State) : (setPass m s).rom = s.rom := rfl
@[simp] theorem setPass_decMaxW (m : Mode) (s : State) : (setPass m s).decMaxW = s.decMaxW := rfl
@[simp] theorem setPass_sink (m : Mode) (s : State) : (setPass m s).sink = s.sink := rfl
@[simp] theorem setPass_source (m : Mode) (s : State) : (setPass m s).source = s.source := rfl
@[simp] theorem setPass_rsp (m : Mode) (s : State) : (setPass m s).rsp = s.rsp := rfl
@[simp] theorem setPass_host (m : Mode) (s : State) : (setPass m s).host = s.host := rfl

/-- Where the command makes no more than `n` SinkWrites, the sink is as the whole command leaves it (R200). -/
theorem Sink.cut_all {n : Nat} {k l : Sink} (h : l.oracle.draws ≤ k.oracle.draws + n) : Sink.cut n k l = l := if_pos h

/-- Where the command makes more than `n` SinkWrites, the first `n` have each stored a byte (R200, U11). -/
theorem Sink.cut_some {n : Nat} {k l : Sink} (h : k.oracle.draws + n < l.oracle.draws) :
    Sink.cut n k l = ⟨l.bytes.take (k.bytes.length + n), k.oracle.skip n⟩ := if_neg (Nat.not_le.2 h)

/-- Where the command makes no more than `n` SourcePulls, the source is as the whole command leaves it (R200). -/
theorem Source.cut_all {n : Nat} {k l : Source} (h : l.oracle.draws ≤ k.oracle.draws + n) : Source.cut n k l = l := if_pos h

/-- Where the command makes more than `n` SourcePulls, the first `n` have each taken a byte (R200, U11). -/
theorem Source.cut_some {n : Nat} {k l : Source} (h : k.oracle.draws + n < l.oracle.draws) :
    Source.cut n k l = ⟨k.bytes.drop n, k.oracle.skip n⟩ := if_neg (Nat.not_le.2 h)

/-- `abandon` is a reset of the state with both devices cut (R200). -/
theorem abandon_eq (n : Nat) (s t : State) :
    abandon n s t =
      (setPass .idle ((s.setSink (Sink.cut n s.sink t.sink)).setSource (Source.cut n s.source t.source))).setRsp none := rfl

/-! ### Devices -/

/-- A device's next answer is the first of the answers to come. -/
theorem sinkAnswer_head (k : Sink) : k.oracle.answer Config.sinkOracle = sinkAnswerAt k 0 := by
  obtain ⟨bs, script, d⟩ := k
  cases script <;> simp [Oracle.answer, sinkAnswerAt]

theorem sourceAnswer_head (k : Source) : k.oracle.answer Config.sourceOracle = sourceAnswerAt k 0 := by
  obtain ⟨bs, script, d⟩ := k
  cases script <;> simp [Oracle.answer, sourceAnswerAt]

@[simp] theorem Oracle.skip_draws {α : Type} (o : Oracle α) (n : Nat) : (o.skip n).draws = o.draws + n := rfl

@[simp] theorem Oracle.skip_script {α : Type} (o : Oracle α) (n : Nat) : (o.skip n).script = o.script.drop n := rfl

@[simp] theorem Oracle.skip_zero {α : Type} (o : Oracle α) : o.skip 0 = o := rfl

/-- Answers given in two parts are given. -/
theorem Oracle.skip_skip {α : Type} (o : Oracle α) (m n : Nat) : (o.skip m).skip n = o.skip (m + n) := by
  simp [Oracle.skip, Nat.add_assoc]

/-- Once a device has given m answers, its answers to come are the later ones. -/
theorem sinkAnswer_skip (bs cs : List Byte) (o : Oracle SinkAnswer) (m n : Nat) :
    sinkAnswerAt ⟨bs, o.skip m⟩ n = sinkAnswerAt ⟨cs, o⟩ (m + n) := by
  simp [sinkAnswerAt, Nat.add_assoc]

theorem sourceAnswer_skip (bs cs : List Byte) (o : Oracle SourceAnswer) (m n : Nat) :
    sourceAnswerAt ⟨bs, o.skip m⟩ n = sourceAnswerAt ⟨cs, o⟩ (m + n) := by
  simp [sourceAnswerAt, Nat.add_assoc]

/-- Everything a SinkWrite can do (R42). -/
theorem sinkWrite_cases (b : Byte) (s : State) :
    (sinkAnswerAt s.sink 0 = .ok ∧ sinkWrite b s = (.ok, s.setSink ⟨s.sink.bytes ++ [b], s.sink.oracle.skip 1⟩)) ∨
    (sinkAnswerAt s.sink 0 = .errStored ∧
      sinkWrite b s = (.err, s.setSink ⟨s.sink.bytes ++ [b], s.sink.oracle.skip 1⟩)) ∨
    (sinkAnswerAt s.sink 0 = .errDropped ∧ sinkWrite b s = (.err, s.setSink ⟨s.sink.bytes, s.sink.oracle.skip 1⟩)) := by
  simp only [sinkWrite, sinkAnswer_head, Sink.push, Sink.skip, Oracle.advance]
  cases h : sinkAnswerAt s.sink 0 <;> simp

/-- Everything a SourcePull can do (R43). -/
theorem sourcePull_cases (s : State) :
    (sourceAnswerAt s.source 0 = .err ∧ sourcePull s = (.err, s.setSource ⟨s.source.bytes, s.source.oracle.skip 1⟩)) ∨
    (sourceAnswerAt s.source 0 = .ok ∧ s.source.bytes = [] ∧
      sourcePull s = (.eos, s.setSource ⟨[], s.source.oracle.skip 1⟩)) ∨
    (∃ b bs, sourceAnswerAt s.source 0 = .ok ∧ s.source.bytes = b :: bs ∧
      sourcePull s = (.byte b, s.setSource ⟨bs, s.source.oracle.skip 1⟩)) := by
  simp only [sourcePull, sourceAnswer_head, Oracle.advance]
  cases h : sourceAnswerAt s.source 0 with
  | err => simp
  | ok =>
    cases hb : s.source.bytes with
    | nil => simp
    | cons b bs => simp

/-! ### Checks before execution -/

/-- Everything the field check can do (R66). -/
theorem ifWellFormed_cases (ok : Bool) (run : State → Result) (s : State) :
    (ok = false ∧ ifWellFormed ok run s = answer .illegalCommand s) ∨ (ok = true ∧ ifWellFormed ok run s = run s) := by
  cases ok <;> simp [ifWellFormed]

/-- Everything the mode check can do (R64). -/
theorem inMode_cases (m : Mode) (run : State → Result) (s : State) :
    (s.mode ≠ m ∧ inMode m run s = answer .wrongMode s) ∨ (s.mode = m ∧ inMode m run s = run s) := by
  by_cases h : s.mode = m <;> simp [inMode, h]

/-- Everything the checks of a pass command can do (R177). -/
theorem inPass_cases (m : Mode) (run : State → Result) (s : State) :
    (s.mode ≠ m ∧ inPass m run s = answer .wrongMode s) ∨
    (s.mode = m ∧ s.failed = true ∧ inPass m run s = answer .failed s) ∨
    (s.mode = m ∧ s.failed = false ∧ inPass m run s = run s) := by
  by_cases h : s.mode = m <;> cases hf : s.failed <;> simp [inPass, inMode, unlessFailed, h, hf]

/-- Everything a lookup's table check can do (R84). -/
theorem withTable_cases (run : State → Result) (s : State) :
    (tableLegal s.rom = true ∧ withTable run s = run s) ∨
    (tableLegal s.rom = false ∧ withTable run s = .refused .illegalCodeTable) := by
  cases h : tableLegal s.rom <;> simp [withTable, h]

/-! ### The channel and the host's turn -/

/-- Everything one command word can do (R65 to R67). -/
theorem runWord_cases (w : CmdWord) (s : State) :
    (∃ i, decode w = .ok i ∧ runWord w s = exec i s) ∨
    (∃ e, decode w = .error e ∧ runWord w s = answer .illegalCommand s) := by
  cases h : decode w <;> simp [runWord, h]

/-- If a command cut short by reset answers, the whole command would have answered (R200). -/
theorem runCut_next {w : CmdWord} {n : Nat} {s u : State} (h : runCut w n s = .next u) :
    ∃ t, runWord w s = .next t ∧ u = abandon n s t := by
  unfold runCut at h
  split at h
  · next t ht => exact ⟨t, ht, by cases h; rfl⟩
  · cases h
  · cases h

/-- Everything a step can do, by the host's next action. -/
theorem step_cases {s t : State} (h : step s = .next t) :
    (s.host = [] ∧ t = s) ∨
    (∃ w rest, s.host = .command w :: rest ∧ runWord w (s.setHost rest) = .next t) ∨
    (∃ rest, s.host = .reset :: rest ∧ t = resetCore (s.setHost rest)) ∨
    (∃ w n rest u, s.host = .resetDuring w n :: rest ∧ runWord w (s.setHost rest) = .next u ∧
      t = abandon n (s.setHost rest) u) ∨
    (∃ bs rest, s.host = .bindSink bs :: rest ∧ t = bindSink bs (s.setHost rest)) ∨
    (∃ bs rest, s.host = .bindSource bs :: rest ∧ t = bindSource bs (s.setHost rest)) := by
  unfold step hostTurn at h
  split at h
  · next hh => exact .inl ⟨hh, by cases h; rfl⟩
  · next w rest hh => exact .inr (.inl ⟨w, rest, hh, h⟩)
  · next rest hh => exact .inr (.inr (.inl ⟨rest, hh, by cases h; rfl⟩))
  · next w n rest hh =>
    obtain ⟨u, hu, rfl⟩ := runCut_next h
    exact .inr (.inr (.inr (.inl ⟨w, n, rest, u, hh, hu, rfl⟩)))
  · next bs rest hh => exact .inr (.inr (.inr (.inr (.inl ⟨bs, rest, hh, by cases h; rfl⟩))))
  · next bs rest hh => exact .inr (.inr (.inr (.inr (.inr ⟨bs, rest, hh, by cases h; rfl⟩))))

end Sys2Proof.Machine
end

