-- ==== Sys2Proof/Laws/PerInstr.lean ====
section
/-! SUPPORT. Statements about the commands as syntax, proved constructor by constructor. `Layout` says that a command's word
has the command's row of spec/opcode_table.json: its fixed bits are the row's `match` under the row's `mask`. -/

namespace Sys2Proof.Laws.Layout

open Sys2Proof

/-- The `mask` of each command's row in spec/opcode_table.json. -/
def rowMask : Instr → CmdWord
  | .append _ _ | .symbolOf _ _ => 0xFFC000000000
  | .codeOf _ | .bitlenOf _ => 0xFFFFFFFFFF00
  | .startEnc | .startDec | .flush | .next | .endPass | .status => 0xFFFFFFFFFFFF

/-- The `match` of each command's row in spec/opcode_table.json. -/
def rowMatch : Instr → CmdWord
  | .startEnc => 0x100000000000
  | .startDec => 0x200000000000
  | .append _ _ => 0x300000000000
  | .flush => 0x400000000000
  | .next => 0x500000000000
  | .endPass => 0x600000000000
  | .codeOf _ => 0x700000000000
  | .bitlenOf _ => 0x800000000000
  | .symbolOf _ _ => 0x900000000000
  | .status => 0xA00000000000

/-- The word of a command matches the command's row. -/
def Statement (i : Instr) : Prop := encode i &&& rowMask i = rowMatch i

theorem startEnc : Statement .startEnc := by unfold Statement; decide
theorem startDec : Statement .startDec := by unfold Statement; decide
theorem flush : Statement .flush := by unfold Statement; decide
theorem next : Statement .next := by unfold Statement; decide
theorem endPass : Statement .endPass := by unfold Statement; decide
theorem status : Statement .status := by unfold Statement; decide

/-- A word built from its fields, under the mask that keeps `op` and `rsv`. -/
theorem mkCmd_and_opMask (op : BitVec 4) (len : LenField) (data : DataField) :
    mkCmd op len data &&& 0xFFC000000000 = op ++ 0#44 := by
  refine BitVec.eq_of_getLsbD_eq fun i hi => ?_
  have hm : (0xFFC000000000 : CmdWord) = (0x3FF#10 ++ 0#38 : CmdWord) := by decide
  rw [hm, BitVec.getLsbD_and]
  simp only [mkCmd, BitVec.getLsbD_append, BitVec.getLsbD_zero]
  by_cases h : i < 38
  · rw [if_pos h, if_pos (by omega : i < 44), Bool.and_false]
  · rw [if_neg h]
    have hi' : i - 38 < 10 := by omega
    have ho : (0x3FF#10).getLsbD (i - 38) = true := by
      generalize i - 38 = k at hi'
      revert k; decide
    rw [ho, Bool.and_true, if_neg (by omega), if_neg (by omega)]
    by_cases h2 : i < 44
    · rw [if_pos h2, if_pos (by omega)]
    · rw [if_neg h2, if_neg (by omega)]; congr 1

theorem append (len : LenField) (data : DataField) : Statement (.append len data) := by
  show mkCmd 0x3 len data &&& _ = _
  rw [show rowMask (.append len data) = 0xFFC000000000 from rfl, mkCmd_and_opMask]; rfl

theorem symbolOf (len : LenField) (data : DataField) : Statement (.symbolOf len data) := by
  show mkCmd 0x9 len data &&& _ = _
  rw [show rowMask (.symbolOf len data) = 0xFFC000000000 from rfl, mkCmd_and_opMask]; rfl

theorem codeOf (sym : Byte) : Statement (.codeOf sym) := by
  show mkCmd 0x7 0 (sym.setWidth 32) &&& 0xFFFFFFFFFF00 = 0x700000000000
  revert sym; decide

theorem bitlenOf (sym : Byte) : Statement (.bitlenOf sym) := by
  show mkCmd 0x8 0 (sym.setWidth 32) &&& 0xFFFFFFFFFF00 = 0x800000000000
  revert sym; decide

end Sys2Proof.Laws.Layout
end

