-- ==== Sys2Proof/Laws/ReadPath.lean ====
section
/-! SUPPORT. The read path, one round at a time: what looking for the next bit can do, what consuming it does to the unread
bits, and one round of NEXT's loop (R121, R122). -/

namespace Sys2Proof.Machine

open Sys2Proof.Safety

@[simp] theorem cntDown_val (c : Cnt) : (cntDown c).val = c.val - 1 := rfl

@[simp] theorem dropBit_acc (s : State) : (dropBit s).acc = s.acc := rfl
@[simp] theorem dropBit_cnt (s : State) : (dropBit s).cnt = cntDown s.cnt := rfl
@[simp] theorem dropBit_eos (s : State) : (dropBit s).eos = s.eos := rfl
@[simp] theorem dropBit_failed (s : State) : (dropBit s).failed = s.failed := rfl
@[simp] theorem dropBit_mode (s : State) : (dropBit s).mode = s.mode := rfl
@[simp] theorem dropBit_rom (s : State) : (dropBit s).rom = s.rom := rfl
@[simp] theorem dropBit_decMaxW (s : State) : (dropBit s).decMaxW = s.decMaxW := rfl
@[simp] theorem dropBit_sink (s : State) : (dropBit s).sink = s.sink := rfl
@[simp] theorem dropBit_source (s : State) : (dropBit s).source = s.source := rfl
@[simp] theorem dropBit_rsp (s : State) : (dropBit s).rsp = s.rsp := rfl
@[simp] theorem dropBit_host (s : State) : (dropBit s).host = s.host := rfl

/-- The held bits are the top bit, then those held once it is consumed (R122). -/
theorem heldBits_dropBit (s : State) (h : s.cnt ≠ 0) : heldBits s = topBit s :: heldBits (dropBit s) := by
  have hv : s.cnt.val ≠ 0 := fun e => h (Fin.ext e)
  obtain ⟨k, hk⟩ := Nat.exists_eq_succ_of_ne_zero hv
  simp [heldBits, topBit, hk, bitsOf]

/-- Everything looking for the next bit can do (R121): a held bit; the end, met before or now; a failed pull; a fresh byte. -/
theorem refill_cases (s : State) :
    (s.cnt ≠ 0 ∧ refill s = .ready s) ∨
    (s.cnt = 0 ∧ s.eos = true ∧ refill s = .exhausted s) ∨
    (s.cnt = 0 ∧ s.eos = false ∧ sourceAnswerAt s.source 0 = .err ∧
      refill s = .err (s.setSource ⟨s.source.bytes, s.source.oracle.skip 1⟩)) ∨
    (s.cnt = 0 ∧ s.eos = false ∧ sourceAnswerAt s.source 0 = .ok ∧ s.source.bytes = [] ∧
      refill s = .exhausted ((s.setSource ⟨[], s.source.oracle.skip 1⟩).setEos true)) ∨
    (∃ b bs, s.cnt = 0 ∧ s.eos = false ∧ sourceAnswerAt s.source 0 = .ok ∧ s.source.bytes = b :: bs ∧
      refill s = .ready ((s.setSource ⟨bs, s.source.oracle.skip 1⟩).setBuf b 8)) := by
  by_cases h : s.cnt = 0
  · cases he : s.eos with
    | true => simp [refill, h, he]
    | false =>
      rcases sourcePull_cases s with ⟨ha, hp⟩ | ⟨ha, hb, hp⟩ | ⟨b, bs, ha, hb, hp⟩
      · simp [refill, h, he, ha, hp]
      · simp [refill, h, he, ha, hb, hp]
      · simp [refill, h, he, ha, hb, hp]
  · simp [refill, h]

/-- Whenever a bit is found, the buffer holds it, and no unread bit was lost in the search (R122). -/
theorem refill_ready {s t : State} (h : refill s = .ready t) : t.cnt ≠ 0 ∧ unreadBits t = unreadBits s := by
  rcases refill_cases s with ⟨hc, hr⟩ | ⟨-, -, hr⟩ | ⟨-, -, -, hr⟩ | ⟨-, -, -, -, hr⟩ | ⟨b, bs, hc, -, -, hb, hr⟩ <;>
    rw [hr] at h <;> cases h
  · exact ⟨hc, rfl⟩
  · refine ⟨by simp, ?_⟩
    have h0 : heldBits s = [] := by simp [heldBits, hc, bitsOf]
    have h8 : heldBits ((s.setSource ⟨bs, s.source.oracle.skip 1⟩).setBuf b 8) = bitsOf b 8 := rfl
    simp [unreadBits, h0, h8, hb]

/-- One round of NEXT's loop (R121). -/
theorem unpack_succ (n : Nat) (t : NextTemps) (s : State) :
    (∃ s', refill s = .err s' ∧ unpack (n + 1) t s = fatal .ioError s') ∨
    (∃ s', refill s = .exhausted s' ∧ unpack (n + 1) t s = exhausted t s') ∨
    (∃ s', refill s = .ready s' ∧ (takeBit (topBit s') t).w = 1 ∧ (takeBit (topBit s') t).fb = some false ∧
      unpack (n + 1) t s = fatal .corruptStream (dropBit s')) ∨
    (∃ s', refill s = .ready s' ∧ ¬ ((takeBit (topBit s') t).w = 1 ∧ (takeBit (topBit s') t).fb = some false) ∧
      (takeBit (topBit s') t).zr = 2 ∧
      unpack (n + 1) t s =
        respond .codeword (BitVec.ofNat 6 (takeBit (topBit s') t).w) (takeBit (topBit s') t).code (dropBit s')) ∨
    (∃ s', refill s = .ready s' ∧ ¬ ((takeBit (topBit s') t).w = 1 ∧ (takeBit (topBit s') t).fb = some false) ∧
      (takeBit (topBit s') t).zr ≠ 2 ∧ unpack (n + 1) t s = unpack n (takeBit (topBit s') t) (dropBit s')) := by
  cases h : refill s with
  | err s' => exact .inl ⟨s', rfl, by simp [unpack, h]⟩
  | exhausted s' => exact .inr (.inl ⟨s', rfl, by simp [unpack, h]⟩)
  | ready s' =>
    by_cases h1 : (takeBit (topBit s') t).w = 1 ∧ (takeBit (topBit s') t).fb = some false
    · exact .inr (.inr (.inl ⟨s', rfl, h1.1, h1.2, by simp only [unpack, h]; rw [if_pos h1]⟩))
    · by_cases h2 : (takeBit (topBit s') t).zr = 2
      · exact .inr (.inr (.inr (.inl ⟨s', rfl, h1, h2, by simp only [unpack, h]; rw [if_neg h1, if_pos h2]⟩)))
      · exact .inr (.inr (.inr (.inr ⟨s', rfl, h1, h2, by simp only [unpack, h]; rw [if_neg h1, if_neg h2]⟩)))

/-- Everything the end of the source can do (R126). -/
theorem exhausted_cases (t : NextTemps) (s : State) :
    (t.w = 0 ∧ exhausted t s = respond .endOfStream 0 0 (s.setBuf 0 s.cnt)) ∨
    (t.w ≠ 0 ∧ exhausted t s = fatal .corruptStream s) := by
  by_cases h : t.w = 0 <;> simp [exhausted, h]

/-- Everything the padding rule can do (R125). -/
theorem skipPadding_cases (s : State) :
    (sourceAnswerAt s.source 0 = .err ∧
      skipPadding s = fatal .ioError ((emptyBuf s).setSource ⟨s.source.bytes, s.source.oracle.skip 1⟩)) ∨
    (sourceAnswerAt s.source 0 = .ok ∧ s.source.bytes = [] ∧
      skipPadding s =
        respond .endOfStream 0 0 (((emptyBuf s).setSource ⟨[], s.source.oracle.skip 1⟩).setEos true)) ∨
    (∃ b bs, sourceAnswerAt s.source 0 = .ok ∧ s.source.bytes = b :: bs ∧
      skipPadding s = fatal .corruptStream ((emptyBuf s).setSource ⟨bs, s.source.oracle.skip 1⟩)) := by
  rcases sourcePull_cases (emptyBuf s) with ⟨ha, hp⟩ | ⟨ha, hb, hp⟩ | ⟨b, bs, ha, hb, hp⟩
  · exact .inl ⟨ha, by simp [skipPadding, hp]⟩
  · exact .inr (.inl ⟨ha, hb, by simp [skipPadding, hp]⟩)
  · exact .inr (.inr ⟨b, bs, ha, hb, by simp [skipPadding, hp]⟩)

/-- Leftover bits are all padding exactly if there are 1 to 7 of them and none is a one (R125). -/
theorem onlyPadding_iff (s : State) :
    onlyPadding s = true ↔ 1 ≤ s.cnt.val ∧ s.cnt.val ≤ 7 ∧ ∀ b ∈ heldBits s, b = false := by
  have key : s.acc.toNat % 2 ^ s.cnt.val = 0 ↔ ∀ b ∈ heldBits s, b = false := by
    constructor
    · intro h b hb
      obtain ⟨j, hj⟩ := List.mem_iff_getElem?.1 hb
      have hl : j < s.cnt.val := by
        have := (List.getElem?_eq_some_iff.1 hj).1; simpa using this
      rw [heldBits, bitsOf_getElem? _ _ _ hl] at hj
      have ht : (s.acc.toNat % 2 ^ s.cnt.val).testBit (s.cnt.val - 1 - j) = false := by rw [h]; simp
      rw [Nat.testBit_mod_two_pow] at ht
      have hlt : s.cnt.val - 1 - j < s.cnt.val := by omega
      simp only [hlt, decide_true, Bool.true_and] at ht
      rw [← Option.some.inj hj]; exact ht
    · intro h
      apply Nat.eq_of_testBit_eq
      intro k
      rw [Nat.testBit_mod_two_pow, Nat.zero_testBit]
      by_cases hk : k < s.cnt.val
      · have := h (s.acc.getLsbD k) (List.mem_iff_getElem?.2 ⟨s.cnt.val - 1 - k, by
          rw [heldBits, bitsOf_getElem? _ _ _ (by omega)]; congr 2; omega⟩)
        have ht : s.acc.toNat.testBit k = false := this
        simp [ht]
      · simp [hk]
  simp [onlyPadding, key, and_assoc]

/-- Everything NEXT can do once its checks have passed (R121, R125). -/
theorem nextCodeword_cases (s : State) :
    (decMaxWLegal s.decMaxW = false ∧ nextCodeword s = .refused .illegalDecMaxW) ∨
    (decMaxWLegal s.decMaxW = true ∧ onlyPadding s = true ∧ nextCodeword s = .next (skipPadding s)) ∨
    (decMaxWLegal s.decMaxW = true ∧ onlyPadding s = false ∧
      nextCodeword s = .next (unpack s.decMaxW freshTemps s)) := by
  cases h : decMaxWLegal s.decMaxW <;> cases hp : onlyPadding s <;> simp [nextCodeword, h, hp]

end Sys2Proof.Machine
end

