-- ==== Sys2Proof/Laws/Table.lean ====
section
/-! SUPPORT. What a legal table gives its entries, and what the two lookup directions can answer (R82, R84). -/

namespace Sys2Proof.Machine

open Sys2Proof.Safety

/-- A byte is in the alphabet exactly if it is newline, space or a capital letter (R81). -/
theorem mem_alphabet_iff (s : Byte) : alphabet.contains s = true ↔ s = 0x0A ∨ s = 0x20 ∨ (0x41 ≤ s.toNat ∧ s.toNat ≤ 0x5A) := by
  revert s; decide

/-- The parts of a table's legality (R83, R84). -/
theorem tableLegal_iff (t : List RomEntry) :
    tableLegal t = true ↔ tableT0 t = true ∧ (∀ e ∈ t, entryLegal e = true) ∧ tableT6 t = true ∧ tableKnown t = true := by
  simp [tableLegal, and_assoc]

/-- T0, read as facts: one entry a symbol, symbols of the alphabet only, and all of them (R84). -/
theorem tableT0_iff (t : List RomEntry) :
    tableT0 t = true ↔ t.length = 28 ∧ (t.map RomEntry.sym).Nodup ∧ (∀ e ∈ t, alphabet.contains e.sym = true) ∧
      ∀ s, alphabet.contains s = true → ∃ e ∈ t, e.sym = s := by
  simp [tableT0, and_assoc]

/-- Two entries of one symbol are the same entry (T0). -/
theorem entry_unique_sym {t : List RomEntry} (h : tableLegal t = true) {e f : RomEntry} (he : e ∈ t) (hf : f ∈ t)
    (hs : e.sym = f.sym) : e = f := by
  have h0 := (tableT0_iff t).1 ((tableLegal_iff t).1 h).1
  exact List.inj_on_of_nodup_map h0.2.1 he hf hs

/-- Two entries of one codeword are the same entry (T6). -/
theorem entry_unique_code {t : List RomEntry} (h : tableLegal t = true) {e f : RomEntry} (he : e ∈ t) (hf : f ∈ t)
    (hv : e.val = f.val) (hl : e.len = f.len) : e = f := by
  have h6 := ((tableLegal_iff t).1 h).2.2.1
  simp only [tableT6, decide_eq_true_eq] at h6
  exact List.inj_on_of_nodup_map h6 he hf (by simp [hv, hl])

/-- T1 to T5 of an entry, read as facts (R84). -/
theorem entryLegal_iff (e : RomEntry) :
    entryLegal e = true ↔ (3 ≤ e.len.toNat ∧ e.len.toNat ≤ 12) ∧ e.val.toNat < 2 ^ e.len.toNat ∧
      e.val.getLsbD (e.len.toNat - 1) = true ∧ (e.val.getLsbD 1 = false ∧ e.val.getLsbD 0 = false) ∧
      ∀ j, 1 ≤ j → j ≤ e.len.toNat - 2 → ¬ (e.val.getLsbD (j + 1) = false ∧ e.val.getLsbD j = false) := by
  simp only [entryLegal, entryT1, entryT2, entryT3, entryT4, entryT5, Bool.and_eq_true, decide_eq_true_eq,
    Bool.not_eq_true', List.all_eq_true, List.mem_range, Bool.or_eq_true, beq_iff_eq]
  constructor
  · rintro ⟨⟨⟨⟨h1, h2⟩, h3⟩, h4⟩, h5⟩
    refine ⟨h1, h2, h3, h4, fun j hj hk hz => ?_⟩
    rcases h5 j (by omega) with (h | h) | h
    · omega
    · simp [hz.1] at h
    · simp [hz.2] at h
  · rintro ⟨h1, h2, h3, h4, h5⟩
    refine ⟨⟨⟨⟨h1, h2⟩, h3⟩, h4⟩, fun j hj => ?_⟩
    by_cases h0 : j = 0
    · exact .inl (.inl h0)
    · have := h5 j (by omega) (by omega)
      cases ha : e.val.getLsbD (j + 1) <;> cases hb : e.val.getLsbD j <;> simp_all

theorem entryLegal_of_mem {t : List RomEntry} (h : tableLegal t = true) {e : RomEntry} (he : e ∈ t) : entryLegal e = true :=
  ((tableLegal_iff t).1 h).2.1 e he

/-- What a lookup by symbol can answer (R82). -/
theorem codeOf_cases (t : List RomEntry) (s : Byte) :
    (∃ e ∈ t, e.sym = s ∧ codeOf t s = some e) ∨ ((∀ e ∈ t, e.sym ≠ s) ∧ codeOf t s = none) := by
  cases h : codeOf t s with
  | none => exact .inr ⟨by simpa [codeOf] using h, rfl⟩
  | some e =>
    have hp := List.find?_some h
    exact .inl ⟨e, List.mem_of_find?_eq_some h, by simpa using hp, rfl⟩

/-- What a lookup by codeword can answer (R82, R88). -/
theorem symOf_cases (t : List RomEntry) (v : DataField) (len : LenField) :
    (∃ e ∈ t, (entryData e = v ∧ entryLen e = len) ∧ symOf t v len = some e) ∨
    ((∀ e ∈ t, ¬ (entryData e = v ∧ entryLen e = len)) ∧ symOf t v len = none) := by
  cases h : symOf t v len with
  | none => exact .inr ⟨by simpa [symOf, entryMatches, entryData, entryLen] using h, rfl⟩
  | some e =>
    have hp := List.find?_some h
    exact .inl ⟨e, List.mem_of_find?_eq_some h, by simpa [entryMatches, entryData, entryLen] using hp, rfl⟩

end Sys2Proof.Machine
end

