-- ==== Sys2Proof/Laws/WritePath.lean ====
section
/-! SUPPORT. The write path, one round at a time: what emitting a full byte can do, what one pushed bit does to the held bits,
and what FLUSH can do (R100, R102). -/

namespace Sys2Proof.Machine

open Sys2Proof.Safety

theorem cntUp_val (c : Cnt) (h : c.val < 8) : (cntUp c).val = c.val + 1 := by simp [cntUp]; omega

@[simp] theorem pushBit_eos (b : Bool) (s : State) : (pushBit b s).eos = s.eos := rfl
@[simp] theorem pushBit_failed (b : Bool) (s : State) : (pushBit b s).failed = s.failed := rfl
@[simp] theorem pushBit_mode (b : Bool) (s : State) : (pushBit b s).mode = s.mode := rfl
@[simp] theorem pushBit_rom (b : Bool) (s : State) : (pushBit b s).rom = s.rom := rfl
@[simp] theorem pushBit_decMaxW (b : Bool) (s : State) : (pushBit b s).decMaxW = s.decMaxW := rfl
@[simp] theorem pushBit_sink (b : Bool) (s : State) : (pushBit b s).sink = s.sink := rfl
@[simp] theorem pushBit_source (b : Bool) (s : State) : (pushBit b s).source = s.source := rfl
@[simp] theorem pushBit_rsp (b : Bool) (s : State) : (pushBit b s).rsp = s.rsp := rfl
@[simp] theorem pushBit_host (b : Bool) (s : State) : (pushBit b s).host = s.host := rfl
@[simp] theorem pushBit_cnt (b : Bool) (s : State) : (pushBit b s).cnt = cntUp s.cnt := rfl

/-- Bit j of the shifted accumulator: the new bit at 0, the old bit j-1 above it. -/
theorem pushBit_getLsbD (b : Bool) (s : State) (j : Nat) :
    (pushBit b s).acc.getLsbD j = if j = 0 then b else decide (j < 8) && s.acc.getLsbD (j - 1) := by
  show ((s.acc <<< 1) ||| (BitVec.ofBool b).setWidth 8).getLsbD j = _
  rw [BitVec.getLsbD_or, BitVec.getLsbD_shiftLeft, BitVec.getLsbD_setWidth, BitVec.getLsbD_ofBool]
  by_cases h : j = 0 <;> simp [h]

/-- A pushed bit follows the held bits (R23, R100). -/
theorem heldBits_pushBit (b : Bool) (s : State) (h : s.cnt.val < 8) : heldBits (pushBit b s) = heldBits s ++ [b] := by
  apply List.ext_getElem?
  intro j
  by_cases hj : j < s.cnt.val + 1
  · rw [heldBits, pushBit_cnt, cntUp_val _ h, bitsOf_getElem? _ _ _ hj, pushBit_getLsbD]
    by_cases hl : j = s.cnt.val
    · subst hl; simp
    · rw [List.getElem?_append_left (by simp; omega), heldBits, bitsOf_getElem? _ _ _ (by omega)]
      have h1 : s.cnt.val + 1 - 1 - j ≠ 0 := by omega
      have h2 : s.cnt.val + 1 - 1 - j < 8 := by omega
      have h3 : s.cnt.val + 1 - 1 - j - 1 = s.cnt.val - 1 - j := by omega
      rw [if_neg h1, h3, decide_eq_true h2, Bool.true_and]
  · rw [List.getElem?_eq_none (by simp [cntUp_val _ h]; omega), List.getElem?_eq_none (by simp; omega)]

/-- Nothing but zero bits is shifted out, so the bits above `cnt` stay zero (R100, R35 I-3). -/
theorem pushBit_acc_lt (b : Bool) (s : State) (h : s.cnt.val < 8) (ha : s.acc.toNat < 2 ^ s.cnt.val) :
    (pushBit b s).acc.toNat < 2 ^ (pushBit b s).cnt.val := by
  rw [pushBit_cnt, cntUp_val _ h]
  apply Nat.lt_pow_two_of_testBit
  intro j hj
  have hz : s.acc.getLsbD (j - 1) = false :=
    Nat.testBit_lt_two_pow (Nat.lt_of_lt_of_le ha (Nat.pow_le_pow_right (by omega) (by omega)))
  have hp := pushBit_getLsbD b s j
  rw [if_neg (by omega), hz, Bool.and_false] at hp
  exact hp

/-- Everything emitting a full byte can do (R100): nothing below 8 bits; at 8 bits, a write that succeeds and empties the
buffer, or one that fails. -/
theorem emitFull_cases (s : State) :
    (s.cnt ≠ 8 ∧ emitFull s = (.ok, s)) ∨
    (s.cnt = 8 ∧ sinkAnswerAt s.sink 0 = .ok ∧
      emitFull s = (.ok, emptyBuf (s.setSink ⟨s.sink.bytes ++ [s.acc], s.sink.oracle.skip 1⟩))) ∨
    (s.cnt = 8 ∧ sinkAnswerAt s.sink 0 = .errStored ∧
      emitFull s = (.err, s.setSink ⟨s.sink.bytes ++ [s.acc], s.sink.oracle.skip 1⟩)) ∨
    (s.cnt = 8 ∧ sinkAnswerAt s.sink 0 = .errDropped ∧
      emitFull s = (.err, s.setSink ⟨s.sink.bytes, s.sink.oracle.skip 1⟩)) := by
  by_cases h : s.cnt = 8
  · rcases sinkWrite_cases s.acc s with ⟨ha, hw⟩ | ⟨ha, hw⟩ | ⟨ha, hw⟩ <;> simp [emitFull, h, ha, hw]
  · simp [emitFull, h]

/-- APPEND's loop, one round (R100). -/
theorem appendBits_succ (v : DataField) (i : Nat) (s : State) :
    (∃ t, emitFull s = (.ok, t) ∧ appendBits v (i + 1) s = appendBits v i (pushBit (v.getLsbD i) t)) ∨
    (∃ t, emitFull s = (.err, t) ∧ appendBits v (i + 1) s = fatal .ioError t) := by
  rcases h : emitFull s with ⟨r, t⟩
  cases r <;> simp [appendBits, h]

/-- Everything FLUSH can do once its checks have passed (R102). -/
theorem flushBuf_cases (s : State) :
    (s.cnt = 0 ∧ flushBuf s = respond .ok 0 0 s) ∨
    (s.cnt ≠ 0 ∧ sinkAnswerAt s.sink 0 = .ok ∧
      flushBuf s = respond .ok 0 0 (emptyBuf (s.setSink ⟨s.sink.bytes ++ [paddedByte s], s.sink.oracle.skip 1⟩))) ∨
    (s.cnt ≠ 0 ∧ sinkAnswerAt s.sink 0 = .errStored ∧
      flushBuf s = fatal .ioError (s.setSink ⟨s.sink.bytes ++ [paddedByte s], s.sink.oracle.skip 1⟩)) ∨
    (s.cnt ≠ 0 ∧ sinkAnswerAt s.sink 0 = .errDropped ∧
      flushBuf s = fatal .ioError (s.setSink ⟨s.sink.bytes, s.sink.oracle.skip 1⟩)) := by
  by_cases h : s.cnt = 0
  · simp [flushBuf, h]
  · rcases sinkWrite_cases (paddedByte s) s with ⟨ha, hw⟩ | ⟨ha, hw⟩ | ⟨ha, hw⟩ <;> simp [flushBuf, h, ha, hw]

end Sys2Proof.Machine
end

