-- ==== Sys2Proof/Tests/Slice0.lean ====
section
/-! SUPPORT. Tests and witnesses. The `test_` theorems run one decode or one command on a small state; their expected results
are words and vectors of the spec, named in each comment. The `witness_` theorems show, for each statement with hypotheses, a
state and operands that meet them, at the ends of their ranges. -/

namespace Sys2Proof.Tests

open Sys2Proof Sys2Proof.Machine Sys2Proof.Safety

/-! ### Helpers -/

/-- The next state of an outcome, if it is one. -/
def nextOf {α : Type} (o : Host.Outcome α Fault Refusal) : Option α :=
  match o with
  | .next t => some t
  | .fault _ => none
  | .refused _ => none

/-- An outcome whose next state passes a test has one. -/
theorem exists_next {α : Type} {o : Host.Outcome α Fault Refusal} {p : α → Prop} [DecidablePred p]
    (h : (nextOf o).any (fun t => decide (p t)) = true) : ∃ t, o = .next t ∧ p t := by
  cases o with
  | next t => exact ⟨t, rfl, by simpa [nextOf] using h⟩
  | fault r => simp [nextOf] at h
  | refused r => simp [nextOf] at h

/-- The response word of an outcome. -/
def rspOf (o : Result) : Option RspWord := (nextOf o).bind State.rsp

/-- A pass with the given buffer, a source of `bytes`, and devices that answer their first eight requests with success. -/
def pass (m : Mode) (acc : Byte) (cnt : Cnt) (bytes : List Byte) : State :=
  { State.reset with
    mode := m, acc := acc, cnt := cnt
    sink := ⟨[], ⟨List.replicate 8 .ok, 0⟩⟩
    source := ⟨bytes, ⟨List.replicate 8 .ok, 0⟩⟩ }

/-- An encode pass whose sink gives the answers `answers`. -/
def encPass (acc : Byte) (cnt : Cnt) (answers : List SinkAnswer) : State :=
  { pass .enc acc cnt [] with sink := ⟨[], ⟨answers, 0⟩⟩ }

/-- A decode pass whose source gives the answers `answers`. -/
def decPass (acc : Byte) (cnt : Cnt) (bytes : List Byte) (answers : List SourceAnswer) : State :=
  { pass .dec acc cnt bytes with source := ⟨bytes, ⟨answers, 0⟩⟩ }

/-- A pass that has failed. -/
def failedPass (m : Mode) : State := { pass m 0 0 [] with failed := true }

/-- A decode pass that has met the end of its source. -/
def endedPass : State := { pass .dec 0 0 [] with eos := true }

/-- A state of a core built with `DEC_MAX_W` = 12. -/
def short (s : State) : State := { s with decMaxW := 12 }

/-- A state with these actions of the host to come. -/
def doing (h : List HostAction) (s : State) : State := s.setHost h

/-! ### Well-formedness (R64) -/

theorem test_illformed_append_zero : WellFormed (.append 0 0x2C) = false := by decide
theorem test_illformed_append_33 : WellFormed (.append 33 0) = false := by decide
theorem test_wellformed_append_ends : WellFormed (.append 1 0) = true ∧ WellFormed (.append 32 0) = true := by decide

/-! ### Decoding (R60, R63, R64): words written field by field, op, rsv, len, data -/

theorem test_decode_startEnc : decode (0b0001#4 ++ 0b000000#6 ++ 0b000000#6 ++ 0x00000000#32) = .ok .startEnc := by decide
theorem test_decode_startDec : decode (0b0010#4 ++ 0b000000#6 ++ 0b000000#6 ++ 0x00000000#32) = .ok .startDec := by decide
theorem test_decode_append :
    decode (0b0011#4 ++ 0b000000#6 ++ 0b001011#6 ++ 0x0000056C#32) = .ok (.append 11 0x56C) := by decide
theorem test_decode_flush : decode (0b0100#4 ++ 0b000000#6 ++ 0b000000#6 ++ 0x00000000#32) = .ok .flush := by decide
theorem test_decode_next : decode (0b0101#4 ++ 0b000000#6 ++ 0b000000#6 ++ 0x00000000#32) = .ok .next := by decide
theorem test_decode_end : decode (0b0110#4 ++ 0b000000#6 ++ 0b000000#6 ++ 0x00000000#32) = .ok .endPass := by decide
theorem test_decode_codeOf :
    decode (0b0111#4 ++ 0b000000#6 ++ 0b000000#6 ++ 0x0000005A#32) = .ok (.codeOf 0x5A) := by decide
theorem test_decode_bitlenOf :
    decode (0b1000#4 ++ 0b000000#6 ++ 0b000000#6 ++ 0x00000020#32) = .ok (.bitlenOf 0x20) := by decide
theorem test_decode_symbolOf :
    decode (0b1001#4 ++ 0b000000#6 ++ 0b111111#6 ++ 0xFFFFFFFF#32) = .ok (.symbolOf 63 0xFFFFFFFF) := by decide
theorem test_decode_status : decode (0b1010#4 ++ 0b000000#6 ++ 0b000000#6 ++ 0x00000000#32) = .ok .status := by decide
/-- R65: the reserved opcodes. -/
theorem test_decode_reserved :
    decode 0x000000000000 = .error .reservedOpcode ∧ decode 0xB00000000000 = .error .reservedOpcode ∧
    decode 0xF00000000000 = .error .reservedOpcode := by decide
/-- R66: a nonzero `rsv`, a stray `len`, stray `data`, and `data[31:8]` of a symbol lookup. -/
theorem test_decode_stray_fields :
    decode 0x304600000000 = .error .reservedField ∧ decode 0x500100000000 = .error .strayLen ∧
    decode 0x400000000001 = .error .strayData ∧ decode 0x700000000141 = .error .strayData := by decide
theorem test_table_word : decodeTableWord 48 0x30060000002C = some (.append 6 0x2C) := by decide

/-! ### One command (expected results: 95_test_vectors.md and the examples of the rules) -/

/-- R150: after reset, START_ENC returns OK; STATUS would read 0x00001000. -/
theorem test_startEnc : (nextOf (exec .startEnc State.reset)).map (fun t => (t.rsp, statusWord t)) =
    some (some 0x000000000000, 0x00001000) := by decide
/-- R150: a second START_ENC is WRONG_MODE. -/
theorem test_startEnc_again : rspOf (exec .startEnc (pass .enc 0x2C 6 [])) = some 0x800000000000 := by decide
/-- R151: after reset, START_DEC returns OK; STATUS would read 0x00002000. -/
theorem test_startDec : (nextOf (exec .startDec State.reset)).map (fun t => (t.rsp, statusWord t)) =
    some (some 0x000000000000, 0x00002000) := by decide
/-- R100: APPEND 0x2C, 6 from an empty buffer. -/
theorem test_append_short : (nextOf (exec (.append 6 0x2C) (pass .enc 0 0 []))).map
    (fun t => (t.acc, t.cnt, t.sink.bytes, t.rsp)) = some (0x2C, 6, [], some 0x000000000000) := by decide
/-- R100: then APPEND 0x56C, 11 emits 0xB2 and 0xB6 and leaves acc = 0, cnt = 1. -/
theorem test_append_across_bytes : (nextOf (exec (.append 11 0x56C) (pass .enc 0x2C 6 []))).map
    (fun t => (t.acc, t.cnt, t.sink.bytes)) = some (0x00, 1, [0xB2, 0xB6]) := by decide
/-- R102: acc = 0b101, cnt = 3 emits 0xA0. -/
theorem test_flush_pads : (nextOf (exec .flush (pass .enc 0b101 3 []))).map
    (fun t => (t.acc, t.cnt, t.sink.bytes)) = some (0x00, 0, [0xA0]) := by decide
/-- R102: an empty buffer emits nothing. -/
theorem test_flush_empty : (nextOf (exec .flush (pass .enc 0 0 []))).map
    (fun t => (t.sink.bytes, t.rsp)) = some ([], some 0x000000000000) := by decide
/-- R121: from a source of B2 B6 00 the first NEXT is CODEWORD(0x2C, 6), with the bits 10 of B2 left over. -/
theorem test_next_codeword : (nextOf (exec .next (pass .dec 0 0 [0xB2, 0xB6, 0x00]))).map
    (fun t => (t.rsp, t.acc, t.cnt, t.source.bytes)) = some (some 0x10060000002C, 0xB2, 2, [0xB6, 0x00]) := by decide
/-- R125: seven zero bits left over, then the end of the source: END_OF_STREAM. -/
theorem test_next_padding : (nextOf (exec .next (pass .dec 0x00 7 []))).map
    (fun t => (t.rsp, t.acc, t.cnt, t.eos)) = some (some 0x200000000000, 0x00, 0, true) := by decide
/-- R152: END with six pending bits discards them and writes no byte. -/
theorem test_end_discards : (nextOf (exec .endPass (pass .enc 0x2C 6 []))).map
    (fun t => (t.rsp, statusWord t, t.sink.bytes)) = some (some 0x000000000000, 0x00000000, []) := by decide
/-- R86: CODE_OF 'A'. -/
theorem test_codeOf : rspOf (exec (.codeOf 0x41) State.reset) = some 0x00060000002C := by decide
/-- R86: CODE_OF 'a' is UNKNOWN_SYMBOL. -/
theorem test_codeOf_unknown : rspOf (exec (.codeOf 0x61) State.reset) = some 0x400000000000 := by decide
/-- R87: BITLEN_OF newline. -/
theorem test_bitlenOf : rspOf (exec (.bitlenOf 0x0A) State.reset) = some 0x000B00000000 := by decide
/-- R88: SYMBOL_OF 0x56C, 11. -/
theorem test_symbolOf : rspOf (exec (.symbolOf 11 0x56C) State.reset) = some 0x00000000000A := by decide
/-- R88: SYMBOL_OF 0x2C, 7 is UNKNOWN_CODE. -/
theorem test_symbolOf_length : rspOf (exec (.symbolOf 7 0x2C) State.reset) = some 0x500000000000 := by decide
/-- R153: STATUS in ENC after APPEND 0x2C, 6. -/
theorem test_status : rspOf (exec .status (pass .enc 0x2C 6 [])) = some 0x00000000162C := by decide

/-- R201: the word placed for the next step is the first command after reset. -/
theorem test_first_step : rspOf (step (State.reset.withFetchWord 48 0x900B0000056C)) = some 0x00000000000A := by decide

/-- R187: a driver's round whose NEXT gives a symbol writes it; one whose NEXT is WRONG_MODE writes nothing (log entry 22). -/
theorem test_decoder_round :
    (nextOf (decodeSymbols 1 [] (pass .dec 0 0 [0xB2]))).map (fun r => r.1) = some (.unfinished, [0x41]) ∧
    (nextOf (decodeSymbols 1 [] (pass .enc 0 0 []))).map (fun r => r.1) = some (.unfinished, []) := by decide

/-! ### Witnesses: encoding and the whole machine -/

theorem witness_EncodeOfDecode :
    decode 0x90003FFFFFFF = .ok (.symbolOf 0 0x3FFFFFFF) ∧ decode 0x903FFFFFFFFF = .ok (.symbolOf 63 0xFFFFFFFF) := by decide
theorem witness_LegalFieldsAreWellFormed :
    FieldsLegal 0x300100000000 ∧ FieldsLegal 0x3020FFFFFFFF ∧ ¬ FieldsLegal 0x3000FFFFFFFF ∧ ¬ FieldsLegal 0x302100000000 ∧
    FieldsLegal 0x7000000000FF ∧ ¬ FieldsLegal 0x700000000100 ∧ FieldsLegal 0x903FFFFFFFFF ∧
    ¬ FieldsLegal 0x904000000000 ∧ FieldsLegal 0xA00000000000 ∧ ¬ FieldsLegal 0xB00000000000 :=
  ⟨by decide, by decide, by decide, by decide, by decide, by decide, by decide, by decide, by decide, by decide⟩
theorem witness_StepRunsTheCommand :
    (doing [.command 0xA00000000000, .reset] State.reset).host = .command 0xA00000000000 :: [.reset] ∧
    decode 0xA00000000000 = .ok .status ∧ decodeTableWord 48 0x903FFFFFFFFF = some (.symbolOf 63 0xFFFFFFFF) := by decide
theorem witness_IllegalWordsAreAnswered :
    ¬ FieldsLegal 0x302100000000 ∧ ¬ FieldsLegal 0x000000000000 ∧ ¬ FieldsLegal 0xFFFFFFFFFFFF := by decide
theorem witness_CoreIsIdleBetweenCommands :
    State.reset.host = [] ∧ (doing [.bindSink [0xB2]] State.reset).host = .bindSink [0xB2] :: [] ∧
    (doing [.bindSource []] State.reset).host = .bindSource [] :: [] := by decide
theorem witness_OneActionAStep :
    ∃ t, step (doing [.command 0x100000000000, .reset] State.reset) = .next t ∧ t.mode = .enc :=
  exists_next (by decide)
theorem witness_ResetBetweenCommands :
    (doing [.reset] (failedPass .enc)).host = .reset :: [] := by decide
/-- Reset after the first of an APPEND's three writes and of a NEXT's two pulls, and after the last of them. -/
theorem witness_ResetDuringACommand :
    (∃ t, runWord 0x3020FFFFFFFF { doing [.resetDuring 0x3020FFFFFFFF 1] (pass .enc 0 0 []) with host := [] } = .next t ∧
      0 + 1 < t.sink.oracle.draws) ∧
    (∃ t, runWord 0x500000000000 { doing [.resetDuring 0x500000000000 1] (pass .dec 0 0 [0xAD, 0x80]) with host := [] } =
      .next t ∧ 0 + 1 < t.source.oracle.draws) ∧
    (∃ t, runWord 0x3020FFFFFFFF { doing [.resetDuring 0x3020FFFFFFFF 3] (pass .enc 0 0 []) with host := [] } = .next t ∧
      t.sink.oracle.draws = 0 + 3 ∧ t.sink.bytes = [0xFF, 0xFF, 0xFF]) ∧
    (∃ t, runWord 0x500000000000 { doing [.resetDuring 0x500000000000 2] (pass .dec 0 0 [0xAD, 0x80]) with host := [] } =
      .next t ∧ t.source.oracle.draws = 0 + 2 ∧ t.source.bytes = []) :=
  ⟨exists_next (by decide), exists_next (by decide), exists_next (by decide), exists_next (by decide)⟩
/-- R200: a reset at the last of three writes keeps all three bytes, and one after the first keeps that one. -/
theorem test_reset_keeps_written_bytes :
    (nextOf (step (doing [.resetDuring 0x3020FFFFFFFF 3] (pass .enc 0 0 [])))).map (fun t => t.sink.bytes) =
      some [0xFF, 0xFF, 0xFF] ∧
    (nextOf (step (doing [.resetDuring 0x3020FFFFFFFF 1] (pass .enc 0 0 [])))).map (fun t => t.sink.bytes) = some [0xFF] := by
  decide
/-- An encode step that fills the buffer, a decode step, and a step out of reset. -/
theorem witness_StepKeepsInvariants :
    (Inv (doing [.command 0x300200000002] (pass .enc 0x3F 6 [])) ∧
      ∃ t, step (doing [.command 0x300200000002] (pass .enc 0x3F 6 [])) = .next t ∧ t.cnt = 8) ∧
    (Inv (doing [.command 0x500000000000] (pass .dec 0xFF 7 [0x80])) ∧
      ∃ t, step (doing [.command 0x500000000000] (pass .dec 0xFF 7 [0x80])) = .next t ∧ t.cnt = 5) ∧
    (Inv State.reset ∧ ∃ t, step State.reset = .next t ∧ t = State.reset) :=
  ⟨⟨by decide, exists_next (by decide)⟩, ⟨by decide, exists_next (by decide)⟩, ⟨by decide, exists_next (by decide)⟩⟩
theorem witness_EveryStepAnswers :
    ParamsLegal (doing [.command 0] State.reset) ∧ (doing [.command 0] State.reset).host = .command 0 :: [] ∧
    ParamsLegal (State.resetWith namedTable 12) := by decide
theorem witness_IllegalParametersAreRefused :
    tableLegal (State.resetWith [] 32).rom = false ∧
    ({ pass .dec 0 0 [] with decMaxW := 11 } : State).decMaxW < 12 ∧
    32 < ({ pass .dec 0 0 [] with decMaxW := 33 } : State).decMaxW ∧
    ({ pass .dec 0 0 [] with decMaxW := 33 } : State).mode = .dec ∧
    ({ pass .dec 0 0 [] with decMaxW := 33 } : State).failed = false := by decide
theorem witness_ParametersAreNeverWritten :
    ∃ t, step (doing [.command 0x500000000000] (pass .dec 0 0 [0x80])) = .next t ∧ t.rsp = some 0x100300000004 :=
  exists_next (by decide)
theorem witness_SinkBytesAreNeverRetracted :
    (∃ t, step (doing [.command 0x400000000000] (pass .enc 1 1 [])) = .next t ∧ t.sink.bytes = [0x80]) ∧
    ∀ bs rest, (doing [.command 0x400000000000] (pass .enc 1 1 [])).host ≠ .bindSink bs :: rest :=
  ⟨exists_next (by decide), fun _ _ h => nomatch h⟩
theorem witness_OnlyEndOrResetClearsFailed :
    (failedPass .enc).failed = true ∧ (failedPass .enc).mode ≠ .idle ∧
    (∃ t, step (doing [.command 0x600000000000] (failedPass .enc)) = .next t ∧ t.failed = false) ∧
    (∃ t, step (doing [.reset] (failedPass .dec)) = .next t ∧ t.failed = false) ∧
    (∃ t, step (doing [.resetDuring 0 0] (failedPass .dec)) = .next t ∧ t.failed = false) :=
  ⟨rfl, by decide, exists_next (by decide), exists_next (by decide), exists_next (by decide)⟩

/-! ### Witnesses: responses -/

theorem witness_ResponseFormat :
    (∃ t, exec (.append 0 0) State.reset = .next t ∧ t.rsp = some 0x700000000000) ∧
    (∃ t, exec .next (pass .dec 0 0 [0x80]) = .next t ∧ t.rsp = some 0x100300000004) ∧
    (∃ t, exec (.bitlenOf 0x41) State.reset = .next t ∧ t.rsp = some 0x000600000000) ∧
    (∃ t, exec (.symbolOf 6 0x2C) State.reset = .next t ∧ t.rsp = some 0x000000000041) ∧
    (∃ t, exec .status (pass .dec 0xFF 1 []) = .next t ∧ t.rsp = some 0x0000000021FF) :=
  ⟨exists_next (by decide), exists_next (by decide), exists_next (by decide), exists_next (by decide),
   exists_next (by decide)⟩
/-- Every status of R170 is returned by some command. -/
theorem witness_StatusesByCommand :
    rspOf (exec .flush (pass .enc 0 0 [])) = some 0x000000000000 ∧
    rspOf (exec .next (pass .dec 0 0 [0x80])) = some 0x100300000004 ∧
    rspOf (exec .next (pass .dec 0 0 [])) = some 0x200000000000 ∧
    rspOf (exec .next (pass .dec 0 0 [0x00])) = some 0x300000000000 ∧
    rspOf (exec (.bitlenOf 0x0D) State.reset) = some 0x400000000000 ∧
    rspOf (exec (.symbolOf 2 0) State.reset) = some 0x500000000000 ∧
    rspOf (exec .flush (encPass 1 1 [.errDropped])) = some 0x600000000000 ∧
    rspOf (exec (.append 33 0) (pass .enc 0 0 [])) = some 0x700000000000 ∧
    rspOf (exec .next State.reset) = some 0x800000000000 ∧
    rspOf (exec (.append 1 1) (failedPass .enc)) = some 0x900000000000 := by decide
theorem witness_ErrorAnswersChangeNothing :
    (∃ t, exec (.append 0 0) (pass .enc 1 1 []) = .next t ∧ t.rsp = some 0x700000000000) ∧
    (∃ t, exec .flush (pass .dec 1 1 []) = .next t ∧ t.rsp = some 0x800000000000) ∧
    (∃ t, exec .next (failedPass .dec) = .next t ∧ t.rsp = some 0x900000000000) ∧
    (∃ t, exec (.codeOf 0x00) (pass .enc 1 1 []) = .next t ∧ t.rsp = some 0x400000000000) ∧
    (∃ t, exec (.symbolOf 63 0) (pass .enc 1 1 []) = .next t ∧ t.rsp = some 0x500000000000) :=
  ⟨exists_next (by decide), exists_next (by decide), exists_next (by decide), exists_next (by decide),
   exists_next (by decide)⟩
/-- A truncated codeword (which also sets `eos`), and a refused write. -/
theorem witness_FatalOutcomes :
    (∃ t, exec .next (pass .dec 0 0 [0xAA]) = .next t ∧ t.rsp = some 0x300000000000 ∧ t.failed = true ∧ t.eos = true) ∧
    (∃ t, exec .flush (encPass 1 1 [.errStored]) = .next t ∧ t.rsp = some 0x600000000000 ∧ t.failed = true) :=
  ⟨exists_next (by decide), exists_next (by decide)⟩
theorem witness_ChecksBeforeExecution :
    (0 : LenField).toNat = 0 ∧ 32 < (33 : LenField).toNat ∧ 1 ≤ (1 : LenField).toNat ∧ (32 : LenField).toNat ≤ 32 ∧
    State.reset.mode ≠ .enc ∧ State.reset.mode ≠ .dec ∧ (failedPass .enc).mode = .enc ∧ (failedPass .enc).failed = true ∧
    (failedPass .dec).mode = .dec ∧ (failedPass .dec).failed = true ∧ (failedPass .dec).mode ≠ .idle := by decide

/-! ### Witnesses: pass control -/

theorem witness_StartEncOpensAPass :
    State.reset.mode = .idle ∧ (failedPass .enc).mode ≠ .idle ∧
    fieldOf 0x100000000001 44 4 = 1 ∧ (0x100000000001 : CmdWord) ≠ 0x100000000000 := by decide
theorem witness_StartDecOpensAPass :
    State.reset.mode = .idle ∧ (failedPass .dec).mode ≠ .idle ∧
    fieldOf 0x204000000000 44 4 = 2 ∧ (0x204000000000 : CmdWord) ≠ 0x200000000000 := by decide
theorem witness_EndClosesThePass :
    fieldOf 0x600100000000 44 4 = 6 ∧ (0x600100000000 : CmdWord) ≠ 0x600000000000 := by decide
theorem witness_StatusReadsTheState :
    fieldOf 0xA00080000000 44 4 = 10 ∧ (0xA00080000000 : CmdWord) ≠ 0xA00000000000 := by decide
theorem witness_PassLifecycle :
    (∃ t, exec .startEnc State.reset = .next t ∧ t.mode = .enc) ∧
    (∃ t, exec .startDec State.reset = .next t ∧ t.mode = .dec) ∧
    (∃ t, exec (.append 1 1) (encPass 0xFF 8 [.errDropped]) = .next t ∧ t.failed = true) ∧
    (∃ t, exec .next (decPass 0 0 [0x80] [.err]) = .next t ∧ t.failed = true) ∧
    (∃ t, exec .endPass (failedPass .dec) = .next t ∧ t.mode = .idle) ∧
    (OnlyReads .status ∧ ∃ t, exec .status State.reset = .next t ∧ t.rsp = some 0) ∧
    (∃ t, exec .startEnc (pass .dec 1 1 []) = .next t ∧ t.rsp = some 0x800000000000) ∧
    (WellFormed (.append 32 0) = true ∧ ∃ t, exec (.append 32 0) State.reset = .next t ∧ t.rsp = some 0x800000000000) ∧
    (∃ t, exec .next (pass .enc 1 1 []) = .next t ∧ t.rsp = some 0x800000000000) :=
  ⟨exists_next (by decide), exists_next (by decide), exists_next (by decide), exists_next (by decide),
   exists_next (by decide), ⟨.inr (.inr (.inr rfl)), exists_next (by decide)⟩, exists_next (by decide),
   ⟨by decide, exists_next (by decide)⟩, exists_next (by decide)⟩
theorem witness_EosIsFinalForThePass :
    (endedPass.eos = true ∧ ∃ t, exec .endPass endedPass = .next t ∧ t.eos = false) ∧
    ((pass .dec 0 0 []).eos = false ∧ ∃ t, exec .next (pass .dec 0 0 []) = .next t ∧ t.eos = true) ∧
    (endedPass.cnt = 0 ∧ ∃ t, exec .next endedPass = .next t ∧ t.rsp = some 0x200000000000) :=
  ⟨⟨rfl, exists_next (by decide)⟩, ⟨rfl, exists_next (by decide)⟩, ⟨rfl, exists_next (by decide)⟩⟩
theorem witness_StreamsAreSeparate :
    (∃ t, exec .flush (pass .enc 1 1 []) = .next t ∧ t.sink ≠ (pass .enc 1 1 []).sink) ∧
    (∃ t, exec .next (pass .dec 0 0 [0x80]) = .next t ∧ t.source ≠ (pass .dec 0 0 [0x80]).source) :=
  ⟨exists_next (by decide), exists_next (by decide)⟩

/-! ### Witnesses: symbol table -/

theorem witness_CodeOfLooksUp :
    tableLegal State.reset.rom = true ∧ InAlphabet 0x0A ∧ InAlphabet 0x20 ∧ InAlphabet 0x41 ∧ InAlphabet 0x5A ∧
    (⟨0x41, 0x2C, 6⟩ : RomEntry) ∈ State.reset.rom ∧
    ¬ InAlphabet 0x00 ∧ ¬ InAlphabet 0x40 ∧ ¬ InAlphabet 0x5B ∧ ¬ InAlphabet 0xFF ∧
    fieldOf 0x700000000141 44 4 = 7 ∧ fieldOf 0x700000000141 8 36 ≠ 0 := by decide
theorem witness_BitlenOfLooksUp :
    tableLegal State.reset.rom = true ∧ (⟨0x0A, 0x56C, 11⟩ : RomEntry) ∈ State.reset.rom ∧ ¬ InAlphabet 0x0D ∧
    fieldOf 0x804000000041 44 4 = 8 ∧ fieldOf 0x804000000041 8 36 ≠ 0 := by decide
theorem witness_SymbolOfLooksUp :
    tableLegal State.reset.rom = true ∧ (⟨0x41, 0x2C, 6⟩ : RomEntry) ∈ State.reset.rom ∧
    (∀ e ∈ State.reset.rom, ¬ (e.val.toNat = 0x2C ∧ e.len.toNat = 7)) ∧
    (2 : LenField).toNat < 3 ∧ 12 < (13 : LenField).toNat ∧
    2 ^ (6 : LenField).toNat ≤ (0x6C : DataField).toNat ∧
    fieldOf 0x90460000002C 44 4 = 9 ∧ fieldOf 0x90460000002C 38 6 ≠ 0 := by decide
theorem witness_KnownCodewords : tableLegal State.reset.rom = true := by decide
theorem witness_LookupsAreInverse : tableLegal State.reset.rom = true ∧ InAlphabet 0x5A := by decide
theorem witness_LookupsAreLegalEverywhere :
    OnlyReads (.codeOf 0xFF) ∧ Instr.codeOf 0xFF ≠ .status ∧ tableLegal (failedPass .dec).rom = true ∧
    (failedPass .dec).rom = State.reset.rom :=
  ⟨.inl ⟨_, rfl⟩, by decide, by decide, rfl⟩
theorem witness_CodewordsAreSelfDelimiting :
    tableLegal namedTable = true ∧ (⟨0x20, 0x4, 3⟩ : RomEntry) ∈ namedTable ∧ (⟨0x42, 0xC, 4⟩ : RomEntry) ∈ namedTable ∧
    (⟨0x0A, 0x56C, 11⟩ : RomEntry) ∈ namedTable := by decide

/-! ### Witnesses: write path -/

/-- The longest APPEND onto a full byte, and the shortest onto an empty buffer. -/
theorem witness_AppendEffect :
    (CanWrite (pass .enc 0xFF 8 []) ∧ (pass .enc 0xFF 8 []).acc.toNat < 2 ^ (pass .enc 0xFF 8 []).cnt.val ∧
      (32 : LenField).toNat ≤ 32 ∧ SinkOk ((8 + 32 - 1) / 8) (pass .enc 0xFF 8 [])) ∧
    (CanWrite (pass .enc 0 0 []) ∧ (pass .enc 0 0 []).acc.toNat < 2 ^ (pass .enc 0 0 []).cnt.val ∧
      1 ≤ (1 : LenField).toNat ∧ SinkOk ((0 + 1 - 1) / 8) (pass .enc 0 0 [])) := by decide
/-- The first write is refused, and the last of four. -/
theorem witness_AppendSinkError :
    (CanWrite (encPass 0xFF 8 [.errStored]) ∧ 0 < (8 + 1 - 1) / 8 ∧ SinkOk 0 (encPass 0xFF 8 [.errStored]) ∧
      sinkAnswerAt (encPass 0xFF 8 [.errStored]).sink 0 ≠ .ok) ∧
    (CanWrite (encPass 0xFF 8 [.ok, .ok, .ok, .errDropped]) ∧ 3 < (8 + 32 - 1) / 8 ∧
      SinkOk 3 (encPass 0xFF 8 [.ok, .ok, .ok, .errDropped]) ∧
      sinkAnswerAt (encPass 0xFF 8 [.ok, .ok, .ok, .errDropped]).sink 3 ≠ .ok) := by decide
theorem witness_AppendIgnoresHighBits :
    (0x2C : DataField).toNat % 2 ^ (6 : LenField).toNat = (0xFFFFFFEC : DataField).toNat % 2 ^ (6 : LenField).toNat := by decide
theorem witness_FlushEffect :
    (CanWrite (pass .enc 0 0 []) ∧ (pass .enc 0 0 []).cnt = 0) ∧
    (CanWrite (encPass 1 1 [.ok]) ∧ (encPass 1 1 [.ok]).cnt ≠ 0 ∧ sinkAnswerAt (encPass 1 1 [.ok]).sink 0 = .ok) ∧
    (CanWrite (encPass 0xFF 8 [.errStored]) ∧ (encPass 0xFF 8 [.errStored]).cnt ≠ 0 ∧
      sinkAnswerAt (encPass 0xFF 8 [.errStored]).sink 0 = .errStored) ∧
    (CanWrite (encPass 0 7 [.errDropped]) ∧ (encPass 0 7 [.errDropped]).cnt ≠ 0 ∧
      sinkAnswerAt (encPass 0 7 [.errDropped]).sink 0 = .errDropped) ∧
    (fieldOf 0x400000000001 44 4 = 4 ∧ (0x400000000001 : CmdWord) ≠ 0x400000000000) ∧
    (State.reset.mode ≠ .enc ∧ (failedPass .enc).mode = .enc ∧ (failedPass .enc).failed = true) := by decide
/-- The spec's example of two codewords (V-L1-1). -/
def twoCodes : List (LenField × DataField) := [(6, 0x2C), (11, 0x56C)]
/-- No APPEND at all, and two of them. -/
theorem witness_PackingLaw :
    (pass .idle 0 0 []).mode = .idle ∧ SinkOk ((0 + 7) / 8) (pass .idle 0 0 []) ∧
    (∀ c ∈ twoCodes, 1 ≤ c.1.toNat ∧ c.1.toNat ≤ 32) ∧
    SinkOk (((twoCodes.map fun c => c.1.toNat).sum + 7) / 8) (pass .idle 0 0 []) :=
  ⟨rfl, by decide, by simp [twoCodes], by decide⟩

/-! ### Witnesses: read path -/

/-- `101100` from a leftover bit and a pulled byte, and twelve bits with `DEC_MAX_W` = 12. -/
theorem witness_NextReturnsTheCodeword :
    (CanRead (pass .dec 0x01 1 [0x60]) ∧ (pass .dec 0x01 1 [0x60]).eos = false ∧ 6 ≤ 32 ∧ Framed [true, false, true, true, false, false] ∧
      unreadBits (pass .dec 0x01 1 [0x60]) = [true, false, true, true, false, false] ++ [false, false, false] ∧
      SourceOk (pullsFor 6 1) (pass .dec 0x01 1 [0x60])) ∧
    (CanRead (short (pass .dec 0 0 [0xFF, 0xC0])) ∧ (short (pass .dec 0 0 [0xFF, 0xC0])).eos = false ∧
      (List.replicate 10 true ++ [false, false]).length ≤ (short (pass .dec 0 0 [0xFF, 0xC0])).decMaxW ∧
      Framed (List.replicate 10 true ++ [false, false]) ∧
      unreadBits (short (pass .dec 0 0 [0xFF, 0xC0])) =
        (List.replicate 10 true ++ [false, false]) ++ List.replicate 4 false ∧
      SourceOk (pullsFor 12 0) (short (pass .dec 0 0 [0xFF, 0xC0]))) := by decide
theorem witness_CodewordShape :
    ∃ t, exec .next (pass .dec 0 0 [0x80]) = .next t ∧ t.rsp = some 0x100300000004 ∧
      rspStatusBits 0x100300000004 = 0x1 := exists_next (by decide)
theorem witness_NoBitLostOrDuplicated :
    ∃ t, exec .next (pass .dec 0x01 1 [0x60]) = .next t ∧ t.rsp = some 0x10060000002C ∧
      rspStatusBits 0x10060000002C = 0x1 := exists_next (by decide)
theorem witness_StateAfterNext :
    (CanRead (pass .dec 0 0 [0x80]) ∧ ∃ t, exec .next (pass .dec 0 0 [0x80]) = .next t ∧ t.rsp = some 0x100300000004) ∧
    (CanRead (pass .dec 0 0 []) ∧ ∃ t, exec .next (pass .dec 0 0 []) = .next t ∧ t.rsp = some 0x200000000000) ∧
    (CanRead (pass .dec 0 0 [0x00]) ∧ ∃ t, exec .next (pass .dec 0 0 [0x00]) = .next t ∧ t.rsp = some 0x300000000000) ∧
    (CanRead (decPass 0 0 [] [.err]) ∧ ∃ t, exec .next (decPass 0 0 [] [.err]) = .next t ∧ t.rsp = some 0x600000000000) :=
  ⟨⟨by decide, exists_next (by decide)⟩, ⟨by decide, exists_next (by decide)⟩, ⟨by decide, exists_next (by decide)⟩,
   ⟨by decide, exists_next (by decide)⟩⟩
theorem witness_NextFrame :
    ∃ t, exec .next (pass .dec 0 0 [0xFF, 0x00]) = .next t ∧ t.source.bytes = [] := exists_next (by decide)
theorem witness_NextAtTheEnd :
    (CanRead endedPass ∧ endedPass.cnt = 0 ∧ endedPass.eos = true) ∧
    (CanRead (pass .dec 0xB6 0 []) ∧ (pass .dec 0xB6 0 []).cnt = 0 ∧ (pass .dec 0xB6 0 []).eos = false ∧
      (pass .dec 0xB6 0 []).source.bytes = [] ∧ sourceAnswerAt (pass .dec 0xB6 0 []).source 0 = .ok) := by decide
theorem witness_EndOfStreamRepeats :
    ∃ t, exec .next (pass .dec 0x80 5 []) = .next t ∧ t.rsp = some 0x200000000000 := exists_next (by decide)
theorem witness_PaddingRule :
    (CanRead (pass .dec 0x04 1 []) ∧ 1 ≤ (pass .dec 0x04 1 []).cnt.val ∧ (∀ b ∈ heldBits (pass .dec 0x04 1 []), b = false) ∧
      sourceAnswerAt (pass .dec 0x04 1 []).source 0 = .ok ∧ (pass .dec 0x04 1 []).source.bytes = []) ∧
    (CanRead (pass .dec 0x80 7 [0x80]) ∧ (pass .dec 0x80 7 [0x80]).cnt.val ≤ 7 ∧
      (∀ b ∈ heldBits (pass .dec 0x80 7 [0x80]), b = false) ∧ sourceAnswerAt (pass .dec 0x80 7 [0x80]).source 0 = .ok ∧
      (pass .dec 0x80 7 [0x80]).source.bytes = 0x80 :: []) ∧
    (CanRead (decPass 0x80 7 [] [.err]) ∧ (∀ b ∈ heldBits (decPass 0x80 7 [] [.err]), b = false) ∧
      sourceAnswerAt (decPass 0x80 7 [] [.err]).source 0 = .err) := by decide
theorem witness_LeadingZeroRule :
    (CanRead (pass .dec 0x01 2 []) ∧ (heldBits (pass .dec 0x01 2 [])).head? = some false ∧
      ∃ b ∈ heldBits (pass .dec 0x01 2 []), b = true) ∧
    (CanRead (pass .dec 0x00 8 []) ∧ (heldBits (pass .dec 0x00 8 [])).head? = some false ∧ (pass .dec 0x00 8 []).cnt.val = 8) ∧
    (CanRead (pass .dec 0 0 [0x7F]) ∧ (pass .dec 0 0 [0x7F]).cnt = 0 ∧ (pass .dec 0 0 [0x7F]).eos = false ∧
      sourceAnswerAt (pass .dec 0 0 [0x7F]).source 0 = .ok ∧ (pass .dec 0 0 [0x7F]).source.bytes = 0x7F :: [] ∧
      (0x7F : Byte).getLsbD 7 = false) := by decide
/-- A `00` can stand only below the last bit of a sequence. -/
theorem no_zerosAt (bits : List Bool) (h : ∀ j < bits.length, ¬ ZerosAt bits j) : ∀ j, ¬ ZerosAt bits j := fun j hj =>
  h j (List.getElem?_eq_some_iff.1 hj.1).1 hj
/-- One leftover bit and no more, and eleven bits with `DEC_MAX_W` = 12. -/
theorem witness_TruncatedCodeword :
    (CanRead (pass .dec 1 1 []) ∧ (pass .dec 1 1 []).eos = false ∧ (unreadBits (pass .dec 1 1 [])).head? = some true ∧
      (∀ j, ¬ ZerosAt (unreadBits (pass .dec 1 1 [])) j) ∧ (unreadBits (pass .dec 1 1 [])).length < 32 ∧
      SourceOk (0 + 1) (pass .dec 1 1 [])) ∧
    (CanRead (short (pass .dec 0x07 3 [0xAA])) ∧ (short (pass .dec 0x07 3 [0xAA])).eos = false ∧
      (unreadBits (short (pass .dec 0x07 3 [0xAA]))).head? = some true ∧
      (∀ j, ¬ ZerosAt (unreadBits (short (pass .dec 0x07 3 [0xAA]))) j) ∧
      (unreadBits (short (pass .dec 0x07 3 [0xAA]))).length < 12 ∧ SourceOk (1 + 1) (short (pass .dec 0x07 3 [0xAA]))) :=
  ⟨⟨by decide, rfl, by decide, no_zerosAt _ (by decide), by decide, by decide⟩,
   ⟨by decide, rfl, by decide, no_zerosAt _ (by decide), by decide, by decide⟩⟩
/-- Exactly twelve bits with `DEC_MAX_W` = 12. -/
theorem witness_OverlongCodeword :
    CanRead (short (pass .dec 0x0F 4 [0xAA])) ∧ (short (pass .dec 0x0F 4 [0xAA])).eos = false ∧
    (unreadBits (short (pass .dec 0x0F 4 [0xAA]))).head? = some true ∧
    12 ≤ (unreadBits (short (pass .dec 0x0F 4 [0xAA]))).length ∧
    (∀ j, j + 1 < 12 → ¬ ZerosAt (unreadBits (short (pass .dec 0x0F 4 [0xAA]))) j) ∧
    SourceOk (pullsFor 12 4) (short (pass .dec 0x0F 4 [0xAA])) :=
  ⟨by decide, rfl, by decide, by decide, fun j _ => no_zerosAt _ (by decide) j, by decide⟩
/-- The first pull is refused, and the second after eight bits that settle nothing. -/
theorem witness_NextSourceError :
    (CanRead (decPass 0 0 [] [.err]) ∧ (decPass 0 0 [] [.err]).eos = false ∧ (decPass 0 0 [] [.err]).cnt = 0 ∧ SourceOk 0 (decPass 0 0 [] [.err]) ∧
      sourceAnswerAt (decPass 0 0 [] [.err]).source 0 = .err) ∧
    (CanRead (decPass 0 0 [0xB6] [.ok, .err]) ∧ (decPass 0 0 [0xB6] [.ok, .err]).eos = false ∧
      1 ≤ (decPass 0 0 [0xB6] [.ok, .err]).source.bytes.length ∧
      SourceOk 1 (decPass 0 0 [0xB6] [.ok, .err]) ∧ sourceAnswerAt (decPass 0 0 [0xB6] [.ok, .err]).source 1 = .err ∧
      (heldBits (decPass 0 0 [0xB6] [.ok, .err]) ++ streamBits [0xB6]).head? = some true ∧
      (∀ j, ¬ ZerosAt (heldBits (decPass 0 0 [0xB6] [.ok, .err]) ++ streamBits [0xB6]) j) ∧
      (heldBits (decPass 0 0 [0xB6] [.ok, .err]) ++ streamBits [0xB6]).length < 32) :=
  ⟨by decide, ⟨by decide, rfl, by decide, by decide, by decide, by decide, no_zerosAt _ (by decide), by decide⟩⟩
theorem witness_DeviceCallsAreBounded :
    (∃ t, exec (.append 32 0) (pass .enc 0xFF 8 []) = .next t ∧ t.sink.oracle.draws = 4) ∧
    (∃ t, exec .flush (pass .enc 0xFF 8 []) = .next t ∧ t.sink.oracle.draws = 1) ∧
    (∃ t, exec .next (pass .dec 0 0 [0xFF, 0xFF, 0xFF]) = .next t ∧ t.source.oracle.draws = 4) ∧
    (CanRead (pass .dec 0 7 []) ∧ (∀ b ∈ heldBits (pass .dec 0 7 []), b = false) ∧
      ∃ t, exec .next (pass .dec 0 7 []) = .next t ∧ t.source.oracle.draws = 1) :=
  ⟨exists_next (by decide), exists_next (by decide), exists_next (by decide),
   ⟨by decide, by decide, exists_next (by decide)⟩⟩
/-- The spec's own text, 'A' and newline (V-L1-1, V-L1-2), and the bytes it encodes to. -/
theorem witness_RoundTrip :
    ((pass .idle 0 0 []).mode = .idle ∧ tableLegal (pass .idle 0 0 []).rom = true ∧
      (∀ c ∈ [(0x41 : Byte), 0x0A], InAlphabet c) ∧ SinkOk (2 * 2) (pass .idle 0 0 [])) ∧
    (∃ r, encodeDriver [0x41, 0x0A] (pass .idle 0 0 []) = .next r ∧ r.1 = .done ∧ r.2.sink.bytes = [0xB2, 0xB6, 0x00]) ∧
    ((pass .idle 0 0 [0xB2, 0xB6, 0x00]).mode = .idle ∧ (pass .idle 0 0 [0xB2, 0xB6, 0x00]).rom = (pass .idle 0 0 []).rom ∧
      decMaxWLegal (pass .idle 0 0 [0xB2, 0xB6, 0x00]).decMaxW = true ∧
      (pass .idle 0 0 [0xB2, 0xB6, 0x00]).source.bytes = [0xB2, 0xB6, 0x00] ∧
      SourceOk (3 + 1) (pass .idle 0 0 [0xB2, 0xB6, 0x00]) ∧ [(0x41 : Byte), 0x0A].length < 3) :=
  ⟨by decide, exists_next (by decide), by decide⟩

end Sys2Proof.Tests
end

section
/-! What one step of the machine does with a command word (spec/00_scope.md R6, spec/20_memory.md R50). -/

namespace Sys2Proof.Machine

/-- A word that decodes has the command's meaning (R65). -/
theorem runWord_of_decode {w : CmdWord} {i : Instr} (h : decode w = .ok i) (s : State) : runWord w s = exec i s := by
  simp only [runWord, h]

/-- A command word at the head of the host's list is taken off it and run (R6, R203). -/
theorem step_of_host_command {s : State} {w : CmdWord} {rest : List HostAction} (h : s.host = .command w :: rest) :
    step s = runWord w (s.setHost rest) := by
  simp only [step, hostTurn, h]

/-- A row of the opcode table is decoded as the command word its low `nbits` bits make (R60). -/
theorem decodeTableWord_eq_some_iff {nbits w : Nat} {i : Instr} :
    decodeTableWord nbits w = some i ↔ decode (BitVec.ofNat 48 (w % 2 ^ nbits)) = .ok i := by
  unfold decodeTableWord
  cases decode (BitVec.ofNat 48 (w % 2 ^ nbits)) <;> simp

/-- The step after a word is placed runs that word on the state it was placed in: the host's list is restored. -/
theorem step_withFetchWord (s : State) (nbits w : Nat) :
    step (s.withFetchWord nbits w) = runWord (BitVec.ofNat 48 (w % 2 ^ nbits)) s :=
  step_of_host_command (s := s.withFetchWord nbits w) (rest := s.host) rfl

/-- Settles O5: the step takes the word off the host's list and runs it, and a word that decodes runs as its command. -/
theorem stepRunsTheCommand : Obligations.StepRunsTheCommand := by
  unfold Obligations.StepRunsTheCommand
  refine ⟨fun s w rest hhost => step_of_host_command hhost, fun s w rest i hhost hdec => ?_, fun s nbits w i htab => ?_⟩
  · exact (step_of_host_command hhost).trans (runWord_of_decode hdec _)
  · rw [step_withFetchWord, runWord_of_decode (decodeTableWord_eq_some_iff.1 htab)]

end Sys2Proof.Machine
end

section
/-! The state after reset (spec/10_state.md R32, R35). -/

namespace Sys2Proof.Machine

open Sys2Proof.Safety

/-- Settles O9: every register is written out in `resetWith`, and the model's reset state is `resetWith` at the named table. -/
theorem resetValues : Obligations.ResetValues :=
  ⟨fun _ _ => ⟨rfl, rfl, rfl, rfl, rfl, rfl⟩, namedTable, Config.decMaxWDefault, rfl⟩

/-- With legal parameters the state after reset meets the invariants: the buffer is empty and both flags are clear (R35). -/
theorem inv_resetWith {rom : List RomEntry} {n : Nat} (hrom : tableLegal rom = true) (hmax : decMaxWLegal n = true) :
    Inv (State.resetWith rom n) := by
  simpa [Safety.Inv, State.resetWith] using And.intro hrom hmax

/-- The named table meets R83 and R84 (notes/assumptions/1.md). -/
theorem tableLegal_namedTable : tableLegal namedTable = true := by decide

/-- Settles O12: the named table and the default `DEC_MAX_W` are legal, and the rest are the values of R32. -/
theorem invariantsHoldAtReset : Obligations.InvariantsHoldAtReset :=
  inv_resetWith tableLegal_namedTable (by decide)

end Sys2Proof.Machine
end

section
/-! Frames: what the write path and the read path leave alone (spec/20_memory.md R53, R55). Each loop is an induction over its
bits whose rounds compose by `trans`. -/

namespace Sys2Proof.Machine

/-- `t` differs from `s` by what APPEND and FLUSH may touch: the buffer, `failed`, the sink and the response (R55). -/
structure WriteFrame (s t : State) : Prop where
  eos : t.eos = s.eos
  mode : t.mode = s.mode
  rom : t.rom = s.rom
  decMaxW : t.decMaxW = s.decMaxW
  source : t.source = s.source
  host : t.host = s.host

/-- `t` differs from `s` by what NEXT may touch: the buffer, `failed`, the source, the response, and `eos`, which it may set and
does not clear (R25, R55). -/
structure ReadFrame (s t : State) : Prop where
  eos : s.eos = true → t.eos = true
  mode : t.mode = s.mode
  rom : t.rom = s.rom
  decMaxW : t.decMaxW = s.decMaxW
  sink : t.sink = s.sink
  host : t.host = s.host

theorem WriteFrame.trans {s t u : State} (h : WriteFrame s t) (k : WriteFrame t u) : WriteFrame s u :=
  ⟨k.eos.trans h.eos, k.mode.trans h.mode, k.rom.trans h.rom, k.decMaxW.trans h.decMaxW, k.source.trans h.source,
    k.host.trans h.host⟩

theorem ReadFrame.trans {s t u : State} (h : ReadFrame s t) (k : ReadFrame t u) : ReadFrame s u :=
  ⟨k.eos ∘ h.eos, k.mode.trans h.mode, k.rom.trans h.rom, k.decMaxW.trans h.decMaxW, k.sink.trans h.sink,
    k.host.trans h.host⟩

/-! ### The write path -/

theorem writeFrame_respond (st : Status) (l : LenField) (d : DataField) (s : State) : WriteFrame s (respond st l d s) :=
  ⟨rfl, rfl, rfl, rfl, rfl, rfl⟩

theorem writeFrame_fatal (f : FatalStatus) (s : State) : WriteFrame s (fatal f s) := ⟨rfl, rfl, rfl, rfl, rfl, rfl⟩

theorem writeFrame_emptyBuf (s : State) : WriteFrame s (emptyBuf s) := ⟨rfl, rfl, rfl, rfl, rfl, rfl⟩

theorem writeFrame_pushBit (b : Bool) (s : State) : WriteFrame s (pushBit b s) := ⟨rfl, rfl, rfl, rfl, rfl, rfl⟩

theorem writeFrame_setSink (s : State) (k : Sink) : WriteFrame s (s.setSink k) := ⟨rfl, rfl, rfl, rfl, rfl, rfl⟩

theorem writeFrame_emitFull {r : WriteReply} {s t : State} (h : emitFull s = (r, t)) : WriteFrame s t := by
  rcases emitFull_cases s with ⟨-, he⟩ | ⟨-, -, he⟩ | ⟨-, -, he⟩ | ⟨-, -, he⟩ <;> rw [he] at h <;> cases h
  · exact ⟨rfl, rfl, rfl, rfl, rfl, rfl⟩
  · exact (writeFrame_setSink s _).trans (writeFrame_emptyBuf _)
  · exact writeFrame_setSink s _
  · exact writeFrame_setSink s _

theorem writeFrame_appendBits (v : DataField) (n : Nat) (s : State) : WriteFrame s (appendBits v n s) := by
  induction n generalizing s with
  | zero => exact writeFrame_respond .ok 0 0 s
  | succ i ih =>
    rcases appendBits_succ v i s with ⟨t, he, hrun⟩ | ⟨t, he, hrun⟩ <;> rw [hrun]
    · exact ((writeFrame_emitFull he).trans (writeFrame_pushBit _ t)).trans (ih _)
    · exact (writeFrame_emitFull he).trans (writeFrame_fatal _ t)

theorem writeFrame_flushBuf (s : State) : WriteFrame s (flushBuf s) := by
  rcases flushBuf_cases s with ⟨-, hf⟩ | ⟨-, -, hf⟩ | ⟨-, -, hf⟩ | ⟨-, -, hf⟩ <;> rw [hf]
  · exact writeFrame_respond .ok 0 0 s
  · exact ((writeFrame_setSink s _).trans (writeFrame_emptyBuf _)).trans (writeFrame_respond _ _ _ _)
  · exact (writeFrame_setSink s _).trans (writeFrame_fatal _ _)
  · exact (writeFrame_setSink s _).trans (writeFrame_fatal _ _)

/-! ### The read path -/

theorem readFrame_respond (st : Status) (l : LenField) (d : DataField) (s : State) : ReadFrame s (respond st l d s) :=
  ⟨id, rfl, rfl, rfl, rfl, rfl⟩

theorem readFrame_fatal (f : FatalStatus) (s : State) : ReadFrame s (fatal f s) := ⟨id, rfl, rfl, rfl, rfl, rfl⟩

theorem readFrame_setBuf (s : State) (acc : Byte) (cnt : Cnt) : ReadFrame s (s.setBuf acc cnt) :=
  ⟨id, rfl, rfl, rfl, rfl, rfl⟩

theorem readFrame_setSource (s : State) (k : Source) : ReadFrame s (s.setSource k) := ⟨id, rfl, rfl, rfl, rfl, rfl⟩

theorem readFrame_setEos_true (s : State) : ReadFrame s (s.setEos true) := ⟨fun _ => rfl, rfl, rfl, rfl, rfl, rfl⟩

/-- The state that looking for the next bit leaves, whether or not it found one (R121). -/
def Refill.state : Refill → State
  | .ready s => s
  | .exhausted s => s
  | .err s => s

theorem readFrame_refill (s : State) : ReadFrame s (refill s).state := by
  rcases refill_cases s with ⟨-, hr⟩ | ⟨-, -, hr⟩ | ⟨-, -, -, hr⟩ | ⟨-, -, -, -, hr⟩ | ⟨b, bs, -, -, -, -, hr⟩ <;> rw [hr]
  · exact ⟨id, rfl, rfl, rfl, rfl, rfl⟩
  · exact ⟨id, rfl, rfl, rfl, rfl, rfl⟩
  · exact readFrame_setSource s _
  · exact (readFrame_setSource s _).trans (readFrame_setEos_true _)
  · exact (readFrame_setSource s _).trans (readFrame_setBuf _ b 8)

theorem refill_failed (s : State) : (refill s).state.failed = s.failed := by
  rcases refill_cases s with ⟨-, hr⟩ | ⟨-, -, hr⟩ | ⟨-, -, -, hr⟩ | ⟨-, -, -, -, hr⟩ | ⟨b, bs, -, -, -, -, hr⟩ <;>
    rw [hr] <;> rfl

theorem readFrame_exhausted (t : NextTemps) (s : State) : ReadFrame s (exhausted t s) := by
  rcases exhausted_cases t s with ⟨-, he⟩ | ⟨-, he⟩ <;> rw [he]
  · exact (readFrame_setBuf s 0 s.cnt).trans (readFrame_respond _ _ _ _)
  · exact readFrame_fatal _ s

theorem readFrame_unpack (n : Nat) (t : NextTemps) (s : State) : ReadFrame s (unpack n t s) := by
  induction n generalizing t s with
  | zero => exact readFrame_fatal .corruptStream s
  | succ n ih =>
    have hs := readFrame_refill s
    rcases unpack_succ n t s with ⟨s', hr, hrun⟩ | ⟨s', hr, hrun⟩ | ⟨s', hr, -, -, hrun⟩ | ⟨s', hr, -, -, hrun⟩ |
      ⟨s', hr, -, -, hrun⟩ <;> rw [hr] at hs <;> rw [hrun]
    · exact hs.trans (readFrame_fatal _ s')
    · exact hs.trans (readFrame_exhausted t s')
    · exact (hs.trans (readFrame_setBuf s' _ _)).trans (readFrame_fatal _ _)
    · exact (hs.trans (readFrame_setBuf s' _ _)).trans (readFrame_respond _ _ _ _)
    · exact (hs.trans (readFrame_setBuf s' _ _)).trans (ih _ _)

theorem readFrame_skipPadding (s : State) : ReadFrame s (skipPadding s) := by
  have hbuf : ReadFrame s (emptyBuf s) := readFrame_setBuf s 0 0
  rcases skipPadding_cases s with ⟨-, hp⟩ | ⟨-, -, hp⟩ | ⟨b, bs, -, -, hp⟩ <;> rw [hp]
  · exact (hbuf.trans (readFrame_setSource _ _)).trans (readFrame_fatal _ _)
  · exact ((hbuf.trans (readFrame_setSource _ _)).trans (readFrame_setEos_true _)).trans (readFrame_respond _ _ _ _)
  · exact (hbuf.trans (readFrame_setSource _ _)).trans (readFrame_fatal _ _)

/-- Once the source has ended and no leftover is held, NEXT's loop pulls nothing (R25). -/
theorem unpack_source_of_eos (n : Nat) (t : NextTemps) {s : State} (heos : s.eos = true) (hcnt : s.cnt = 0) :
    (unpack n t s).source = s.source := by
  have hr : refill s = .exhausted s := by simp [refill, hcnt, heos]
  cases n with
  | zero => rfl
  | succ n =>
    have hrun : unpack (n + 1) t s = exhausted t s := by simp [unpack, hr]
    rcases exhausted_cases t s with ⟨-, he⟩ | ⟨-, he⟩ <;> rw [hrun, he] <;> rfl

end Sys2Proof.Machine
end

section
/-! Everything one command can do: the single inversion of `exec` from which the statements about all commands follow. -/

namespace Sys2Proof.Machine

/-- `CommandEffect s i t`: where command `i` takes `s` to `t`, what was run. A command that only reads, or whose checks fail, puts
a response on the channel (R176); a pass command rebuilds the buffer; the others run their path's loop or procedure. -/
inductive CommandEffect (s : State) : Instr → State → Prop
  | report {i : Instr} (st : Status) (l : LenField) (d : DataField) : CommandEffect s i (respond st l d s)
  | startEnc : s.mode = .idle → CommandEffect s .startEnc (respond .ok 0 0 (setPass .enc s))
  | startDec : s.mode = .idle → CommandEffect s .startDec (respond .ok 0 0 (setPass .dec s))
  | endPass : CommandEffect s .endPass (respond .ok 0 0 (setPass .idle s))
  | append (len : LenField) (data : DataField) : s.mode = .enc → s.failed = false →
      CommandEffect s (.append len data) (appendBits data len.toNat s)
  | flush : s.mode = .enc → s.failed = false → CommandEffect s .flush (flushBuf s)
  | padding : s.mode = .dec → s.failed = false → onlyPadding s = true → CommandEffect s .next (skipPadding s)
  | unpack : s.mode = .dec → s.failed = false → onlyPadding s = false →
      CommandEffect s .next (unpack s.decMaxW freshTemps s)

theorem commandEffect_of_answer {i : Instr} {st : Status} {s t : State} (h : answer st s = .next t) :
    CommandEffect s i t := by
  cases h
  exact .report st 0 0

/-- Past the mode check, what remains is what the command runs in its mode (R64). -/
theorem commandEffect_of_inMode {i : Instr} {m : Mode} {run : State → Result} {s t : State} (h : inMode m run s = .next t)
    (hrun : s.mode = m → run s = .next t → CommandEffect s i t) : CommandEffect s i t := by
  rcases inMode_cases m run s with ⟨-, he⟩ | ⟨hm, he⟩ <;> rw [he] at h
  · exact commandEffect_of_answer h
  · exact hrun hm h

/-- Past the checks of an open pass, what remains is what the command runs in a pass that has not failed (R177). -/
theorem commandEffect_of_inPass {i : Instr} {m : Mode} {run : State → Result} {s t : State} (h : inPass m run s = .next t)
    (hrun : s.mode = m → s.failed = false → run s = .next t → CommandEffect s i t) : CommandEffect s i t := by
  rcases inPass_cases m run s with ⟨-, he⟩ | ⟨-, -, he⟩ | ⟨hm, hf, he⟩ <;> rw [he] at h
  · exact commandEffect_of_answer h
  · exact commandEffect_of_answer h
  · exact hrun hm hf h

/-- Past the table check, what remains is the lookup (R84). -/
theorem commandEffect_of_withTable {i : Instr} {run : State → Result} {s t : State} (h : withTable run s = .next t)
    (hrun : run s = .next t → CommandEffect s i t) : CommandEffect s i t := by
  rcases withTable_cases run s with ⟨-, he⟩ | ⟨-, he⟩ <;> rw [he] at h
  · exact hrun h
  · cases h

theorem commandEffect_of_startEnc {s t : State} (h : execStartEnc s = .next t) : CommandEffect s .startEnc t := by
  refine commandEffect_of_inMode h fun hm hrun => ?_
  cases hrun
  exact .startEnc hm

theorem commandEffect_of_startDec {s t : State} (h : execStartDec s = .next t) : CommandEffect s .startDec t := by
  refine commandEffect_of_inMode h fun hm hrun => ?_
  cases hrun
  exact .startDec hm

theorem commandEffect_of_append {len : LenField} {data : DataField} {s t : State} (h : execAppend len data s = .next t) :
    CommandEffect s (.append len data) t := by
  rcases ifWellFormed_cases (appendLenOk len) (inPass .enc fun s => .next (appendBits data len.toNat s)) s with
    ⟨-, he⟩ | ⟨-, he⟩ <;> rw [execAppend, he] at h
  · exact commandEffect_of_answer h
  · refine commandEffect_of_inPass h fun hm hf hrun => ?_
    cases hrun
    exact .append len data hm hf

theorem commandEffect_of_flush {s t : State} (h : execFlush s = .next t) : CommandEffect s .flush t := by
  refine commandEffect_of_inPass h fun hm hf hrun => ?_
  cases hrun
  exact .flush hm hf

theorem commandEffect_of_next {s t : State} (h : execNext s = .next t) : CommandEffect s .next t := by
  refine commandEffect_of_inPass h fun hm hf hrun => ?_
  rcases nextCodeword_cases s with ⟨-, he⟩ | ⟨-, hp, he⟩ | ⟨-, hp, he⟩ <;> rw [he] at hrun <;> cases hrun
  · exact .padding hm hf hp
  · exact .unpack hm hf hp

theorem commandEffect_of_codeOf {sym : Byte} {s t : State} (h : execCodeOf sym s = .next t) :
    CommandEffect s (.codeOf sym) t := by
  refine commandEffect_of_withTable h fun hrun => ?_
  rcases codeOf_cases s.rom sym with ⟨e, -, -, he⟩ | ⟨-, he⟩ <;> simp only [he] at hrun
  · cases hrun
    exact .report _ _ _
  · exact commandEffect_of_answer hrun

theorem commandEffect_of_bitlenOf {sym : Byte} {s t : State} (h : execBitlenOf sym s = .next t) :
    CommandEffect s (.bitlenOf sym) t := by
  refine commandEffect_of_withTable h fun hrun => ?_
  rcases codeOf_cases s.rom sym with ⟨e, -, -, he⟩ | ⟨-, he⟩ <;> simp only [he] at hrun
  · cases hrun
    exact .report _ _ _
  · exact commandEffect_of_answer hrun

theorem commandEffect_of_symbolOf {len : LenField} {data : DataField} {s t : State}
    (h : execSymbolOf len data s = .next t) : CommandEffect s (.symbolOf len data) t := by
  refine commandEffect_of_withTable h fun hrun => ?_
  rcases symOf_cases s.rom data len with ⟨e, -, -, he⟩ | ⟨-, he⟩ <;> simp only [he] at hrun
  · cases hrun
    exact .report _ _ _
  · exact commandEffect_of_answer hrun

/-- Every next state of a command is one of its effects (R64, R177). -/
theorem commandEffect_of_exec {i : Instr} {s t : State} (h : exec i s = .next t) : CommandEffect s i t := by
  cases i with
  | startEnc => exact commandEffect_of_startEnc h
  | startDec => exact commandEffect_of_startDec h
  | append len data => exact commandEffect_of_append h
  | flush => exact commandEffect_of_flush h
  | next => exact commandEffect_of_next h
  | endPass =>
    cases h
    exact .endPass
  | codeOf sym => exact commandEffect_of_codeOf h
  | bitlenOf sym => exact commandEffect_of_bitlenOf h
  | symbolOf len data => exact commandEffect_of_symbolOf h
  | status =>
    cases h
    exact .report _ _ _

end Sys2Proof.Machine
end

section
/-! Every step keeps the invariants of R35. Past its checks a loop runs in an open pass that has not failed, where the invariants
come down to one condition on the buffer: in ENC that nothing stands above `cnt`, in DEC that at most 7 bits are left over, and
none at the end of the stream. -/

namespace Sys2Proof.Machine

open Sys2Proof.Safety

/-- In an encode pass that has not failed, the invariants come down to I-3 and the legal parameters. -/
theorem inv_of_enc {s : State} (hm : s.mode = .enc) (hf : s.failed = false) (heos : s.eos = false)
    (hacc : s.acc.toNat < 2 ^ s.cnt.val) (hp : ParamsLegal s) : Inv s := by
  simpa [Safety.Inv, hm, hf, heos, hacc] using hp

/-- In a decode pass that has not failed, the invariants come down to I-5, the bound on the leftover and the legal parameters. -/
theorem inv_of_dec {s : State} (hm : s.mode = .dec) (hf : s.failed = false) (heos : EosEmpty s) (hleft : s.cnt.val ≤ 7)
    (hp : ParamsLegal s) : Inv s := by
  simpa [Safety.Inv, hm, hf, hleft] using And.intro heos hp

theorem paramsLegal_of_inv {s : State} (h : Inv s) : ParamsLegal s := by
  obtain ⟨-, -, -, -, -, hp⟩ := h
  exact hp

/-- A response is no part of the invariants. -/
theorem inv_respond {s : State} (st : Status) (l : LenField) (d : DataField) (h : Inv s) : Inv (respond st l d s) := h

/-- `raise Fatal` in an open pass keeps the invariants: the buffer it leaves is empty (R172). -/
theorem inv_fatal {s : State} (f : FatalStatus) (hm : s.mode ≠ .idle) (h : Inv s) : Inv (fatal f s) := by
  obtain ⟨-, henc, -, -, -, hp⟩ := h
  exact ⟨fun hi => absurd hi hm, fun he => ⟨(henc he).1, by simp⟩, fun _ => ⟨rfl, rfl⟩, fun _ => rfl,
    fun _ => by simp, hp⟩

/-- Opening or closing a pass sets up the invariants, whatever they were before (R33). -/
theorem inv_setPass {s : State} (m : Mode) (hp : ParamsLegal s) : Inv (setPass m s) :=
  ⟨fun _ => ⟨rfl, rfl, rfl, rfl⟩, fun _ => ⟨rfl, by simp⟩, fun _ => ⟨rfl, rfl⟩, fun _ => rfl, fun _ => by simp, hp⟩

/-! ### The write path -/

/-- A successful emit keeps the pass unfailed and leaves room for a bit (R100). -/
theorem emitFull_ok {s t : State} (h : emitFull s = (.ok, t)) : t.failed = s.failed ∧ t.cnt.val < 8 := by
  rcases emitFull_cases s with ⟨hc, he⟩ | ⟨-, -, he⟩ | ⟨-, -, he⟩ | ⟨-, -, he⟩ <;> rw [he] at h <;> cases h
  · exact ⟨rfl, lt_of_le_of_ne (Nat.le_of_lt_succ s.cnt.isLt) fun h8 => hc (Fin.ext h8)⟩
  · exact ⟨rfl, by simp⟩

theorem inv_emitFull {r : WriteReply} {s t : State} (hm : s.mode = .enc) (hf : s.failed = false) (hi : Inv s)
    (h : emitFull s = (r, t)) : t.mode = .enc ∧ Inv t := by
  refine ⟨(writeFrame_emitFull h).mode.trans hm, ?_⟩
  rcases emitFull_cases s with ⟨-, he⟩ | ⟨-, -, he⟩ | ⟨-, -, he⟩ | ⟨-, -, he⟩ <;> rw [he] at h <;> cases h
  · exact hi
  · obtain ⟨-, henc, -, -, -, hp⟩ := hi
    exact inv_of_enc hm hf (henc hm).1 (by simp) hp
  · exact hi
  · exact hi

theorem inv_pushBit {s : State} (b : Bool) (hm : s.mode = .enc) (hf : s.failed = false) (hc : s.cnt.val < 8) (hi : Inv s) :
    Inv (pushBit b s) := by
  obtain ⟨-, henc, -, -, -, hp⟩ := hi
  obtain ⟨heos, hacc⟩ := henc hm
  exact inv_of_enc hm hf heos (pushBit_acc_lt b s hc hacc) hp

theorem inv_appendBits (v : DataField) (n : Nat) {s : State} (hm : s.mode = .enc) (hf : s.failed = false) (hi : Inv s) :
    Inv (appendBits v n s) := by
  induction n generalizing s with
  | zero => exact inv_respond .ok 0 0 hi
  | succ i ih =>
    rcases appendBits_succ v i s with ⟨t, he, hrun⟩ | ⟨t, he, hrun⟩ <;> rw [hrun]
    all_goals obtain ⟨hmt, hit⟩ := inv_emitFull hm hf hi he
    · obtain ⟨hft, hct⟩ := emitFull_ok he
      exact ih hmt (hft.trans hf) (inv_pushBit _ hmt (hft.trans hf) hct hit)
    · exact inv_fatal .ioError (by simp [hmt]) hit

theorem inv_flushBuf {s : State} (hm : s.mode = .enc) (hf : s.failed = false) (hi : Inv s) : Inv (flushBuf s) := by
  have hopen : s.mode ≠ .idle := by simp [hm]
  rcases flushBuf_cases s with ⟨-, h⟩ | ⟨-, -, h⟩ | ⟨-, -, h⟩ | ⟨-, -, h⟩ <;> rw [h]
  · exact inv_respond .ok 0 0 hi
  · obtain ⟨-, henc, -, -, -, hp⟩ := hi
    exact inv_of_enc hm hf (henc hm).1 (by simp) hp
  · exact inv_fatal .ioError hopen hi
  · exact inv_fatal .ioError hopen hi

/-! ### The read path -/

/-- A search for a bit that ends without one keeps the invariants: `eos` is set only on an empty buffer (R25). -/
theorem inv_of_refill_exhausted {s t : State} (hm : s.mode = .dec) (hf : s.failed = false) (hi : Inv s)
    (h : refill s = .exhausted t) : Inv t := by
  rcases refill_cases s with ⟨-, hr⟩ | ⟨-, -, hr⟩ | ⟨-, -, -, hr⟩ | ⟨hc, -, -, -, hr⟩ | ⟨b, bs, -, -, -, -, hr⟩ <;>
    rw [hr] at h <;> cases h
  · exact hi
  · obtain ⟨-, -, -, -, hleft, hp⟩ := hi
    exact inv_of_dec hm hf (fun _ => hc) (hleft hm) hp

theorem inv_of_refill_err {s t : State} (hi : Inv s) (h : refill s = .err t) : Inv t := by
  rcases refill_cases s with ⟨-, hr⟩ | ⟨-, -, hr⟩ | ⟨-, -, -, hr⟩ | ⟨-, -, -, -, hr⟩ | ⟨b, bs, -, -, -, -, hr⟩ <;>
    rw [hr] at h <;> cases h
  exact hi

/-- A bit is found only before the end of the stream: with `eos` set there is no leftover to find it in (R25, I-5). -/
theorem eos_of_refill_ready {s t : State} (he : EosEmpty s) (h : refill s = .ready t) : t.eos = false := by
  rcases refill_cases s with ⟨hc, hr⟩ | ⟨-, -, hr⟩ | ⟨-, -, -, hr⟩ | ⟨-, -, -, -, hr⟩ | ⟨b, bs, -, heos, -, -, hr⟩ <;>
    rw [hr] at h <;> cases h
  · exact Bool.eq_false_iff.2 (hc ∘ he)
  · exact heos

/-- A full byte is held only until its first bit is consumed, which leaves at most 7 (R24). -/
theorem inv_dropBit_of_refill_ready {s t : State} (hm : s.mode = .dec) (hf : s.failed = false) (hi : Inv s)
    (h : refill s = .ready t) : (dropBit t).mode = .dec ∧ (dropBit t).failed = false ∧ Inv (dropBit t) := by
  have hframe : ReadFrame s t := by simpa [h, Refill.state] using readFrame_refill s
  have hfail : t.failed = false := by simpa [h, Refill.state, hf] using refill_failed s
  have hmode : t.mode = .dec := hframe.mode.trans hm
  obtain ⟨-, -, -, heos, -, hrom, hmax⟩ := hi
  refine ⟨hmode, hfail, inv_of_dec hmode hfail ?_ ?_ ?_⟩
  · simp [EosEmpty, eos_of_refill_ready heos h]
  · simp only [dropBit_cnt, cntDown_val]; omega
  · exact ⟨hframe.rom ▸ hrom, hframe.decMaxW ▸ hmax⟩

theorem inv_exhausted (t : NextTemps) {s : State} (hm : s.mode = .dec) (hf : s.failed = false) (hi : Inv s) :
    Inv (exhausted t s) := by
  rcases exhausted_cases t s with ⟨-, he⟩ | ⟨-, he⟩ <;> rw [he]
  · obtain ⟨-, -, -, heos, hleft, hp⟩ := hi
    exact inv_of_dec hm hf heos (hleft hm) hp
  · exact inv_fatal .corruptStream (by simp [hm]) hi

theorem inv_unpack (n : Nat) (t : NextTemps) {s : State} (hm : s.mode = .dec) (hf : s.failed = false) (hi : Inv s) :
    Inv (unpack n t s) := by
  induction n generalizing t s with
  | zero => exact inv_fatal .corruptStream (by simp [hm]) hi
  | succ n ih =>
    have hsearched := (readFrame_refill s).mode.trans hm
    have hfail := refill_failed s
    rcases unpack_succ n t s with ⟨s', hr, hrun⟩ | ⟨s', hr, hrun⟩ | ⟨s', hr, -, -, hrun⟩ | ⟨s', hr, -, -, hrun⟩ |
      ⟨s', hr, -, -, hrun⟩ <;> rw [hrun] <;> rw [hr] at hsearched hfail
    · exact inv_fatal .ioError (ne_of_eq_of_ne hsearched (by decide)) (inv_of_refill_err hi hr)
    · exact inv_exhausted t hsearched (hfail.trans hf) (inv_of_refill_exhausted hm hf hi hr)
    all_goals obtain ⟨hmode, hunfailed, hdrop⟩ := inv_dropBit_of_refill_ready hm hf hi hr
    · exact inv_fatal .corruptStream (ne_of_eq_of_ne hmode (by decide)) hdrop
    · exact inv_respond _ _ _ hdrop
    · exact ih _ hmode hunfailed hdrop

theorem inv_skipPadding {s : State} (hm : s.mode = .dec) (hf : s.failed = false) (hi : Inv s) : Inv (skipPadding s) := by
  have hopen : (emptyBuf s).mode ≠ .idle := by simp [hm]
  have hp := paramsLegal_of_inv hi
  have hempty : Inv (emptyBuf s) := inv_of_dec hm hf (fun _ => rfl) (by simp) hp
  rcases skipPadding_cases s with ⟨-, h⟩ | ⟨-, -, h⟩ | ⟨b, bs, -, -, h⟩ <;> rw [h]
  · exact inv_fatal .ioError hopen hempty
  · exact inv_of_dec hm hf (fun _ => rfl) (by simp) hp
  · exact inv_fatal .corruptStream hopen hempty

/-! ### Commands and steps -/

theorem inv_exec {i : Instr} {s t : State} (hi : Inv s) (h : exec i s = .next t) : Inv t := by
  have hp := paramsLegal_of_inv hi
  cases commandEffect_of_exec h with
  | report st l d => exact inv_respond st l d hi
  | startEnc => exact inv_respond .ok 0 0 (inv_setPass .enc hp)
  | startDec => exact inv_respond .ok 0 0 (inv_setPass .dec hp)
  | endPass => exact inv_respond .ok 0 0 (inv_setPass .idle hp)
  | append len data hm hf => exact inv_appendBits data len.toNat hm hf hi
  | flush hm hf => exact inv_flushBuf hm hf hi
  | padding hm hf => exact inv_skipPadding hm hf hi
  | unpack hm hf => exact inv_unpack s.decMaxW freshTemps hm hf hi

theorem inv_runWord {w : CmdWord} {s t : State} (hi : Inv s) (h : runWord w s = .next t) : Inv t := by
  rcases runWord_cases w s with ⟨i, -, hrun⟩ | ⟨e, -, hrun⟩ <;> rw [hrun] at h
  · exact inv_exec hi h
  · cases h
    exact inv_respond .illegalCommand 0 0 hi

/-- Settles O13: a command keeps the invariants, a reset sets them up anew, and what the host binds or has left to do is no part
of them. -/
theorem stepKeepsInvariants : Obligations.StepKeepsInvariants := by
  unfold Obligations.StepKeepsInvariants
  intro s t hi h
  have hp := paramsLegal_of_inv hi
  have hhost (rest : List HostAction) : Inv (s.setHost rest) := hi
  rcases step_cases h with ⟨-, rfl⟩ | ⟨w, rest, -, hrun⟩ | ⟨rest, -, rfl⟩ | ⟨w, n, rest, u, -, -, rfl⟩ | ⟨bs, rest, -, rfl⟩ |
    ⟨bs, rest, -, rfl⟩
  · exact hi
  · exact inv_runWord (hhost rest) hrun
  · exact inv_setPass .idle hp
  · exact inv_setPass .idle hp
  · exact hi
  · exact hi

end Sys2Proof.Machine
end

section
/-! The parameters and `eos` over every command (spec/10_state.md R25, R28; spec/20_memory.md R53). -/

namespace Sys2Proof.Machine

/-- No command writes the ROM or `DEC_MAX_W` (R28, R53). -/
theorem params_of_exec {i : Instr} {s t : State} (h : exec i s = .next t) : t.rom = s.rom ∧ t.decMaxW = s.decMaxW := by
  cases commandEffect_of_exec h with
  | report st l d => exact ⟨rfl, rfl⟩
  | startEnc => exact ⟨rfl, rfl⟩
  | startDec => exact ⟨rfl, rfl⟩
  | endPass => exact ⟨rfl, rfl⟩
  | append len data =>
    have hframe := writeFrame_appendBits data len.toNat s
    exact ⟨hframe.rom, hframe.decMaxW⟩
  | flush => exact ⟨(writeFrame_flushBuf s).rom, (writeFrame_flushBuf s).decMaxW⟩
  | padding => exact ⟨(readFrame_skipPadding s).rom, (readFrame_skipPadding s).decMaxW⟩
  | unpack =>
    have hframe := readFrame_unpack s.decMaxW freshTemps s
    exact ⟨hframe.rom, hframe.decMaxW⟩

theorem params_of_runWord {w : CmdWord} {s t : State} (h : runWord w s = .next t) :
    t.rom = s.rom ∧ t.decMaxW = s.decMaxW := by
  rcases runWord_cases w s with ⟨i, -, hrun⟩ | ⟨e, -, hrun⟩ <;> rw [hrun] at h
  · exact params_of_exec h
  · cases h
    exact ⟨rfl, rfl⟩

/-- Settles O16: no command writes the parameters, and no other action of the host, a reset included, touches them. -/
theorem parametersAreNeverWritten : Obligations.ParametersAreNeverWritten := by
  unfold Obligations.ParametersAreNeverWritten
  intro s t h
  rcases step_cases h with ⟨-, rfl⟩ | ⟨w, rest, -, hrun⟩ | ⟨rest, -, rfl⟩ | ⟨w, n, rest, u, -, -, rfl⟩ | ⟨bs, rest, -, rfl⟩ |
    ⟨bs, rest, -, rfl⟩
  · exact ⟨rfl, rfl⟩
  · simpa using params_of_runWord hrun
  · exact ⟨rfl, rfl⟩
  · exact ⟨rfl, rfl⟩
  · exact ⟨rfl, rfl⟩
  · exact ⟨rfl, rfl⟩

/-- Only the pass commands clear `eos` (R25). -/
theorem passCommand_of_eos_cleared {i : Instr} {s t : State} (h : exec i s = .next t) (hs : s.eos = true)
    (ht : t.eos = false) : i = .startEnc ∨ i = .startDec ∨ i = .endPass := by
  cases commandEffect_of_exec h with
  | report st l d => exact absurd (hs.symm.trans ht) (by decide)
  | startEnc => exact .inl rfl
  | startDec => exact .inr (.inl rfl)
  | endPass => exact .inr (.inr rfl)
  | append len data => simp [(writeFrame_appendBits data len.toNat s).eos, hs] at ht
  | flush => simp [(writeFrame_flushBuf s).eos, hs] at ht
  | padding => simp [(readFrame_skipPadding s).eos hs] at ht
  | unpack => simp [(readFrame_unpack s.decMaxW freshTemps s).eos hs] at ht

/-- Only NEXT sets `eos` (R25). -/
theorem next_of_eos_set {i : Instr} {s t : State} (h : exec i s = .next t) (hs : s.eos = false) (ht : t.eos = true) :
    i = .next := by
  cases commandEffect_of_exec h with
  | report st l d => exact absurd (hs.symm.trans ht) (by decide)
  | startEnc => cases ht
  | startDec => cases ht
  | endPass => cases ht
  | append len data => simp [(writeFrame_appendBits data len.toNat s).eos, hs] at ht
  | flush => simp [(writeFrame_flushBuf s).eos, hs] at ht
  | padding => rfl
  | unpack => rfl

/-- Once the source has ended and no leftover is held, no command pulls: the padding rule, which pulls regardless of `eos`, needs a
leftover (R25, R125). -/
theorem source_of_exec_of_eos {i : Instr} {s t : State} (h : exec i s = .next t) (heos : s.eos = true) (hcnt : s.cnt = 0) :
    t.source = s.source := by
  cases commandEffect_of_exec h with
  | report st l d => rfl
  | startEnc => rfl
  | startDec => rfl
  | endPass => rfl
  | append len data => exact (writeFrame_appendBits data len.toNat s).source
  | flush => exact (writeFrame_flushBuf s).source
  | padding _ _ hp =>
    have hpos := ((onlyPadding_iff s).1 hp).1
    simp [hcnt] at hpos
  | unpack => exact unpack_source_of_eos s.decMaxW freshTemps heos hcnt

/-- Settles O29: the three clauses are each a case split over a command's effects. -/
theorem eosIsFinalForThePass : Obligations.EosIsFinalForThePass := by
  unfold Obligations.EosIsFinalForThePass
  exact fun i s t h => ⟨passCommand_of_eos_cleared h, next_of_eos_set h, source_of_exec_of_eos h⟩

end Sys2Proof.Machine
end

section
/-! The two streams over every command and step: who touches them, and that the sink only grows (spec/20_memory.md R41, R42,
R55). -/

namespace Sys2Proof.Machine

/-- Only APPEND and FLUSH, in an encode pass, touch the sink (R55). -/
theorem appendOrFlush_of_sink_changed {i : Instr} {s t : State} (h : exec i s = .next t) (hsink : t.sink ≠ s.sink) :
    ((∃ l d, i = .append l d) ∨ i = .flush) ∧ s.mode = .enc := by
  cases commandEffect_of_exec h with
  | report st l d => exact absurd rfl hsink
  | startEnc => exact absurd rfl hsink
  | startDec => exact absurd rfl hsink
  | endPass => exact absurd rfl hsink
  | append len data hm => exact ⟨.inl ⟨len, data, rfl⟩, hm⟩
  | flush hm => exact ⟨.inr rfl, hm⟩
  | padding => exact absurd (readFrame_skipPadding s).sink hsink
  | unpack => exact absurd (readFrame_unpack s.decMaxW freshTemps s).sink hsink

/-- Only NEXT, in a decode pass, touches the source (R55). -/
theorem next_of_source_changed {i : Instr} {s t : State} (h : exec i s = .next t) (hsource : t.source ≠ s.source) :
    i = .next ∧ s.mode = .dec := by
  cases commandEffect_of_exec h with
  | report st l d => exact absurd rfl hsource
  | startEnc => exact absurd rfl hsource
  | startDec => exact absurd rfl hsource
  | endPass => exact absurd rfl hsource
  | append len data => exact absurd (writeFrame_appendBits data len.toNat s).source hsource
  | flush => exact absurd (writeFrame_flushBuf s).source hsource
  | padding hm => exact ⟨rfl, hm⟩
  | unpack hm => exact ⟨rfl, hm⟩

/-- Settles O30: a command's effects outside its own path leave that path's stream alone. -/
theorem streamsAreSeparate : Obligations.StreamsAreSeparate := by
  unfold Obligations.StreamsAreSeparate
  exact fun i s t h => ⟨appendOrFlush_of_sink_changed h, next_of_source_changed h⟩

/-! ### The sink only grows -/

theorem sinkBytes_prefix_emitFull {r : WriteReply} {s t : State} (h : emitFull s = (r, t)) :
    s.sink.bytes <+: t.sink.bytes := by
  rcases emitFull_cases s with ⟨-, he⟩ | ⟨-, -, he⟩ | ⟨-, -, he⟩ | ⟨-, -, he⟩ <;> rw [he] at h <;> cases h
  · exact List.prefix_rfl
  · exact List.prefix_append _ _
  · exact List.prefix_append _ _
  · exact List.prefix_rfl

theorem sinkBytes_prefix_appendBits (v : DataField) (n : Nat) (s : State) :
    s.sink.bytes <+: (appendBits v n s).sink.bytes := by
  induction n generalizing s with
  | zero => exact List.prefix_rfl
  | succ i ih =>
    rcases appendBits_succ v i s with ⟨t, he, hrun⟩ | ⟨t, he, hrun⟩ <;> rw [hrun]
    · exact (sinkBytes_prefix_emitFull he).trans (ih (pushBit (v.getLsbD i) t))
    · simpa using sinkBytes_prefix_emitFull he

theorem sinkBytes_prefix_flushBuf (s : State) : s.sink.bytes <+: (flushBuf s).sink.bytes := by
  rcases flushBuf_cases s with ⟨-, hf⟩ | ⟨-, -, hf⟩ | ⟨-, -, hf⟩ | ⟨-, -, hf⟩ <;> rw [hf]
  · exact List.prefix_rfl
  · exact List.prefix_append _ _
  · exact List.prefix_append _ _
  · exact List.prefix_rfl

/-- A command that changes the sink is one of the two that append to it (R42, R55). -/
theorem sinkBytes_prefix_exec {i : Instr} {s t : State} (h : exec i s = .next t) : s.sink.bytes <+: t.sink.bytes := by
  cases commandEffect_of_exec h with
  | report st l d => exact List.prefix_rfl
  | startEnc => exact List.prefix_rfl
  | startDec => exact List.prefix_rfl
  | endPass => exact List.prefix_rfl
  | append len data => exact sinkBytes_prefix_appendBits data len.toNat s
  | flush => exact sinkBytes_prefix_flushBuf s
  | padding => rw [(readFrame_skipPadding s).sink]
  | unpack => rw [(readFrame_unpack s.decMaxW freshTemps s).sink]

theorem sinkBytes_prefix_runWord {w : CmdWord} {s t : State} (h : runWord w s = .next t) :
    s.sink.bytes <+: t.sink.bytes := by
  rcases runWord_cases w s with ⟨i, -, hrun⟩ | ⟨e, -, hrun⟩ <;> rw [hrun] at h
  · exact sinkBytes_prefix_exec h
  · cases h
    exact List.prefix_rfl

/-- A command cut short keeps the bytes that stood in the sink before it: the cut falls after them (R200). -/
theorem Sink.bytes_prefix_cut (n : Nat) {k l : Sink} (h : k.bytes <+: l.bytes) : k.bytes <+: (Sink.cut n k l).bytes := by
  rcases Nat.lt_or_ge (k.oracle.draws + n) l.oracle.draws with hlt | hge
  · rw [Sink.cut_some hlt]
    exact List.prefix_take_iff.2 ⟨h, Nat.le_add_right _ n⟩
  · rwa [Sink.cut_all hge]

/-- Settles O17: a command appends to the sink, one cut short by reset appends a part of that, and of the host's other actions only
a rebinding of the sink changes its bytes. -/
theorem sinkBytesAreNeverRetracted : Obligations.SinkBytesAreNeverRetracted := by
  unfold Obligations.SinkBytesAreNeverRetracted
  intro s t h hbind
  rcases step_cases h with ⟨-, rfl⟩ | ⟨w, rest, -, hrun⟩ | ⟨rest, -, rfl⟩ | ⟨w, n, rest, u, -, hrun, rfl⟩ | ⟨bs, rest, hhost, -⟩ |
    ⟨bs, rest, -, rfl⟩
  · exact List.prefix_rfl
  · simpa using sinkBytes_prefix_runWord hrun
  · exact List.prefix_rfl
  · have hwhole : s.sink.bytes <+: u.sink.bytes := by simpa using sinkBytes_prefix_runWord hrun
    exact Sink.bytes_prefix_cut n hwhole
  · exact absurd hhost (hbind bs rest)
  · exact List.prefix_rfl

end Sys2Proof.Machine
end

section
/-! Decoder and encoder are inverse to each other, and the "fields" column of R64 describes what the decoder accepts
(spec/30_encoding.md R60 to R68). -/

namespace Sys2Proof

open Sys2Proof.Safety

/-! ### From a command to its word and back -/

/-- The number a command word spells (R60). -/
theorem mkCmd_toNat (op : BitVec 4) (len : LenField) (data : DataField) :
    (mkCmd op len data).toNat = op.toNat * 2 ^ 44 + len.toNat * 2 ^ 32 + data.toNat := by
  simp [mkCmd, join_toNat op 0#6 len data]

@[simp] theorem cmdSym_mkCmd_setWidth (op : BitVec 4) (len : LenField) (c : Byte) :
    cmdSym (mkCmd op len (c.setWidth 32)) = c := by
  have hc := c.isLt
  apply BitVec.eq_of_toNat_eq
  rw [cmdSym_toNat, mkCmd_toNat, BitVec.toNat_setWidth]; omega

@[simp] theorem cmdDataHigh_mkCmd_setWidth (op : BitVec 4) (len : LenField) (c : Byte) :
    cmdDataHigh (mkCmd op len (c.setWidth 32)) = 0 := by
  have hc := c.isLt
  rw [field_eq_zero_iff, cmdDataHigh_toNat, mkCmd_toNat, BitVec.toNat_setWidth]; omega

@[simp] theorem decodeBare_mkCmd (op : BitVec 4) (i : Instr) : decodeBare (mkCmd op 0 0) i = .ok i := by
  simp [decodeBare]

@[simp] theorem decodeSym_mkCmd (op : BitVec 4) (c : Byte) (f : Byte → Instr) :
    decodeSym (mkCmd op 0 (c.setWidth 32)) f = .ok (f c) := by
  simp [decodeSym]

@[simp] theorem decodeLenData_mkCmd (op : BitVec 4) (len : LenField) (data : DataField)
    (f : LenField → DataField → Instr) : decodeLenData (mkCmd op len data) f = .ok (f len data) := by
  simp [decodeLenData]

/-- Settles O2: the opcode selects the command's arm, and the arm finds its operands in the fields they were put in. -/
theorem decodeOfEncode : Obligations.DecodeOfEncode := by
  unfold Obligations.DecodeOfEncode
  intro i
  cases i with
  | startEnc | startDec | flush | next | endPass | status => exact decodeBare_mkCmd _ _
  | codeOf c | bitlenOf c =>
    simp only [decode, encode, opcode, operandLen, operandData, cmdOp_mkCmd]
    exact decodeSym_mkCmd _ c _
  | append len data | symbolOf len data =>
    simp only [decode, encode, opcode, operandLen, operandData, cmdOp_mkCmd]
    exact decodeLenData_mkCmd _ len data _

/-! ### From a word to its command -/

/-- The commands without operands (R68). -/
def bareCommands : List Instr := [.startEnc, .startDec, .flush, .next, .endPass, .status]

/-- Which arm of the opcode map a word falls into, by the shape of the command's operands (R63, R68). -/
inductive DecodeArm (w : CmdWord) : Except DecodeError Instr → Prop
  | bare (i : Instr) : i ∈ bareCommands → cmdOp w = opcode i → DecodeArm w (decodeBare w i)
  | codeOf : cmdOp w = 0x7 → DecodeArm w (decodeSym w .codeOf)
  | bitlenOf : cmdOp w = 0x8 → DecodeArm w (decodeSym w .bitlenOf)
  | append : cmdOp w = 0x3 → DecodeArm w (decodeLenData w .append)
  | symbolOf : cmdOp w = 0x9 → DecodeArm w (decodeLenData w .symbolOf)
  | reserved : (cmdOp w).toNat ∉ [1, 2, 3, 4, 5, 6, 7, 8, 9, 10] → DecodeArm w (.error .reservedOpcode)

theorem decodeArm_decode (w : CmdWord) : DecodeArm w (decode w) := by
  unfold decode
  split
  · next h => exact .bare _ (by decide) (BitVec.eq_of_toNat_eq h)
  · next h => exact .bare _ (by decide) (BitVec.eq_of_toNat_eq h)
  · next h => exact .append (BitVec.eq_of_toNat_eq h)
  · next h => exact .bare _ (by decide) (BitVec.eq_of_toNat_eq h)
  · next h => exact .bare _ (by decide) (BitVec.eq_of_toNat_eq h)
  · next h => exact .bare _ (by decide) (BitVec.eq_of_toNat_eq h)
  · next h => exact .codeOf (BitVec.eq_of_toNat_eq h)
  · next h => exact .bitlenOf (BitVec.eq_of_toNat_eq h)
  · next h => exact .symbolOf (BitVec.eq_of_toNat_eq h)
  · next h => exact .bare _ (by decide) (BitVec.eq_of_toNat_eq h)
  · exact .reserved (by simp_all)

/-- A word that decodes to a command without operands has zeros below its opcode (R64). -/
theorem mkCmd_of_decodeBare {w : CmdWord} {i j : Instr} (h : decodeBare w i = .ok j) :
    i = j ∧ mkCmd (cmdOp w) 0 0 = w := by
  obtain ⟨hzero, hij⟩ := (decodeBare_ok_iff w i j).1 h
  refine ⟨hij, BitVec.eq_of_toNat_eq ?_⟩
  have hw := w.isLt
  simp only [mkCmd_toNat, cmdOp_toNat, BitVec.ofNat_eq_ofNat, BitVec.toNat_zero]; omega

/-- A word that decodes to a command with a symbol has that symbol, zero-extended, below its opcode (R64). -/
theorem mkCmd_of_decodeSym {w : CmdWord} {f : Byte → Instr} {j : Instr} (h : decodeSym w f = .ok j) :
    f (cmdSym w) = j ∧ mkCmd (cmdOp w) 0 ((cmdSym w).setWidth 32) = w := by
  obtain ⟨hzero, hj⟩ := (decodeSym_ok_iff w f j).1 h
  refine ⟨hj, BitVec.eq_of_toNat_eq ?_⟩
  have hw := w.isLt
  simp only [mkCmd_toNat, cmdOp_toNat, BitVec.ofNat_eq_ofNat, BitVec.toNat_zero, BitVec.toNat_setWidth, cmdSym_toNat]; omega

/-- A word that decodes to a command with a length and a value is built from its fields (R64). -/
theorem mkCmd_of_decodeLenData {w : CmdWord} {f : LenField → DataField → Instr} {j : Instr}
    (h : decodeLenData w f = .ok j) : f (cmdLen w) (cmdData w) = j ∧ mkCmd (cmdOp w) (cmdLen w) (cmdData w) = w := by
  obtain ⟨hzero, hj⟩ := (decodeLenData_ok_iff w f j).1 h
  refine ⟨hj, mkCmd_fields w ((field_eq_zero_iff _).2 ?_)⟩
  rwa [cmdRsv_toNat]

/-- The commands without operands have no operand fields (R68). -/
theorem encode_of_mem_bareCommands : ∀ i ∈ bareCommands, encode i = mkCmd (opcode i) 0 0 := by decide

/-- Settles O3: in each shape of command the decoder reads every field of the word or requires it to be zero. -/
theorem encodeOfDecode : Obligations.EncodeOfDecode := by
  unfold Obligations.EncodeOfDecode
  intro w i h
  have harm := decodeArm_decode w
  rw [h] at harm
  generalize hr : Except.ok i = r at harm
  cases harm with
  | bare j hj hop =>
    obtain ⟨rfl, hw⟩ := mkCmd_of_decodeBare hr.symm
    rw [encode_of_mem_bareCommands j hj, ← hop, hw]
  | codeOf hop | bitlenOf hop =>
    obtain ⟨rfl, hw⟩ := mkCmd_of_decodeSym hr.symm
    rwa [hop] at hw
  | append hop | symbolOf hop =>
    obtain ⟨rfl, hw⟩ := mkCmd_of_decodeLenData hr.symm
    rwa [hop] at hw
  | reserved => cases hr

/-! ### The legal words -/

/-- A field is what the word spells between its bounds (R7). -/
theorem fieldOf_eq (w : CmdWord) (lo width : Nat) : fieldOf w lo width = w.toNat / 2 ^ lo % 2 ^ width := rfl

theorem fieldOf_op (w : CmdWord) : fieldOf w 44 4 = (cmdOp w).toNat := by
  have hw := w.isLt
  rw [fieldOf_eq, cmdOp_toNat]; omega

theorem fieldOf_len (w : CmdWord) : fieldOf w 32 6 = (cmdLen w).toNat := (cmdLen_toNat w).symm

/-- Only APPEND has a field check that its type does not make (R64). -/
theorem wellFormed_append_iff (len : LenField) (data : DataField) :
    WellFormed (.append len data) = true ↔ 1 ≤ len.toNat ∧ len.toNat ≤ 32 := by
  simp [WellFormed]

/-- The commands without operands are well-formed, and their opcodes are those of the first row of `FieldsLegal` only. -/
theorem wellFormed_and_opcode_of_mem_bareCommands :
    ∀ i ∈ bareCommands, WellFormed i = true ∧ (opcode i).toNat ∈ [1, 2, 4, 5, 6, 10] ∧
      (opcode i).toNat ≠ 3 ∧ (opcode i).toNat ∉ [7, 8] ∧ (opcode i).toNat ≠ 9 := by decide

/-- Settles O4: in each arm of the opcode map the "fields" column is what the arm accepts, with APPEND's length beside it. -/
theorem legalFieldsAreWellFormed : Obligations.LegalFieldsAreWellFormed := by
  unfold Obligations.LegalFieldsAreWellFormed
  intro w
  have harm := decodeArm_decode w
  generalize decode w = r at harm
  cases harm with
  | bare j hj hop =>
    obtain ⟨hwf, hmem, h3, h78, h9⟩ := wellFormed_and_opcode_of_mem_bareCommands j hj
    simp only [FieldsLegal, fieldOf_op, hop, hmem, h3, h78, h9, decodeBare_ok_iff]
    simp [fieldOf_eq, hwf]
  | codeOf hop | bitlenOf hop =>
    simp [FieldsLegal, fieldOf_op, hop, fieldOf_eq w 8 36, decodeSym_ok_iff, WellFormed]
  | append hop =>
    simp [FieldsLegal, fieldOf_op, hop, fieldOf_eq w 38 6, fieldOf_len, decodeLenData_ok_iff, wellFormed_append_iff]
  | symbolOf hop =>
    simp [FieldsLegal, fieldOf_op, hop, fieldOf_eq w 38 6, decodeLenData_ok_iff, WellFormed]
  | reserved hop =>
    simp only [List.mem_cons, List.not_mem_nil, or_false, not_or] at hop
    simp [FieldsLegal, fieldOf_op, hop]

/-- Settles O1: each word is a command's word, or the join of a response's fields. -/
theorem exampleWordsDecode : Obligations.ExampleWordsDecode := by
  unfold Obligations.ExampleWordsDecode
  decide

end Sys2Proof
end

section
/-! The checks before execution, in the order of R177, and the words that are answered ILLEGAL_COMMAND
(spec/30_encoding.md R64 to R66). -/

namespace Sys2Proof.Machine

open Sys2Proof.Safety

/-! ### What a failed check answers -/

theorem inMode_of_ne {m : Mode} {s : State} (run : State → Result) (hm : s.mode ≠ m) :
    inMode m run s = answer .wrongMode s := if_neg hm

theorem inPass_of_ne {m : Mode} {s : State} (run : State → Result) (hm : s.mode ≠ m) :
    inPass m run s = answer .wrongMode s := inMode_of_ne _ hm

theorem inPass_of_failed {m : Mode} {s : State} (run : State → Result) (hm : s.mode = m) (hf : s.failed = true) :
    inPass m run s = answer .failed s := by
  simp [inPass, inMode, unlessFailed, hm, hf]

/-- APPEND checks the length that R64 gives it. -/
theorem appendLenOk_eq_wellFormed (len : LenField) (data : DataField) : appendLenOk len = WellFormed (.append len data) := rfl

/-- A command whose fields break R64 is ILLEGAL_COMMAND, before any other check (R66, R177). -/
theorem exec_of_illFormed {i : Instr} (h : WellFormed i = false) (s : State) : exec i s = answer .illegalCommand s := by
  cases i with
  | append len data => simp [exec, execAppend, ifWellFormed, appendLenOk_eq_wellFormed len data, h]
  | startEnc | startDec | flush | next | endPass | codeOf | bitlenOf | symbolOf | status => cases h

/-- Past its field check APPEND is a command of an open encode pass (R177). -/
theorem exec_append_of_wellFormed {len : LenField} {data : DataField} (h : WellFormed (.append len data) = true) (s : State) :
    exec (.append len data) s = inPass .enc (fun s => .next (appendBits data len.toNat s)) s := by
  simp [exec, execAppend, ifWellFormed, appendLenOk_eq_wellFormed len data, h]

/-- Settles O23: each check that fails ends the command, so a later one is reached only where the earlier ones hold. -/
theorem checksBeforeExecution : Obligations.ChecksBeforeExecution := by
  unfold Obligations.ChecksBeforeExecution
  intro s l d
  have hwf (h1 : 1 ≤ l.toNat) (h32 : l.toNat ≤ 32) : WellFormed (.append l d) = true :=
    (wellFormed_append_iff l d).2 ⟨h1, h32⟩
  refine ⟨fun hlen => exec_of_illFormed ?_ s, fun h1 h32 hm => ?_, fun h1 h32 hm hf => ?_, inPass_of_ne _, inPass_of_failed _,
    inPass_of_ne _, inPass_of_failed _, fun hm => ⟨?_, ?_⟩⟩
  · rw [Bool.eq_false_iff, ne_eq, wellFormed_append_iff]; omega
  · exact (exec_append_of_wellFormed (hwf h1 h32) s).trans (inPass_of_ne _ hm)
  · exact (exec_append_of_wellFormed (hwf h1 h32) s).trans (inPass_of_failed _ hm hf)
  · rw [exec, execStartEnc, inMode_of_ne _ hm]; rfl
  · rw [exec, execStartDec, inMode_of_ne _ hm]; rfl

/-- Settles O6: a word that R64 does not accept does not decode, or decodes to a command whose fields break R64. -/
theorem illegalWordsAreAnswered : Obligations.IllegalWordsAreAnswered := by
  unfold Obligations.IllegalWordsAreAnswered
  intro s w hw
  rcases runWord_cases w s with ⟨i, hdec, hrun⟩ | ⟨e, -, hrun⟩ <;> rw [hrun]
  · have hill : WellFormed i = false :=
      Bool.eq_false_iff.2 fun hwf => hw ((legalFieldsAreWellFormed w).2 ⟨i, hdec, hwf⟩)
    exact exec_of_illFormed hill s
  · rfl

/-! ### The value operand of APPEND -/

/-- Bits of a value below L are those of the value modulo 2^L. -/
theorem getLsbD_eq_of_mod_eq {n L j : Nat} {v u : BitVec n} (h : v.toNat % 2 ^ L = u.toNat % 2 ^ L) (hj : j < L) :
    v.getLsbD j = u.getLsbD j := by
  have hbit := congrArg (Nat.testBit · j) h
  simpa [Nat.testBit_mod_two_pow, hj, BitVec.getLsbD] using hbit

/-- APPEND's loop reads the value's bits below its count only (R100). -/
theorem appendBits_congr {v u : DataField} {n : Nat} (h : ∀ j < n, v.getLsbD j = u.getLsbD j) (s : State) :
    appendBits v n s = appendBits u n s := by
  induction n generalizing s with
  | zero => rfl
  | succ i ih =>
    simp only [appendBits, h i (Nat.lt_succ_self i), ih fun j hj => h j (Nat.lt_succ_of_lt hj)]

/-- Settles O40: whatever the checks answer does not depend on the value, and the loop reads only its low bits. -/
theorem appendIgnoresHighBits : Obligations.AppendIgnoresHighBits := by
  unfold Obligations.AppendIgnoresHighBits
  intro s l v u h
  simp only [exec, execAppend, appendBits_congr fun j => getLsbD_eq_of_mod_eq h]

end Sys2Proof.Machine
end

section
/-! The response of every command: its shape (spec/30_encoding.md R61), and that with legal parameters there is one
(spec/30_encoding.md R67, spec/60_exceptions.md R190). -/

namespace Sys2Proof.Machine

open Sys2Proof.Safety

/-- `Response i r`: `r` can be the response of command `i` (R61): a bare status, a codeword, or what a lookup or STATUS reads. -/
inductive Response : Instr → RspWord → Prop
  | bare {i : Instr} (st : Status) : Response i (rspWord st 0 0)
  | codeword (l : LenField) (d : DataField) : Response .next (rspWord .codeword l d)
  | codeOf {c : Byte} (l : LenField) (d : DataField) : Response (.codeOf c) (rspWord .ok l d)
  | bitlenOf {c : Byte} (l : LenField) : Response (.bitlenOf c) (rspWord .ok l 0)
  | symbolOf {len : LenField} {data : DataField} (c : Byte) : Response (.symbolOf len data) (rspWord .ok 0 (c.setWidth 32))
  | status (d : DataField) : Response .status (rspWord .ok 0 d)

/-- `Responds i t`: in `t` the channel holds a response of command `i`. -/
def Responds (i : Instr) (t : State) : Prop := ∃ r, t.rsp = some r ∧ Response i r

theorem responds_respond {i : Instr} {st : Status} {l : LenField} {d : DataField} {s : State}
    (h : Response i (rspWord st l d)) : Responds i (respond st l d s) := ⟨_, rfl, h⟩

theorem responds_fatal (i : Instr) (f : FatalStatus) (s : State) : Responds i (fatal f s) := ⟨_, rfl, .bare _⟩

/-! ### The loops and procedures of the two paths -/

theorem responds_appendBits (i : Instr) (v : DataField) (n : Nat) (s : State) : Responds i (appendBits v n s) := by
  induction n generalizing s with
  | zero => exact responds_respond (.bare .ok)
  | succ k ih =>
    rcases appendBits_succ v k s with ⟨t, -, hrun⟩ | ⟨t, -, hrun⟩ <;> rw [hrun]
    · exact ih _
    · exact responds_fatal i .ioError t

theorem responds_flushBuf (i : Instr) (s : State) : Responds i (flushBuf s) := by
  rcases flushBuf_cases s with ⟨-, h⟩ | ⟨-, -, h⟩ | ⟨-, -, h⟩ | ⟨-, -, h⟩ <;> rw [h]
  · exact responds_respond (.bare .ok)
  · exact responds_respond (.bare .ok)
  · exact responds_fatal i .ioError _
  · exact responds_fatal i .ioError _

theorem responds_exhausted (i : Instr) (t : NextTemps) (s : State) : Responds i (exhausted t s) := by
  rcases exhausted_cases t s with ⟨-, h⟩ | ⟨-, h⟩ <;> rw [h]
  · exact responds_respond (.bare .endOfStream)
  · exact responds_fatal i .corruptStream s

theorem responds_unpack (n : Nat) (t : NextTemps) (s : State) : Responds .next (unpack n t s) := by
  induction n generalizing t s with
  | zero => exact responds_fatal .next .corruptStream s
  | succ n ih =>
    rcases unpack_succ n t s with ⟨s', -, h⟩ | ⟨s', -, h⟩ | ⟨s', -, -, -, h⟩ | ⟨s', -, -, -, h⟩ | ⟨s', -, -, -, h⟩ <;> rw [h]
    · exact responds_fatal .next .ioError s'
    · exact responds_exhausted .next t s'
    · exact responds_fatal .next .corruptStream _
    · exact responds_respond (.codeword _ _)
    · exact ih _ _

theorem responds_skipPadding (i : Instr) (s : State) : Responds i (skipPadding s) := by
  rcases skipPadding_cases s with ⟨-, h⟩ | ⟨-, -, h⟩ | ⟨b, bs, -, -, h⟩ <;> rw [h]
  · exact responds_fatal i .ioError _
  · exact responds_respond (.bare .endOfStream)
  · exact responds_fatal i .corruptStream _

/-! ### Commands -/

/-- How command `i` may end in state `s`: with a response of its own, or, if the parameters are not legal, refused (R67, R84). -/
inductive Answered (i : Instr) (s : State) : Result → Prop
  | next {t : State} : Responds i t → Answered i s (.next t)
  | refused (r : Refusal) : ¬ ParamsLegal s → Answered i s (.refused r)

theorem answered_answer (i : Instr) (st : Status) (s : State) : Answered i s (answer st s) :=
  .next (responds_respond (.bare st))

/-- A check that fails answers a bare status, so a command is answered if what runs past the check is (R64, R177). -/
theorem answered_inMode {i : Instr} {m : Mode} {run : State → Result} {s : State} (hrun : Answered i s (run s)) :
    Answered i s (inMode m run s) := by
  rcases inMode_cases m run s with ⟨-, he⟩ | ⟨-, he⟩ <;> rw [he]
  · exact answered_answer i .wrongMode s
  · exact hrun

theorem answered_inPass {i : Instr} {m : Mode} {run : State → Result} {s : State} (hrun : Answered i s (run s)) :
    Answered i s (inPass m run s) := by
  rcases inPass_cases m run s with ⟨-, he⟩ | ⟨-, -, he⟩ | ⟨-, -, he⟩ <;> rw [he]
  · exact answered_answer i .wrongMode s
  · exact answered_answer i .failed s
  · exact hrun

theorem answered_ifWellFormed {i : Instr} {ok : Bool} {run : State → Result} {s : State} (hrun : Answered i s (run s)) :
    Answered i s (ifWellFormed ok run s) := by
  rcases ifWellFormed_cases ok run s with ⟨-, he⟩ | ⟨-, he⟩ <;> rw [he]
  · exact answered_answer i .illegalCommand s
  · exact hrun

/-- A lookup is refused only if the table is not legal (R84). -/
theorem answered_withTable {i : Instr} {run : State → Result} {s : State} (hrun : Answered i s (run s)) :
    Answered i s (withTable run s) := by
  rcases withTable_cases run s with ⟨-, he⟩ | ⟨hrom, he⟩ <;> rw [he]
  · exact hrun
  · exact .refused _ (by simp [hrom])

theorem answered_execCodeOf (c : Byte) (s : State) : Answered (.codeOf c) s (execCodeOf c s) := by
  refine answered_withTable ?_
  rcases codeOf_cases s.rom c with ⟨e, -, -, he⟩ | ⟨-, he⟩ <;> simp only [he]
  · exact .next (responds_respond (.codeOf _ _))
  · exact answered_answer _ .unknownSymbol s

theorem answered_execBitlenOf (c : Byte) (s : State) : Answered (.bitlenOf c) s (execBitlenOf c s) := by
  refine answered_withTable ?_
  rcases codeOf_cases s.rom c with ⟨e, -, -, he⟩ | ⟨-, he⟩ <;> simp only [he]
  · exact .next (responds_respond (.bitlenOf _))
  · exact answered_answer _ .unknownSymbol s

theorem answered_execSymbolOf (len : LenField) (data : DataField) (s : State) :
    Answered (.symbolOf len data) s (execSymbolOf len data s) := by
  refine answered_withTable ?_
  rcases symOf_cases s.rom data len with ⟨e, -, -, he⟩ | ⟨-, he⟩ <;> simp only [he]
  · exact .next (responds_respond (.symbolOf e.sym))
  · exact answered_answer _ .unknownCode s

theorem answered_nextCodeword (s : State) : Answered .next s (nextCodeword s) := by
  rcases nextCodeword_cases s with ⟨hmax, he⟩ | ⟨-, -, he⟩ | ⟨-, -, he⟩ <;> rw [he]
  · exact .refused _ (by simp [hmax])
  · exact .next (responds_skipPadding .next s)
  · exact .next (responds_unpack s.decMaxW freshTemps s)

/-- Every command answers a response of its own, unless it refuses illegal parameters (R61, R67). -/
theorem answered_exec (i : Instr) (s : State) : Answered i s (exec i s) := by
  cases i with
  | startEnc | startDec =>
    simp only [exec, execStartEnc, execStartDec]
    exact answered_inMode (.next (responds_respond (.bare .ok)))
  | append len data => exact answered_ifWellFormed (answered_inPass (.next (responds_appendBits _ data len.toNat s)))
  | flush => exact answered_inPass (.next (responds_flushBuf .flush s))
  | next => exact answered_inPass (answered_nextCodeword s)
  | endPass => exact .next (responds_respond (.bare .ok))
  | codeOf c => exact answered_execCodeOf c s
  | bitlenOf c => exact answered_execBitlenOf c s
  | symbolOf len data => exact answered_execSymbolOf len data s
  | status => exact .next (responds_respond (.status _))

theorem responds_of_exec {i : Instr} {s t : State} (h : exec i s = .next t) : Responds i t := by
  have hans := answered_exec i s
  rw [h] at hans
  cases hans with
  | next hresp => exact hresp

/-- With legal parameters every command answers (R67). -/
theorem exec_answers {s : State} (hp : ParamsLegal s) (i : Instr) : ∃ t r, exec i s = .next t ∧ t.rsp = some r := by
  have hans := answered_exec i s
  generalize exec i s = o at hans
  cases hans with
  | next hresp =>
    obtain ⟨r, hr, -⟩ := hresp
    exact ⟨_, r, rfl, hr⟩
  | refused _ hill => exact absurd hp hill

/-- With legal parameters every word is answered (R65, R67). -/
theorem runWord_answers {s : State} (hp : ParamsLegal s) (w : CmdWord) :
    ∃ t r, runWord w s = .next t ∧ t.rsp = some r := by
  rcases runWord_cases w s with ⟨i, -, hrun⟩ | ⟨e, -, hrun⟩ <;> rw [hrun]
  · exact exec_answers hp i
  · exact ⟨_, _, rfl, rfl⟩

/-- Settles O14: a word is answered, also where a reset then cuts it short, and the host's other actions always succeed. -/
theorem everyStepAnswers : Obligations.EveryStepAnswers := by
  unfold Obligations.EveryStepAnswers
  intro s hp
  cases hhost : s.host with
  | nil => exact ⟨s, by simp [step, hostTurn, hhost], by simp⟩
  | cons a rest =>
    have hrest : ParamsLegal (s.setHost rest) := hp
    cases a with
    | command w =>
      obtain ⟨t, r, hrun, hr⟩ := runWord_answers hrest w
      exact ⟨t, (step_of_host_command hhost).trans hrun, fun _ _ _ => ⟨r, hr⟩⟩
    | resetDuring w n =>
      obtain ⟨t, r, hrun, -⟩ := runWord_answers hrest w
      exact ⟨abandon n (s.setHost rest) t, by simp [step, hostTurn, hhost, runCut, hrun], by simp⟩
    | reset | bindSink | bindSource => exact ⟨_, by rw [step, hostTurn, hhost], by simp⟩

/-- Settles O19: a response is built from its fields, and the fields of each kind of response are as R61 says. -/
theorem responseFormat : Obligations.ResponseFormat := by
  unfold Obligations.ResponseFormat
  intro i s t h
  obtain ⟨r, hr, hresp⟩ := responds_of_exec h
  refine ⟨r, hr, ?_⟩
  cases hresp with
  | bare st => simp
  | codeword l d => simp [statusCode]
  | codeOf l d => simp [statusCode]
  | bitlenOf l => simp [statusCode]
  | symbolOf c =>
    simpa [statusCode] using Nat.lt_of_le_of_lt (Nat.mod_le _ _) c.isLt
  | status d => simp [statusCode]

end Sys2Proof.Machine
end

section
/-! Codewords of a legal table as bit sequences: each is delimited by its own first `00` (spec/41_symbol_table.md R84, R85). -/

namespace Sys2Proof.Machine

open Sys2Proof.Safety

/-- Two zeros in the bits of a value are two zero bits of the value (R11). -/
theorem zerosAt_bitsOf_iff {n L j : Nat} (v : BitVec n) (hj : j + 1 < L) :
    ZerosAt (bitsOf v L) j ↔ v.getLsbD (L - 1 - j) = false ∧ v.getLsbD (L - 2 - j) = false := by
  have hnext : L - 1 - (j + 1) = L - 2 - j := by omega
  rw [ZerosAt, bitsOf_getElem? _ _ _ (by omega), bitsOf_getElem? _ _ _ hj, hnext, Option.some.injEq, Option.some.injEq]

/-- Two zeros within a sequence do not depend on what follows it. -/
theorem zerosAt_append_iff {bits : List Bool} {j : Nat} (hj : j + 1 < bits.length) (rest : List Bool) :
    ZerosAt (bits ++ rest) j ↔ ZerosAt bits j := by
  rw [ZerosAt, List.getElem?_append_left (by omega), List.getElem?_append_left hj]

/-- Whatever follows a framed sequence, the first `00` ends at its last bit (R85 (b)). -/
theorem framed_first_zeros {bits : List Bool} (h : Framed bits) (rest : List Bool) :
    ZerosAt (bits ++ rest) (bits.length - 2) ∧ ∀ j < bits.length - 2, ¬ ZerosAt (bits ++ rest) j := by
  obtain ⟨-, hlen, hend, hfirst⟩ := h
  refine ⟨(zerosAt_append_iff (by omega) rest).2 hend, fun j hj hz => hfirst j hj ?_⟩
  exact (zerosAt_append_iff (by omega) rest).1 hz

/-- A framed sequence that starts another is the other: each ends at the first `00` (R85 (a)). -/
theorem eq_of_prefix_of_framed {a b : List Bool} (ha : Framed a) (hb : Framed b) (h : a <+: b) : a = b := by
  obtain ⟨rest, rfl⟩ := h
  have hzeros := (framed_first_zeros ha rest).1
  obtain ⟨-, hlen, -, -⟩ := ha
  obtain ⟨-, -, -, hfirst⟩ := hb
  have hle : ¬ a.length - 2 < (a ++ rest).length - 2 := fun hlt => hfirst _ hlt hzeros
  have hnil : rest = [] := List.eq_nil_of_length_eq_zero (by rw [List.length_append] at hle; omega)
  rw [hnil, List.append_nil]

@[simp] theorem entryBits_length (e : RomEntry) : (entryBits e).length = e.len.toNat := bitsOf_length _ _

/-- The codeword of a legal entry is framed: T3 is its first bit, T4 its last two, T5 the bits between (R84). -/
theorem framed_entryBits {e : RomEntry} (h : entryLegal e = true) : Framed (entryBits e) := by
  obtain ⟨⟨hlen, -⟩, -, htop, ⟨h1, h0⟩, hinner⟩ := (entryLegal_iff e).1 h
  rw [Framed, entryBits_length, entryBits]
  refine ⟨?_, hlen, ?_, fun j hj hz => ?_⟩
  · rw [List.head?_eq_getElem?, bitsOf_getElem? _ _ _ (by omega), Nat.sub_zero, htop]
  · have hbit1 : e.len.toNat - 1 - (e.len.toNat - 2) = 1 := by omega
    rw [zerosAt_bitsOf_iff _ (by omega), hbit1, Nat.sub_self]
    exact ⟨h1, h0⟩
  · have hnext : e.len.toNat - 1 - j = e.len.toNat - 2 - j + 1 := by omega
    rw [zerosAt_bitsOf_iff _ (by omega), hnext] at hz
    exact hinner _ (by omega) (by omega) hz

/-- Values below 2^L that spell the same L bits are equal (R11). -/
theorem eq_of_bitsOf_of_lt {n L : Nat} {v u : BitVec n} (hv : v.toNat < 2 ^ L) (hu : u.toNat < 2 ^ L)
    (h : bitsOf v L = bitsOf u L) : v = u := by
  refine BitVec.eq_of_getLsbD_eq fun j _ => ?_
  by_cases hj : j < L
  · have hbit := congrArg (·[L - 1 - j]?) h
    have hidx : L - 1 - (L - 1 - j) = j := by omega
    simpa [bitsOf_getElem? _ L (L - 1 - j) (by omega), hidx] using hbit
  · have hle : 2 ^ L ≤ 2 ^ j := Nat.pow_le_pow_right (by decide) (by omega)
    rw [BitVec.getLsbD, BitVec.getLsbD, Nat.testBit_lt_two_pow (by omega), Nat.testBit_lt_two_pow (by omega)]

/-- Two entries of a legal table that spell the same codeword are the same entry (T2, T6). -/
theorem entry_unique_bits {t : List RomEntry} (h : tableLegal t = true) {e f : RomEntry} (he : e ∈ t) (hf : f ∈ t)
    (hbits : entryBits e = entryBits f) : e = f := by
  have hlen : e.len.toNat = f.len.toNat := by simpa using congrArg List.length hbits
  obtain ⟨-, hve, -⟩ := (entryLegal_iff e).1 (entryLegal_of_mem h he)
  obtain ⟨-, hvf, -⟩ := (entryLegal_iff f).1 (entryLegal_of_mem h hf)
  rw [entryBits, entryBits, hlen] at hbits
  rw [hlen] at hve
  exact entry_unique_code h he hf (eq_of_bitsOf_of_lt hve hvf hbits) (BitVec.eq_of_toNat_eq hlen)

/-- The only legal codeword of 3 bits is `100`: T3 and T4 give every bit (R85 (c)). -/
theorem val_of_len_three {e : RomEntry} (h : entryLegal e = true) (hlen : e.len.toNat = 3) : e.val = 0x4 := by
  obtain ⟨-, hlt, htop, ⟨h1, h0⟩, -⟩ := (entryLegal_iff e).1 h
  rw [hlen] at hlt htop
  have h2 : e.val.getLsbD 2 = true := htop
  exact eq_of_bitsOf_of_lt hlt (by decide) (by simp only [bitsOf, h2, h1, h0]; decide)

/-- The only legal codeword of 4 bits is `1100`: T3 and T4 give three bits, and T5 the other one (R85 (c)). -/
theorem val_of_len_four {e : RomEntry} (h : entryLegal e = true) (hlen : e.len.toNat = 4) : e.val = 0xC := by
  obtain ⟨-, hlt, htop, ⟨h1, h0⟩, hinner⟩ := (entryLegal_iff e).1 h
  rw [hlen] at hlt htop
  have h3 : e.val.getLsbD 3 = true := htop
  have h2 : e.val.getLsbD 2 = true := by
    have hpair := hinner 1 (by omega) (by omega)
    rw [not_and_or, Bool.not_eq_false] at hpair
    exact hpair.resolve_right (· h1)
  exact eq_of_bitsOf_of_lt hlt (by decide) (by simp only [bitsOf, h3, h2, h1, h0]; decide)

/-- Settles O37: every codeword is framed, and a framed sequence is delimited by its own first `00`. -/
theorem codewordsAreSelfDelimiting : Obligations.CodewordsAreSelfDelimiting := by
  unfold Obligations.CodewordsAreSelfDelimiting
  intro t ht e he
  have hlegal := entryLegal_of_mem ht he
  have hframed := framed_entryBits hlegal
  refine ⟨fun f hf hpre => ?_, fun rest => ?_, val_of_len_three hlegal, val_of_len_four hlegal, hframed.1⟩
  · exact entry_unique_bits ht he hf (eq_of_prefix_of_framed hframed (framed_entryBits (entryLegal_of_mem ht hf)) hpre)
  · simpa using framed_first_zeros hframed rest

end Sys2Proof.Machine
end

section
/-! The symbol-table lookups CODE_OF, BITLEN_OF and SYMBOL_OF (spec/41_symbol_table.md R82 to R90), and the commands that refuse
an illegal parameter (R84, spec/00_scope.md R5). -/

namespace Sys2Proof.Machine

open Sys2Proof.Safety

/-! ### Illegal parameters -/

theorem withTable_of_legal {s : State} (run : State → Result) (h : tableLegal s.rom = true) : withTable run s = run s :=
  if_pos h

theorem withTable_of_illegal {s : State} (run : State → Result) (h : tableLegal s.rom = false) :
    withTable run s = .refused .illegalCodeTable := if_neg (by simp [h])

/-- Settles O15: the lookups check the table first, and NEXT checks `DEC_MAX_W` once its mode and `failed` checks have passed. -/
theorem illegalParametersAreRefused : Obligations.IllegalParametersAreRefused := by
  unfold Obligations.IllegalParametersAreRefused
  intro s c l d
  refine ⟨fun h => ⟨?_, ?_, ?_⟩, fun hm hf hmax => ?_⟩
  · rw [exec, execCodeOf, withTable_of_illegal _ h]
  · rw [exec, execBitlenOf, withTable_of_illegal _ h]
  · rw [exec, execSymbolOf, withTable_of_illegal _ h]
  · have hillegal : decMaxWLegal s.decMaxW = false := by
      simp only [decMaxWLegal, Bool.and_eq_false_iff, decide_eq_false_iff_not]; omega
    simp [exec, execNext, inPass, inMode, unlessFailed, hm, hf, nextCodeword, hillegal]

/-! ### The two directions of the table -/

/-- The alphabet as a range of bytes is the alphabet as a list (R81). -/
theorem inAlphabet_iff (c : Byte) : InAlphabet c ↔ alphabet.contains c = true := by
  rw [mem_alphabet_iff, InAlphabet, BitVec.toNat_eq, BitVec.toNat_eq]
  simp only [BitVec.ofNat_eq_ofNat, BitVec.toNat_ofNat]
  omega

/-- Every symbol of the alphabet has an entry in a legal table (T0). -/
theorem exists_entry_of_inAlphabet {t : List RomEntry} (h : tableLegal t = true) {c : Byte} (hc : InAlphabet c) :
    ∃ e ∈ t, e.sym = c := by
  obtain ⟨-, -, -, hall⟩ := (tableT0_iff t).1 ((tableLegal_iff t).1 h).1
  exact hall c ((inAlphabet_iff c).1 hc)

/-- A legal table has entries for symbols of the alphabet only (T0). -/
theorem inAlphabet_of_mem {t : List RomEntry} (h : tableLegal t = true) {e : RomEntry} (he : e ∈ t) : InAlphabet e.sym := by
  obtain ⟨-, -, honly, -⟩ := (tableT0_iff t).1 ((tableLegal_iff t).1 h).1
  exact (inAlphabet_iff e.sym).2 (honly e he)

theorem codeOf_of_mem {t : List RomEntry} (h : tableLegal t = true) {e : RomEntry} (he : e ∈ t) :
    codeOf t e.sym = some e := by
  rcases codeOf_cases t e.sym with ⟨f, hf, hsym, hc⟩ | ⟨hnone, -⟩
  · rw [hc, entry_unique_sym h hf he hsym]
  · exact absurd rfl (hnone e he)

theorem codeOf_of_not_inAlphabet {t : List RomEntry} (h : tableLegal t = true) {c : Byte} (hc : ¬ InAlphabet c) :
    codeOf t c = none := by
  rcases codeOf_cases t c with ⟨e, he, rfl, -⟩ | ⟨-, hnone⟩
  · exact absurd (inAlphabet_of_mem h he) hc
  · exact hnone

/-- An entry's codeword as the numbers of the two operand fields (R88). -/
theorem entryCode_eq_iff (e : RomEntry) (v : DataField) (l : LenField) :
    (entryData e = v ∧ entryLen e = l) ↔ (e.val.toNat = v.toNat ∧ e.len.toNat = l.toNat) := by
  have hval := e.val.isLt
  have hlen := e.len.isLt
  rw [BitVec.toNat_eq, BitVec.toNat_eq, entryData, entryLen, BitVec.toNat_setWidth, BitVec.toNat_setWidth,
    Nat.mod_eq_of_lt (by omega), Nat.mod_eq_of_lt (by omega)]

theorem symOf_of_mem {t : List RomEntry} (h : tableLegal t = true) {e : RomEntry} (he : e ∈ t) :
    symOf t (entryData e) (entryLen e) = some e := by
  rcases symOf_cases t (entryData e) (entryLen e) with ⟨f, hf, hcode, hs⟩ | ⟨hnone, -⟩
  · obtain ⟨hval, hlen⟩ := (entryCode_eq_iff f _ _).1 hcode
    obtain ⟨hval', hlen'⟩ := (entryCode_eq_iff e _ _).1 ⟨rfl, rfl⟩
    rw [hs, entry_unique_code h hf he (BitVec.eq_of_toNat_eq (hval.trans hval'.symm))
      (BitVec.eq_of_toNat_eq (hlen.trans hlen'.symm))]
  · exact absurd ⟨rfl, rfl⟩ (hnone e he)

theorem symOf_eq_none {t : List RomEntry} {v : DataField} {l : LenField}
    (h : ∀ e ∈ t, ¬ (e.val.toNat = v.toNat ∧ e.len.toNat = l.toNat)) : symOf t v l = none := by
  rcases symOf_cases t v l with ⟨e, he, hcode, -⟩ | ⟨-, hnone⟩
  · exact absurd ((entryCode_eq_iff e v l).1 hcode) (h e he)
  · exact hnone

/-- The two entries every legal table has (R83). -/
theorem known_mem {t : List RomEntry} (h : tableLegal t = true) :
    (⟨0x41, 0x2C, 6⟩ : RomEntry) ∈ t ∧ (⟨0x0A, 0x56C, 11⟩ : RomEntry) ∈ t := by
  obtain ⟨-, -, -, hknown⟩ := (tableLegal_iff t).1 h
  simpa [tableKnown] using hknown

/-! ### What the lookups answer -/

section
variable {s : State} (h : tableLegal s.rom = true) {e : RomEntry}
include h

theorem exec_codeOf_of_some {c : Byte} (hc : codeOf s.rom c = some e) :
    exec (.codeOf c) s = .next (respond .ok (entryLen e) (entryData e) s) := by
  simp only [exec, execCodeOf, withTable_of_legal _ h, hc]

theorem exec_codeOf_of_none {c : Byte} (hc : codeOf s.rom c = none) : exec (.codeOf c) s = answer .unknownSymbol s := by
  simp only [exec, execCodeOf, withTable_of_legal _ h, hc]

theorem exec_bitlenOf_of_some {c : Byte} (hc : codeOf s.rom c = some e) :
    exec (.bitlenOf c) s = .next (respond .ok (entryLen e) 0 s) := by
  simp only [exec, execBitlenOf, withTable_of_legal _ h, hc]

theorem exec_bitlenOf_of_none {c : Byte} (hc : codeOf s.rom c = none) : exec (.bitlenOf c) s = answer .unknownSymbol s := by
  simp only [exec, execBitlenOf, withTable_of_legal _ h, hc]

theorem exec_symbolOf_of_some {l : LenField} {v : DataField} (hc : symOf s.rom v l = some e) :
    exec (.symbolOf l v) s = .next (respond .ok 0 (symData e) s) := by
  simp only [exec, execSymbolOf, withTable_of_legal _ h, hc]

theorem exec_symbolOf_of_none {l : LenField} {v : DataField} (hc : symOf s.rom v l = none) :
    exec (.symbolOf l v) s = answer .unknownCode s := by
  simp only [exec, execSymbolOf, withTable_of_legal _ h, hc]

/-- SYMBOL_OF of an entry's codeword, given by the numbers of its operand fields (R88). -/
theorem exec_symbolOf_of_mem {l : LenField} {v : DataField} (he : e ∈ s.rom) (hval : e.val.toNat = v.toNat)
    (hlen : e.len.toNat = l.toNat) : exec (.symbolOf l v) s = .next (respond .ok 0 (symData e) s) := by
  obtain ⟨rfl, rfl⟩ := (entryCode_eq_iff e v l).2 ⟨hval, hlen⟩
  exact exec_symbolOf_of_some h (symOf_of_mem h he)

end

/-! ### The lookups' words -/

/-- A symbol lookup whose word has a bit set in 43:8 is ILLEGAL_COMMAND (R64, R66). -/
theorem runWord_of_strayBits {w : CmdWord} (hop : fieldOf w 44 4 ∈ [7, 8]) (hbits : fieldOf w 8 36 ≠ 0) (s : State) :
    runWord w s = .next { s with rsp := some 0x700000000000 } := by
  refine illegalWordsAreAnswered s w ?_
  simp only [List.mem_cons, List.not_mem_nil, or_false] at hop
  rcases hop with hop | hop <;> simp [FieldsLegal, hop, hbits]

/-- A SYMBOL_OF whose word has a reserved bit set is ILLEGAL_COMMAND (R64, R66). -/
theorem runWord_symbolOf_of_rsv {w : CmdWord} (hop : fieldOf w 44 4 = 9) (hrsv : fieldOf w 38 6 ≠ 0) (s : State) :
    runWord w s = .next { s with rsp := some 0x700000000000 } := by
  refine illegalWordsAreAnswered s w ?_
  simp [FieldsLegal, hop, hrsv]

/-- The number a word with a symbol operand spells (R60, R68). -/
theorem mkCmd_setWidth_toNat (op : BitVec 4) (c : Byte) :
    (mkCmd op 0 (c.setWidth 32)).toNat = op.toNat * 2 ^ 44 + c.toNat := by
  have hc := c.isLt
  rw [mkCmd_toNat, BitVec.toNat_setWidth, Nat.mod_eq_of_lt (by omega)]; simp

/-! ### The statements -/

/-- Settles O31: a legal table has one entry a symbol of the alphabet and no other entries. -/
theorem codeOfLooksUp : Obligations.CodeOfLooksUp := by
  unfold Obligations.CodeOfLooksUp
  intro s c h
  refine ⟨mkCmd_setWidth_toNat 0x7 c, exists_entry_of_inAlphabet h, ?_, fun hc => ?_, fun w hop hbits => ?_⟩
  · rintro e he rfl
    exact exec_codeOf_of_some h (codeOf_of_mem h he)
  · exact exec_codeOf_of_none h (codeOf_of_not_inAlphabet h hc)
  · exact runWord_of_strayBits (by simp [hop]) hbits s

/-- Settles O32: BITLEN_OF finds the entry CODE_OF finds, and reports its length alone. -/
theorem bitlenOfLooksUp : Obligations.BitlenOfLooksUp := by
  unfold Obligations.BitlenOfLooksUp
  intro s c h
  refine ⟨mkCmd_setWidth_toNat 0x8 c, ?_, fun hc => ?_, ?_, fun w hop hbits => ?_⟩
  · rintro e he rfl
    exact exec_bitlenOf_of_some h (codeOf_of_mem h he)
  · exact exec_bitlenOf_of_none h (codeOf_of_not_inAlphabet h hc)
  · rcases codeOf_cases s.rom c with ⟨e, -, -, hc⟩ | ⟨-, hc⟩
    · exact ⟨_, _, exec_codeOf_of_some h hc, exec_bitlenOf_of_some h hc, by simp⟩
    · exact ⟨_, _, exec_codeOf_of_none h hc, exec_bitlenOf_of_none h hc, rfl⟩
  · exact runWord_of_strayBits (by simp [hop]) hbits s

/-- Settles O33: a codeword names one entry (T6), and no entry lies outside T1 and T2. -/
theorem symbolOfLooksUp : Obligations.SymbolOfLooksUp := by
  unfold Obligations.SymbolOfLooksUp
  intro s l v h
  refine ⟨mkCmd_toNat 0x9 l v, fun e he hval hlen => ?_, fun hnone => ?_, fun hout => ?_, fun w hop hrsv => ?_⟩
  · exact exec_symbolOf_of_mem h he hval hlen
  · exact exec_symbolOf_of_none h (symOf_eq_none hnone)
  · refine exec_symbolOf_of_none h (symOf_eq_none fun e he hcode => ?_)
    obtain ⟨hval, hlen⟩ := hcode
    obtain ⟨hT1, hT2, -⟩ := (entryLegal_iff e).1 (entryLegal_of_mem h he)
    rw [hval, hlen] at hT2
    omega
  · exact runWord_symbolOf_of_rsv hop hrsv s

/-- Settles O34: the two entries are in every legal table (R83), and no 7-bit codeword has the value 0x2C, whose bit 6 is
clear (T3). -/
theorem knownCodewords : Obligations.KnownCodewords := by
  unfold Obligations.KnownCodewords
  intro s h
  obtain ⟨hA, hnl⟩ := known_mem h
  refine ⟨exec_codeOf_of_some h (codeOf_of_mem h hA), exec_codeOf_of_some h (codeOf_of_mem h hnl),
    exec_bitlenOf_of_some h (codeOf_of_mem h hnl), exec_symbolOf_of_mem h hA rfl rfl, exec_symbolOf_of_mem h hnl rfl rfl, ?_⟩
  refine exec_symbolOf_of_none h (symOf_eq_none fun e he hcode => ?_)
  obtain ⟨hval, hlen⟩ := hcode
  obtain ⟨-, -, htop, -⟩ := (entryLegal_iff e).1 (entryLegal_of_mem h he)
  have hv : e.val = 0x2C := BitVec.eq_of_toNat_eq hval
  rw [hv, hlen] at htop
  exact absurd htop (by decide)

/-- Settles O35: CODE_OF answers the symbol's entry, whose codeword names that entry. -/
theorem lookupsAreInverse : Obligations.LookupsAreInverse := by
  unfold Obligations.LookupsAreInverse
  intro s c h hc
  obtain ⟨e, he, rfl⟩ := exists_entry_of_inAlphabet h hc
  refine ⟨rspWord .ok (entryLen e) (entryData e), exec_codeOf_of_some h (codeOf_of_mem h he), rspStatusBits_rspWord _ _ _, ?_⟩
  rw [rspLenBits_rspWord, rspDataBits_rspWord]
  exact exec_symbolOf_of_some h (symOf_of_mem h he)

/-- Settles O36: the answer is fixed by what the lookup finds in the ROM. -/
theorem lookupsAreLegalEverywhere : Obligations.LookupsAreLegalEverywhere := by
  unfold Obligations.LookupsAreLegalEverywhere
  intro i s hreads hstatus h
  have hsame {s' : State} (hrom : s'.rom = s.rom) : tableLegal s'.rom = true := hrom ▸ h
  rcases hreads with ⟨c, rfl⟩ | ⟨c, rfl⟩ | ⟨l, v, rfl⟩ | rfl
  · rcases codeOf_cases s.rom c with ⟨e, -, -, hc⟩ | ⟨-, hc⟩
    · exact ⟨rspWord .ok (entryLen e) (entryData e), by simp [statusCode],
        fun s' hrom => exec_codeOf_of_some (hsame hrom) (hrom ▸ hc)⟩
    · exact ⟨rspWord .unknownSymbol 0 0, by decide, fun s' hrom => exec_codeOf_of_none (hsame hrom) (hrom ▸ hc)⟩
  · rcases codeOf_cases s.rom c with ⟨e, -, -, hc⟩ | ⟨-, hc⟩
    · exact ⟨rspWord .ok (entryLen e) 0, by simp [statusCode],
        fun s' hrom => exec_bitlenOf_of_some (hsame hrom) (hrom ▸ hc)⟩
    · exact ⟨rspWord .unknownSymbol 0 0, by decide, fun s' hrom => exec_bitlenOf_of_none (hsame hrom) (hrom ▸ hc)⟩
  · rcases symOf_cases s.rom v l with ⟨e, -, -, hc⟩ | ⟨-, hc⟩
    · exact ⟨rspWord .ok 0 (symData e), by simp [statusCode],
        fun s' hrom => exec_symbolOf_of_some (hsame hrom) (hrom ▸ hc)⟩
    · exact ⟨rspWord .unknownCode 0 0, by decide, fun s' hrom => exec_symbolOf_of_none (hsame hrom) (hrom ▸ hc)⟩
  · exact absurd rfl hstatus

end Sys2Proof.Machine
end

section
/-! APPEND over a whole value (spec/42_write_path.md R100, R101): what a run of the write path has put into the sink and the
buffer, and the two ways in which APPEND's loop ends. -/

namespace Sys2Proof.Machine

open Sys2Proof.Safety

/-- A write that leaves `eos`, `mode`, the parameters, the source and the host alone can change the other five fields only. -/
theorem WriteFrame.eq_with {s t : State} (h : WriteFrame s t) :
    t = { s with acc := t.acc, cnt := t.cnt, failed := t.failed, sink := t.sink, rsp := t.rsp } :=
  State.eq_of_fields rfl rfl h.eos rfl h.mode h.rom h.decMaxW rfl h.source rfl h.host

/-- The checks of an open pass that has not failed let the command run (R177). -/
theorem inPass_of_open {m : Mode} {s : State} (run : State → Result) (hm : s.mode = m) (hf : s.failed = false) :
    inPass m run s = run s := by
  simp [inPass, inMode, unlessFailed, hm, hf]

/-! ### Packing -/

/-- `Packs s bits out t`: on the way from `s` to `t` the write path took in `bits` and wrote the bytes `out`, each answered
`Ok`. The bits written and the bits still held are those held before and then `bits`, in order (R23, R101). -/
structure Packs (s : State) (bits : List Bool) (out : List Byte) (t : State) : Prop where
  frame : WriteFrame s t
  failed : t.failed = s.failed
  bytes : t.sink.bytes = s.sink.bytes ++ out
  oracle : t.sink.oracle = s.sink.oracle.skip out.length
  answers : SinkOk out.length s
  accLt : s.acc.toNat < 2 ^ s.cnt.val → t.acc.toNat < 2 ^ t.cnt.val
  stream : streamBits out ++ heldBits t = heldBits s ++ bits

namespace Packs

variable {s t u : State} {a b bits : List Bool} {out outA outB : List Byte}

theorem refl (s : State) : Packs s [] [] s :=
  ⟨⟨rfl, rfl, rfl, rfl, rfl, rfl⟩, rfl, by simp, rfl, by simp [SinkOk], id, by simp⟩

/-- The sink's answers to come after a packing are its later answers. -/
theorem sinkAnswerAt_eq (h : Packs s bits out t) (n : Nat) :
    sinkAnswerAt t.sink n = sinkAnswerAt s.sink (out.length + n) := by
  have hanswer := sinkAnswer_skip t.sink.bytes s.sink.bytes s.sink.oracle out.length n
  rwa [← h.oracle] at hanswer

theorem trans (h : Packs s a outA t) (k : Packs t b outB u) : Packs s (a ++ b) (outA ++ outB) u where
  frame := h.frame.trans k.frame
  failed := k.failed.trans h.failed
  bytes := by rw [k.bytes, h.bytes, List.append_assoc]
  oracle := by rw [k.oracle, h.oracle, Oracle.skip_skip, List.length_append]
  answers n hn := by
    rcases Nat.lt_or_ge n outA.length with hlt | hge
    · exact h.answers n hlt
    · have hlater := k.answers (n - outA.length) (by rw [List.length_append] at hn; omega)
      rwa [h.sinkAnswerAt_eq, Nat.add_sub_cancel' hge] at hlater
  accLt := k.accLt ∘ h.accLt
  stream := by rw [streamBits_append, List.append_assoc, k.stream, ← List.append_assoc, h.stream, List.append_assoc]

/-- A response is no part of what was packed. -/
theorem respond (h : Packs s bits out t) (st : Status) (l : LenField) (d : DataField) :
    Packs s bits out (respond st l d t) :=
  ⟨h.frame.trans (writeFrame_respond st l d t), h.failed, h.bytes, h.oracle, h.answers, h.accLt, h.stream⟩

/-- No bit is lost and none is added (R101). -/
theorem length_eq (h : Packs s bits out t) : 8 * out.length + t.cnt.val = s.cnt.val + bits.length := by
  simpa using congrArg List.length h.stream

/-- The sink's answers that the packing has not used up are still to come. -/
theorem sinkOk (h : Packs s bits out t) {n : Nat} (hok : SinkOk (out.length + n) s) : SinkOk n t :=
  fun k hk => (h.sinkAnswerAt_eq k).trans (hok _ (Nat.add_lt_add_left hk _))

/-- Both writing commands can run on where they could run before. -/
theorem canWrite (h : Packs s bits out t) (hs : CanWrite s) : CanWrite t :=
  ⟨h.frame.mode.trans hs.1, h.failed.trans hs.2⟩

end Packs

theorem packs_pushBit (b : Bool) {s : State} (hc : s.cnt.val < 8) : Packs s [b] [] (pushBit b s) where
  frame := writeFrame_pushBit b s
  failed := rfl
  bytes := by simp
  oracle := rfl
  answers := by simp [SinkOk]
  accLt := pushBit_acc_lt b s hc
  stream := by simp [heldBits_pushBit b s hc]

@[simp] theorem heldBits_emptyBuf (s : State) : heldBits (emptyBuf s) = [] := rfl

/-- A byte written and the buffer emptied: the byte takes the place of the bits it spells (R100, R102). -/
theorem packs_write {s : State} {b : Byte} {bits : List Bool} (hok : sinkAnswerAt s.sink 0 = .ok)
    (hbits : bitsOf b 8 = heldBits s ++ bits) :
    Packs s bits [b] (emptyBuf (s.setSink ⟨s.sink.bytes ++ [b], s.sink.oracle.skip 1⟩)) where
  frame := (writeFrame_setSink s _).trans (writeFrame_emptyBuf _)
  failed := rfl
  bytes := rfl
  oracle := rfl
  answers n hn := by rwa [Nat.lt_one_iff.1 hn]
  accLt _ := by simp
  stream := by simp only [streamBits_cons, streamBits_nil, hbits, heldBits_emptyBuf, List.append_nil]

/-- The bits held in a full buffer are those of the byte in it. -/
theorem heldBits_of_full {s : State} (hc : s.cnt = 8) : heldBits s = bitsOf s.acc 8 := by
  simp [heldBits, hc]

/-- A successful emit packs no bits: at most it moves a byte from the buffer to the sink (R100). -/
theorem packs_emitFull {s t : State} (h : emitFull s = (.ok, t)) : ∃ out, Packs s [] out t := by
  rcases emitFull_cases s with ⟨-, he⟩ | ⟨hc, ha, he⟩ | ⟨-, -, he⟩ | ⟨-, -, he⟩ <;> rw [he] at h <;> cases h
  · exact ⟨[], .refl s⟩
  · exact ⟨[s.acc], packs_write ha (by simp [heldBits_of_full hc])⟩

/-! ### The two ends of APPEND's loop -/

/-- The sink after it has refused byte `b`, which it holds or not as it chose (R42; notes/assumptions/6.md). -/
def Sink.refuse (k : Sink) (b : Byte) : Sink :=
  ⟨k.bytes ++ (if sinkAnswerAt k 0 = .errStored then [b] else []), k.oracle.skip 1⟩

/-- An emit fails only if the sink refuses the full byte (R100). -/
theorem emitFull_err {s t : State} (h : emitFull s = (.err, t)) :
    s.cnt = 8 ∧ sinkAnswerAt s.sink 0 ≠ .ok ∧ t = s.setSink (s.sink.refuse s.acc) := by
  rcases emitFull_cases s with ⟨-, he⟩ | ⟨-, -, he⟩ | ⟨hc, ha, he⟩ | ⟨hc, ha, he⟩ <;> rw [he] at h <;> cases h
  · exact ⟨hc, by simp [ha], by simp [Sink.refuse, ha]⟩
  · exact ⟨hc, by simp [ha], by simp [Sink.refuse, ha]⟩

/-- `AppendRun s bits t`: APPEND's loop over `bits` takes `s` to `t` (R100). Either all bits are packed, and the buffer is empty
only if there was nothing to hold; or some are still to come when the sink refuses a full byte. -/
inductive AppendRun (s : State) (bits : List Bool) : State → Prop
  | done {t : State} {out : List Byte} : Packs s bits out t → (t.cnt = 0 → bits = [] ∧ s.cnt = 0) →
      AppendRun s bits (respond .ok 0 0 t)
  | refused {t : State} {out : List Byte} {taken rest : List Bool} : Packs s taken out t → bits = taken ++ rest →
      rest ≠ [] → t.cnt = 8 → sinkAnswerAt t.sink 0 ≠ .ok → AppendRun s bits (fatal .ioError (t.setSink (t.sink.refuse t.acc)))

/-- A run over the later bits, after a round that packed the first. -/
theorem AppendRun.cons {s t u : State} {b : Bool} {bits : List Bool} {out : List Byte} (h : Packs s [b] out t)
    (hc : t.cnt ≠ 0) (hrun : AppendRun t bits u) : AppendRun s (b :: bits) u := by
  cases hrun with
  | done hp hempty => exact .done (h.trans hp) fun hz => absurd (hempty hz).2 hc
  | refused hp hbits hrest h8 hans => exact .refused (h.trans hp) (by simp [hbits]) hrest h8 hans

theorem appendRun_appendBits (v : DataField) (n : Nat) (s : State) : AppendRun s (bitsOf v n) (appendBits v n s) := by
  induction n generalizing s with
  | zero => exact .done (.refl s) fun hz => ⟨rfl, hz⟩
  | succ i ih =>
    rcases appendBits_succ v i s with ⟨t, he, hrun⟩ | ⟨t, he, hrun⟩ <;> rw [hrun]
    · obtain ⟨out, hemit⟩ := packs_emitFull he
      have hroom : t.cnt.val < 8 := (emitFull_ok he).2
      refine .cons (hemit.trans (packs_pushBit (v.getLsbD i) hroom)) (fun hz => ?_) (ih _)
      have hval : t.cnt.val + 1 = 0 := (cntUp_val t.cnt hroom).symm.trans (congrArg Fin.val hz)
      omega
    · obtain ⟨h8, hans, rfl⟩ := emitFull_err he
      exact .refused (.refl s) rfl (List.cons_ne_nil _ _) h8 hans

theorem bitsOf_ne_nil {n L : Nat} (v : BitVec n) (h : 1 ≤ L) : bitsOf v L ≠ [] :=
  List.ne_nil_of_length_pos (by rwa [bitsOf_length])

/-- Past its checks an APPEND of a legal length runs the loop (R100). -/
theorem exec_append_run {s : State} {l : LenField} (v : DataField) (hs : CanWrite s) (h1 : 1 ≤ l.toNat)
    (h32 : l.toNat ≤ 32) : ∃ t, exec (.append l v) s = .next t ∧ AppendRun s (bitsOf v l.toNat) t := by
  obtain ⟨hm, hf⟩ := hs
  refine ⟨_, ?_, appendRun_appendBits v l.toNat s⟩
  exact (exec_append_of_wellFormed ((wellFormed_append_iff l v).2 ⟨h1, h32⟩) s).trans (inPass_of_open _ hm hf)

/-- A byte is written only to make room for a bit (R100): of the bits in, all but the last 1 to 8 are written. -/
theorem Packs.counts {s t : State} {bits : List Bool} {out : List Byte} (h : Packs s bits out t) (hc : t.cnt ≠ 0) :
    out.length = (s.cnt.val + bits.length - 1) / 8 ∧ t.cnt.val = (s.cnt.val + bits.length - 1) % 8 + 1 := by
  have hlen := h.length_eq
  have hle := t.cnt.isLt
  have hpos : t.cnt.val ≠ 0 := fun hz => hc (Fin.ext hz)
  omega

/-- A refusal falls on one of the writes that the bits call for. -/
theorem Packs.refused_lt {s t : State} {taken rest : List Bool} {out : List Byte} (h : Packs s taken out t)
    (hrest : rest ≠ []) (hc : t.cnt = 8) : out.length < (s.cnt.val + (taken ++ rest).length - 1) / 8 := by
  have hlen := h.length_eq
  have hpos := List.length_pos_iff.2 hrest
  have h8 : t.cnt.val = 8 := congrArg Fin.val hc
  rw [List.length_append]
  omega

/-- An APPEND whose writes are answered `Ok` packs its bits and holds at least the last (R101). -/
theorem exec_append_packs {s : State} {l : LenField} (v : DataField) (hs : CanWrite s) (h1 : 1 ≤ l.toNat)
    (h32 : l.toNat ≤ 32) (hok : SinkOk ((s.cnt.val + l.toNat - 1) / 8) s) :
    ∃ t out, exec (.append l v) s = .next t ∧ t.rsp = some (rspWord .ok 0 0) ∧ t.cnt ≠ 0 ∧
      Packs s (bitsOf v l.toNat) out t := by
  obtain ⟨t, hexec, hrun⟩ := exec_append_run v hs h1 h32
  cases hrun with
  | done hp hempty =>
    exact ⟨_, _, hexec, rfl, fun hz => bitsOf_ne_nil v h1 (hempty hz).1, hp.respond .ok 0 0⟩
  | @refused t out taken rest hp hbits hrest h8 hans =>
    have hlt := hp.refused_lt hrest h8
    rw [← hbits, bitsOf_length] at hlt
    exact absurd ((hp.sinkAnswerAt_eq 0).trans (hok _ hlt)) hans

/-- Settles O38: with every write answered `Ok` the loop packs all bits, and the counts follow from the lengths. -/
theorem appendEffect : Obligations.AppendEffect := by
  unfold Obligations.AppendEffect
  intro s l v hs hacc h1 h32 hok
  obtain ⟨t, out, hexec, hrsp, hc, hp⟩ := exec_append_packs v hs h1 h32 hok
  obtain ⟨hout, hcnt⟩ := hp.counts hc
  rw [bitsOf_length] at hout hcnt
  have hstate := hp.frame.eq_with
  rw [hp.failed, hrsp] at hstate
  exact ⟨t, out, hexec, hstate, hp.bytes, hout, hp.oracle, hcnt, hp.accLt hacc, hp.stream⟩

/-- Settles O39: the loop ends at the first write that is not answered `Ok`, and the refused byte holds the bits next in
order. -/
theorem appendSinkError : Obligations.AppendSinkError := by
  unfold Obligations.AppendSinkError
  intro s l v k hs h1 h32 hk hok herr
  obtain ⟨_, hexec, hrun⟩ := exec_append_run v hs h1 h32
  cases hrun with
  | done hp hempty =>
    obtain ⟨hout, -⟩ := hp.counts fun hz => bitsOf_ne_nil v h1 (hempty hz).1
    rw [bitsOf_length] at hout
    exact absurd (hp.answers k (hout ▸ hk)) herr
  | @refused t out taken rest hp hbits hrest h8 hans =>
    have hanswer : sinkAnswerAt t.sink 0 = sinkAnswerAt s.sink out.length := hp.sinkAnswerAt_eq 0
    have hlen : out.length = k := by
      rcases Nat.lt_trichotomy out.length k with hlt | heq | hgt
      · exact absurd (hanswer.trans (hok _ hlt)) hans
      · exact heq
      · exact absurd (hp.answers k hgt) herr
    subst hlen
    refine ⟨_, out, t.acc, hexec, ?_, ?_, ?_, rfl, ?_⟩
    · exact ((hp.frame.trans (writeFrame_setSink t _)).trans (writeFrame_fatal .ioError _)).eq_with
    · rw [fatal_sink, State.setSink_sink, Sink.refuse, hp.bytes, hanswer]
    · rw [fatal_sink, State.setSink_sink, Sink.refuse, hp.oracle, Oracle.skip_skip]
    · rw [hbits, streamBits_append, ← List.append_assoc, ← hp.stream, heldBits_of_full h8]
      simp

end Sys2Proof.Machine
end

section
/-! FLUSH (spec/42_write_path.md R102), and a whole encode pass (R103). -/

namespace Sys2Proof.Machine

open Sys2Proof.Safety

/-! ### The padded byte -/

theorem bitsOf_zero {n : Nat} (L : Nat) : bitsOf 0#n L = List.replicate L false := by
  induction L with
  | zero => rfl
  | succ L ih => rw [bitsOf, ih, List.replicate_succ, BitVec.getLsbD_zero]

/-- The low bits of a value, shifted up within its width, are followed by zeros. -/
theorem bitsOf_shiftLeft {n : Nat} (v : BitVec n) {c p : Nat} (h : c + p ≤ n) :
    bitsOf (v <<< p) (c + p) = bitsOf v c ++ List.replicate p false := by
  induction c with
  | zero =>
    have hlow : ∀ j < p, (v <<< p).getLsbD j = (0#n).getLsbD j := fun j hj => by simp [hj]
    rw [Nat.zero_add, bitsOf_congr _ _ p hlow, bitsOf_zero]; rfl
  | succ c ih =>
    have htop : (v <<< p).getLsbD (c + p) = v.getLsbD c := by
      have hin : c + p < n := by omega
      simp only [BitVec.getLsbD_shiftLeft, hin, Nat.not_lt.2 (Nat.le_add_left p c), decide_true, decide_false, Bool.not_false,
        Bool.true_and, Nat.add_sub_cancel]
    rw [Nat.add_right_comm, bitsOf, htop, ih (by omega)]; rfl

/-- FLUSH's byte spells the held bits and then zeros (R102). -/
theorem bitsOf_paddedByte (s : State) :
    bitsOf (paddedByte s) 8 = heldBits s ++ List.replicate (8 - s.cnt.val) false := by
  have hsum : s.cnt.val + (8 - s.cnt.val) = 8 := by omega
  have hbits := bitsOf_shiftLeft s.acc (Nat.le_of_eq hsum)
  rwa [hsum] at hbits

/-! ### FLUSH -/

/-- Past its checks FLUSH empties the buffer (R102). -/
theorem exec_flush_of_canWrite {s : State} (hs : CanWrite s) : exec .flush s = .next (flushBuf s) :=
  inPass_of_open _ hs.1 hs.2

/-- Settles O41: the four things FLUSH can do exclude each other, and a word with its opcode is FLUSH's or illegal. -/
theorem flushEffect : Obligations.FlushEffect := by
  unfold Obligations.FlushEffect
  refine ⟨rfl, fun s hs => ?_, fun s w hop hw => ?_, fun s => ⟨inPass_of_ne _, inPass_of_failed _⟩⟩
  · rw [exec_flush_of_canWrite hs]
    rcases flushBuf_cases s with ⟨hc, hf⟩ | ⟨hc, ha, hf⟩ | ⟨hc, ha, hf⟩ | ⟨hc, ha, hf⟩ <;> rw [hf]
    · exact ⟨fun _ => rfl, fun h => absurd hc h⟩
    all_goals
      refine ⟨fun h => absurd h hc, fun _ => ⟨paddedByte s, bitsOf_paddedByte s, ?_⟩⟩
      simp only [ha, reduceCtorEq, false_implies, true_implies, and_true, true_and]
      rfl
  · refine illegalWordsAreAnswered s w fun hlegal => hw (BitVec.eq_of_toNat_eq ?_)
    have hzero : fieldOf w 0 44 = 0 := by simpa [FieldsLegal, hop] using hlegal
    have hlt := w.isLt
    rw [fieldOf_eq] at hop hzero
    change w.toNat = 0x400000000000
    omega

/-- FLUSH packs the zeros that fill the last byte, and none if nothing is held (R102). -/
theorem exec_flush_packs {s : State} (hs : CanWrite s) (hok : s.cnt ≠ 0 → sinkAnswerAt s.sink 0 = .ok) :
    ∃ t out, exec .flush s = .next t ∧ t.cnt = 0 ∧ Packs s (List.replicate ((8 - s.cnt.val) % 8) false) out t := by
  rw [exec_flush_of_canWrite hs]
  rcases flushBuf_cases s with ⟨hc, hf⟩ | ⟨hc, ha, hf⟩ | ⟨hc, ha, hf⟩ | ⟨hc, ha, hf⟩ <;> rw [hf]
  · refine ⟨_, [], rfl, hc, ?_⟩
    simpa [hc] using (Packs.refl s).respond .ok 0 0
  · have hpos : s.cnt.val ≠ 0 := fun hz => hc (Fin.ext hz)
    have hmod : (8 - s.cnt.val) % 8 = 8 - s.cnt.val := Nat.mod_eq_of_lt (by omega)
    rw [hmod]
    exact ⟨_, [paddedByte s], rfl, rfl, (packs_write ha (bitsOf_paddedByte s)).respond .ok 0 0⟩
  · exact absurd (ha.symm.trans (hok hc)) (by decide)
  · exact absurd (ha.symm.trans (hok hc)) (by decide)

/-! ### A whole pass -/

/-- A command that answers is followed by the rest (R50). -/
theorem runAll_cons_of_next {i : Instr} {s t : State} (h : exec i s = .next t) (is : List Instr) :
    runAll (i :: is) s = runAll is t := by
  rw [runAll, h]; rfl

/-- Commands in two parts: the second part runs after the first (R50). -/
theorem runAll_append (is js : List Instr) (s : State) :
    runAll (is ++ js) s = andThen (runAll is s) (runAll js) := by
  induction is generalizing s with
  | nil => rfl
  | cons i is ih =>
    rw [List.cons_append, runAll, runAll]
    cases exec i s with
    | next t => exact ih t
    | fault r => rfl
    | refused r => rfl

/-- The bits that a list of APPENDs appends, in order (R103). -/
def appendedBits (cs : List (LenField × DataField)) : List Bool := cs.flatMap fun c => bitsOf c.2 c.1.toNat

theorem appendedBits_length (cs : List (LenField × DataField)) :
    (appendedBits cs).length = (cs.map fun c => c.1.toNat).sum := by
  simp [appendedBits, List.length_flatMap]

/-- APPENDs of legal lengths pack their values' bits one after the other (R101, R103). -/
theorem runAll_appends_packs {cs : List (LenField × DataField)} {s : State} (hs : CanWrite s)
    (hlegal : ∀ c ∈ cs, 1 ≤ c.1.toNat ∧ c.1.toNat ≤ 32)
    (hok : SinkOk ((s.cnt.val + (appendedBits cs).length) / 8) s) :
    ∃ t out, runAll (cs.map fun c => .append c.1 c.2) s = .next t ∧ Packs s (appendedBits cs) out t := by
  induction cs generalizing s with
  | nil => exact ⟨s, [], rfl, .refl s⟩
  | cons c cs ih =>
    obtain ⟨⟨h1, h32⟩, hlegal'⟩ := List.forall_mem_cons.1 hlegal
    have hbits : appendedBits (c :: cs) = bitsOf c.2 c.1.toNat ++ appendedBits cs := List.flatMap_cons
    rw [hbits, List.length_append, bitsOf_length] at hok
    obtain ⟨t, out, hexec, -, -, hp⟩ := exec_append_packs c.2 hs h1 h32 fun k hk => hok k (by omega)
    have hlen := hp.length_eq
    rw [bitsOf_length] at hlen
    obtain ⟨u, out', hrun, hq⟩ := ih (hp.canWrite hs) hlegal' (hp.sinkOk fun k hk => hok k (by omega))
    exact ⟨u, out ++ out', (runAll_cons_of_next hexec _).trans hrun, hbits ▸ hp.trans hq⟩

/-- START_ENC from IDLE opens an encode pass (R150). -/
theorem exec_startEnc_of_idle {s : State} (hm : s.mode = .idle) :
    exec .startEnc s = .next (respond .ok 0 0 (setPass .enc s)) := if_pos hm

/-- Settles O42: the APPENDs pack their bits and FLUSH the zeros that fill the last byte, after which no bit is held. -/
theorem packingLaw : Obligations.PackingLaw := by
  unfold Obligations.PackingLaw
  intro s cs hm hlegal hok
  rw [← appendedBits_length] at hok ⊢
  obtain ⟨t, outA, hrunA, hA⟩ := runAll_appends_packs (s := respond .ok 0 0 (setPass .enc s)) ⟨rfl, rfl⟩ hlegal
    fun k hk => hok k (by change k < (0 + _) / 8 at hk; omega)
  have hlenA : 8 * outA.length + t.cnt.val = (appendedBits cs).length := by simpa using hA.length_eq
  have hflush (hc : t.cnt ≠ 0) : sinkAnswerAt t.sink 0 = .ok := by
    have hpos : t.cnt.val ≠ 0 := fun hz => hc (Fin.ext hz)
    exact (hA.sinkAnswerAt_eq 0).trans (hok _ (by omega))
  obtain ⟨u, outF, hexec, hcnt, hF⟩ := exec_flush_packs (hA.canWrite ⟨rfl, rfl⟩) hflush
  have hpass := hA.trans hF
  have hlen : 8 * (outA ++ outF).length = (appendedBits cs).length + (8 - t.cnt.val) % 8 := by
    simpa [hcnt] using hpass.length_eq
  have hzeros : 8 * (outA ++ outF).length - (appendedBits cs).length = (8 - t.cnt.val) % 8 := by omega
  refine ⟨u, outA ++ outF, ?_, hpass.bytes, by omega, ?_⟩
  · rw [runAll_cons_of_next (exec_startEnc_of_idle hm), runAll_append, hrunA]
    exact runAll_cons_of_next hexec []
  · change _ = appendedBits cs ++ _
    rw [hzeros]
    simpa [heldBits, hcnt, bitsOf] using hpass.stream

end Sys2Proof.Machine
end

section
/-! Bit sequences as numbers, and the sequences at which NEXT's loop goes on (spec/00_scope.md R11;
spec/43_read_path.md R121). -/

namespace Sys2Proof.Machine

open Sys2Proof.Safety

/-! ### Values -/

theorem valueOf_cons (b : Bool) (bits : List Bool) : valueOf (b :: bits) = 2 ^ bits.length * b.toNat + valueOf bits := by
  induction bits using List.reverseRecOn with
  | nil => simp [valueOf]
  | append_singleton bits c ih =>
    rw [← List.cons_append, valueOf_append_bit, valueOf_append_bit, ih, List.length_append, List.length_singleton,
      Nat.pow_succ]
    ring

/-- The low L bits of a value spell it modulo 2^L (R11). -/
theorem valueOf_bitsOf {n : Nat} (v : BitVec n) (L : Nat) : valueOf (bitsOf v L) = v.toNat % 2 ^ L := by
  induction L with
  | zero => simp [bitsOf, Nat.mod_one]
  | succ L ih => rw [bitsOf, valueOf_cons, ih, bitsOf_length, Nat.mod_pow_succ, ← Nat.toNat_testBit, Nat.add_comm]; rfl

/-- A sequence is read back from the value it spells, in a word that is wide enough (R11). -/
theorem bitsOf_valueOf {n : Nat} {bits : List Bool} (h : bits.length ≤ n) :
    bitsOf (BitVec.ofNat n (valueOf bits)) bits.length = bits := by
  induction bits with
  | nil => rfl
  | cons b bits ih =>
    have hlt := valueOf_lt bits
    rw [List.length_cons] at h
    rw [List.length_cons, bitsOf, valueOf_cons]
    congr 1
    · have hin : bits.length < n := by omega
      rw [BitVec.getLsbD_ofNat, Nat.testBit_two_pow_mul_add _ hlt]
      cases b <;> simp [hin]
    · refine Eq.trans (bitsOf_congr _ _ _ fun j hj => ?_) (ih (by omega))
      simp [BitVec.getLsbD_ofNat, Nat.testBit_two_pow_mul_add _ hlt, hj]

/-- A value with one more bit shifted in at its end, in a word of any width. -/
theorem ofNat_valueOf_append_bit (n : Nat) (bits : List Bool) (b : Bool) :
    BitVec.ofNat n (valueOf (bits ++ [b])) =
      (BitVec.ofNat n (valueOf bits) <<< 1) ||| (BitVec.ofBool b).setWidth n := by
  refine BitVec.eq_of_getLsbD_eq fun i hi => ?_
  have hb : b.toNat < 2 ^ 1 := Bool.toNat_lt b
  have hbit := Nat.testBit_two_pow_mul_add (valueOf bits) hb i
  rw [pow_one] at hbit
  rw [valueOf_append_bit, BitVec.getLsbD_or, BitVec.getLsbD_shiftLeft, BitVec.getLsbD_setWidth, BitVec.getLsbD_ofBool,
    BitVec.getLsbD_ofNat, BitVec.getLsbD_ofNat, hbit]
  by_cases h0 : i = 0
  · subst h0; cases b <;> simp [hi]
  · have h1 : ¬ i < 1 := by omega
    have h2 : i - 1 < n := by omega
    simp [h0, h1, hi, h2]

/-! ### Sequences that settle nothing -/

/-- The bits taken so far settle nothing: no leading zero (R124) and no `00` (R123). -/
abbrev Unsettled (bits : List Bool) : Prop := bits.head? ≠ some false ∧ ∀ j, ¬ ZerosAt bits j

theorem unsettled_nil : Unsettled [] := ⟨by simp, by simp [ZerosAt]⟩

/-- A `00` ends at the last bit or stands before it. -/
theorem zerosAt_append_bit_iff (bits : List Bool) (b : Bool) (j : Nat) :
    ZerosAt (bits ++ [b]) j ↔ ZerosAt bits j ∨ (j + 1 = bits.length ∧ bits.getLast? = some false ∧ b = false) := by
  rcases Nat.lt_trichotomy (j + 1) bits.length with hlt | heq | hgt
  · rw [zerosAt_append_iff hlt]
    simp [hlt.ne]
  · have hlast : bits[j]? = bits.getLast? := by rw [List.getLast?_eq_getElem?, ← heq, Nat.add_sub_cancel]
    simp [ZerosAt, heq, List.getElem?_append_left (show j < bits.length by omega), hlast]
  · have hpast : (bits ++ [b])[j + 1]? = none := List.getElem?_eq_none (by simpa using hgt)
    simp [ZerosAt, hpast, hgt.ne', hgt.le]

/-- A bit that is no leading zero and ends no `00` leaves the bits unsettled. -/
theorem unsettled_append_bit {bits : List Bool} {b : Bool} (h : Unsettled bits) (hlead : bits = [] → b = true)
    (hrun : ¬ (bits.getLast? = some false ∧ b = false)) : Unsettled (bits ++ [b]) := by
  obtain ⟨hhead, hzeros⟩ := h
  refine ⟨?_, fun j hj => ?_⟩
  · cases bits with
    | nil => simp [hlead rfl]
    | cons c bits => exact hhead
  · exact ((zerosAt_append_bit_iff bits b j).1 hj).elim (hzeros j) fun hend => hrun hend.2

/-- In front of a last zero, bits that settle nothing end in a one. -/
theorem no_last_zero_of_unsettled {init : List Bool} (h : Unsettled (init ++ [false])) : init.getLast? ≠ some false := by
  intro hlast
  obtain ⟨front, rfl⟩ := List.getLast?_eq_some_iff.1 hlast
  exact h.2 front.length ((zerosAt_append_bit_iff _ _ _).2 (.inr ⟨by simp, hlast, rfl⟩))

/-- A second zero in a row completes a codeword (R123). -/
theorem framed_append_zero {bits : List Bool} (h : Unsettled bits) (hlast : bits.getLast? = some false) :
    Framed (bits ++ [false]) := by
  obtain ⟨hhead, hzeros⟩ := h
  obtain ⟨init, rfl⟩ := List.getLast?_eq_some_iff.1 hlast
  cases init with
  | nil => exact absurd rfl hhead
  | cons c init =>
    have hc : c = true := by simpa using hhead
    have hend : ZerosAt (c :: init ++ [false] ++ [false]) init.length.succ :=
      (zerosAt_append_bit_iff _ _ _).2 (.inr ⟨by simp, hlast, rfl⟩)
    refine ⟨by simp [hc], by simp, by simpa using hend, fun j hj hz => ?_⟩
    rcases (zerosAt_append_bit_iff _ _ j).1 hz with hin | ⟨hj', -⟩
    · exact hzeros j hin
    · simp at hj hj'; omega

/-- A sequence that settles nothing does not start with a codeword. -/
theorem not_framed_prefix {cw bits : List Bool} (hcw : Framed cw) (h : Unsettled bits) : ¬ cw <+: bits := by
  rintro ⟨rest, rfl⟩
  exact h.2 _ (framed_first_zeros hcw rest).1

/-! ### NEXT's temporaries -/

/-- The temporaries once `bits` are taken (R29, R121). -/
def tempsOf (bits : List Bool) : NextTemps := bits.foldl (fun t b => takeBit b t) freshTemps

theorem tempsOf_append_bit (bits : List Bool) (b : Bool) : tempsOf (bits ++ [b]) = takeBit b (tempsOf bits) := by
  simp [tempsOf]

@[simp] theorem tempsOf_w (bits : List Bool) : (tempsOf bits).w = bits.length := by
  induction bits using List.reverseRecOn with
  | nil => rfl
  | append_singleton bits b ih => rw [tempsOf_append_bit, takeBit, ih, List.length_append]; rfl

theorem tempsOf_code (bits : List Bool) : (tempsOf bits).code = BitVec.ofNat 32 (valueOf bits) := by
  induction bits using List.reverseRecOn with
  | nil => rfl
  | append_singleton bits b ih => rw [tempsOf_append_bit, takeBit, ih, ofNat_valueOf_append_bit]

theorem tempsOf_fb (bits : List Bool) : (tempsOf bits).fb = bits.head? := by
  induction bits using List.reverseRecOn with
  | nil => rfl
  | append_singleton bits b ih =>
    rw [tempsOf_append_bit, takeBit, ih, tempsOf_w]
    cases bits <;> simp

theorem tempsOf_zr_append_bit (bits : List Bool) (b : Bool) :
    (tempsOf (bits ++ [b])).zr = if b then 0 else (tempsOf bits).zr + 1 := by
  rw [tempsOf_append_bit, takeBit]

theorem tempsOf_zr_of_no_last_zero {bits : List Bool} (h : bits.getLast? ≠ some false) : (tempsOf bits).zr = 0 := by
  rcases List.eq_nil_or_concat' bits with rfl | ⟨init, b, rfl⟩
  · rfl
  · have hb : b = true := by simpa using h
    rw [tempsOf_zr_append_bit, hb, if_pos rfl]

/-- Bits that settle nothing end in at most one zero. -/
theorem tempsOf_zr {bits : List Bool} (h : Unsettled bits) :
    (tempsOf bits).zr = if bits.getLast? = some false then 1 else 0 := by
  split
  · next hlast =>
    obtain ⟨init, rfl⟩ := List.getLast?_eq_some_iff.1 hlast
    rw [tempsOf_zr_append_bit, tempsOf_zr_of_no_last_zero (no_last_zero_of_unsettled h)]; rfl
  · next hlast => exact tempsOf_zr_of_no_last_zero hlast

/-- The leading-zero check finds a first bit of 0 (R124). -/
theorem takeBit_leading_zero_iff (bits : List Bool) (b : Bool) :
    ((takeBit b (tempsOf bits)).w = 1 ∧ (takeBit b (tempsOf bits)).fb = some false) ↔ bits = [] ∧ b = false := by
  rw [← tempsOf_append_bit, tempsOf_w, tempsOf_fb]
  cases bits <;> simp

/-- The terminator check finds a second zero in a row (R123). -/
theorem takeBit_terminator_iff {bits : List Bool} (h : Unsettled bits) (b : Bool) :
    (takeBit b (tempsOf bits)).zr = 2 ↔ bits.getLast? = some false ∧ b = false := by
  rw [← tempsOf_append_bit, tempsOf_zr_append_bit, tempsOf_zr h]
  cases b with
  | true => simp
  | false => by_cases hlast : bits.getLast? = some false <;> simp [hlast]

end Sys2Proof.Machine
end

section
/-! What the read path has consumed and pulled (spec/43_read_path.md R121, R122). -/

namespace Sys2Proof.Machine

open Sys2Proof.Safety

/-- `Reads s bits pulled t`: on the way from `s` to `t` the read path consumed `bits` and pulled the bytes `pulled`, none
of them refused. The bits held before and those pulled are the bits consumed and then those still held (R24, R122). A pulled byte holds
a bit that was needed, so at most 7 are left. -/
structure Reads (s : State) (bits : List Bool) (pulled : List Byte) (t : State) : Prop where
  frame : t = { s with acc := t.acc, cnt := t.cnt, source := t.source }
  bytes : s.source.bytes = pulled ++ t.source.bytes
  oracle : t.source.oracle = s.source.oracle.skip pulled.length
  answers : SourceOk pulled.length s
  acc : t.acc = pulled.getLast?.getD s.acc
  stream : heldBits s ++ streamBits pulled = bits ++ heldBits t
  leftover : s.cnt.val ≤ 7 ∨ bits ≠ [] → t.cnt.val ≤ 7

namespace Reads

variable {s t u : State} {a b bits : List Bool} {pulled pulledA pulledB : List Byte}

theorem refl (s : State) : Reads s [] [] s :=
  ⟨rfl, rfl, rfl, by simp [SourceOk], rfl, by simp, by simp⟩

theorem mode (h : Reads s bits pulled t) : t.mode = s.mode := (congrArg State.mode h.frame :)
theorem eos (h : Reads s bits pulled t) : t.eos = s.eos := (congrArg State.eos h.frame :)
theorem failed (h : Reads s bits pulled t) : t.failed = s.failed := (congrArg State.failed h.frame :)
theorem rom (h : Reads s bits pulled t) : t.rom = s.rom := (congrArg State.rom h.frame :)
theorem decMaxW (h : Reads s bits pulled t) : t.decMaxW = s.decMaxW := (congrArg State.decMaxW h.frame :)

/-- NEXT can run on where it could run before. -/
theorem canRead (h : Reads s bits pulled t) (hs : CanRead s) : CanRead t := by
  rwa [CanRead, h.mode, h.failed, h.decMaxW]

/-- The source's answers to come after a reading are its later answers. -/
theorem sourceAnswerAt_eq (h : Reads s bits pulled t) (n : Nat) :
    sourceAnswerAt t.source n = sourceAnswerAt s.source (pulled.length + n) := by
  have hanswer := sourceAnswer_skip t.source.bytes s.source.bytes s.source.oracle pulled.length n
  rwa [← h.oracle] at hanswer

/-- The source's answers that the reading has not used up are still to come. -/
theorem sourceOk (h : Reads s bits pulled t) {n : Nat} (hok : SourceOk (pulled.length + n) s) : SourceOk n t :=
  fun k hk => (h.sourceAnswerAt_eq k).trans (hok _ (Nat.add_lt_add_left hk _))

theorem trans (h : Reads s a pulledA t) (k : Reads t b pulledB u) : Reads s (a ++ b) (pulledA ++ pulledB) u where
  frame := k.frame.trans (by rw [h.frame])
  bytes := by rw [h.bytes, k.bytes, List.append_assoc]
  oracle := by rw [k.oracle, h.oracle, Oracle.skip_skip, List.length_append]
  answers n hn := by
    rcases Nat.lt_or_ge n pulledA.length with hlt | hge
    · exact h.answers n hlt
    · have hlater := k.answers (n - pulledA.length) (by rw [List.length_append] at hn; omega)
      rwa [h.sourceAnswerAt_eq, Nat.add_sub_cancel' hge] at hlater
  acc := by
    rw [k.acc, h.acc, List.getLast?_append]
    cases pulledB.getLast? <;> rfl
  stream := by rw [streamBits_append, ← List.append_assoc, h.stream, List.append_assoc, k.stream, List.append_assoc]
  leftover hleft := by
    refine k.leftover ((em (b = [])).imp (fun hb => h.leftover ?_) id)
    simpa [hb] using hleft

/-- No bit is lost or duplicated (R122). -/
theorem unread (h : Reads s bits pulled t) : unreadBits s = bits ++ unreadBits t := by
  rw [unreadBits, h.bytes, streamBits_append, ← List.append_assoc, h.stream, List.append_assoc, unreadBits]

theorem length_eq (h : Reads s bits pulled t) : s.cnt.val + 8 * pulled.length = bits.length + t.cnt.val := by
  simpa using congrArg List.length h.stream

/-- No byte is pulled that is not needed (R121). -/
theorem pulled_length (h : Reads s bits pulled t) (hbits : bits ≠ []) : pulled.length = pullsFor bits.length s.cnt.val := by
  have hlen := h.length_eq
  have hleft := h.leftover (.inr hbits)
  rw [pullsFor]
  omega

/-- What the source still holds. -/
theorem source_eq (h : Reads s bits pulled t) :
    t.source = ⟨s.source.bytes.drop pulled.length, s.source.oracle.skip pulled.length⟩ := by
  rw [h.bytes, List.drop_left, ← h.oracle]

end Reads

/-! ### One round of NEXT's loop -/

theorem heldBits_of_empty {s : State} (hc : s.cnt = 0) : heldBits s = [] := by simp [heldBits, hc, bitsOf]

/-- Consuming a held bit. -/
theorem reads_dropBit {s : State} (hc : s.cnt ≠ 0) : Reads s [topBit s] [] (dropBit s) where
  frame := rfl
  bytes := rfl
  oracle := rfl
  answers := by simp [SourceOk]
  acc := rfl
  stream := by simp [heldBits_dropBit s hc]
  leftover _ := by rw [dropBit_cnt, cntDown_val]; omega

/-- A bit that is found is consumed, with the byte it is found in (R121). -/
theorem reads_of_refill_ready {s t : State} (h : refill s = .ready t) :
    ∃ pulled, Reads s [topBit t] pulled (dropBit t) := by
  rcases refill_cases s with ⟨hc, hr⟩ | ⟨-, -, hr⟩ | ⟨-, -, -, hr⟩ | ⟨-, -, -, -, hr⟩ | ⟨b, bs, hc, -, ha, hb, hr⟩ <;>
    rw [hr] at h <;> cases h
  · exact ⟨[], reads_dropBit hc⟩
  · have hfresh : heldBits s ++ streamBits [b] = bitsOf b 8 := by simp [heldBits_of_empty hc]
    have hfull := heldBits_dropBit ((s.setSource ⟨bs, s.source.oracle.skip 1⟩).setBuf b 8) (by simp)
    refine ⟨[b], ⟨rfl, hb, rfl, fun n hn => ?_, rfl, hfresh.trans hfull, fun _ => Nat.le_refl 7⟩⟩
    rwa [Nat.lt_one_iff.1 hn]

/-- The search for a bit meets the end of the source with an empty buffer, before this search or in it (R126). -/
theorem refill_exhausted {s u : State} (h : refill s = .exhausted u) :
    s.cnt = 0 ∧ ((s.eos = true ∧ u = s) ∨ (s.eos = false ∧ sourceAnswerAt s.source 0 = .ok ∧ s.source.bytes = [] ∧
      u = (s.setSource ⟨[], s.source.oracle.skip 1⟩).setEos true)) := by
  rcases refill_cases s with ⟨-, hr⟩ | ⟨hc, he, hr⟩ | ⟨-, -, -, hr⟩ | ⟨hc, he, ha, hb, hr⟩ | ⟨b, bs, -, -, -, -, hr⟩ <;>
    rw [hr] at h <;> cases h
  · exact ⟨hc, .inl ⟨he, rfl⟩⟩
  · exact ⟨hc, .inr ⟨he, ha, hb, rfl⟩⟩

/-- The search for a bit fails only if the source refuses a pull (R131). -/
theorem refill_err {s u : State} (h : refill s = .err u) :
    s.cnt = 0 ∧ s.eos = false ∧ sourceAnswerAt s.source 0 = .err ∧
      u = s.setSource ⟨s.source.bytes, s.source.oracle.skip 1⟩ := by
  rcases refill_cases s with ⟨-, hr⟩ | ⟨-, -, hr⟩ | ⟨hc, he, ha, hr⟩ | ⟨-, -, -, -, hr⟩ | ⟨b, bs, -, -, -, -, hr⟩ <;>
    rw [hr] at h <;> cases h
  exact ⟨hc, he, ha, rfl⟩

/-- `UnpackRun s u`: NEXT's loop takes `s` to `u` (R121), by how the loop ends: with a codeword, a first bit of 0, `DEC_MAX_W`
bits that settle nothing, the end of the source, or a refused pull. -/
inductive UnpackRun (s : State) : State → Prop
  | codeword {bits : List Bool} {pulled : List Byte} {t : State} : Reads s bits pulled t → Framed bits →
      bits.length ≤ s.decMaxW →
      UnpackRun s (respond .codeword (BitVec.ofNat 6 bits.length) (BitVec.ofNat 32 (valueOf bits)) t)
  | leadingZero {pulled : List Byte} {t : State} : Reads s [false] pulled t → UnpackRun s (fatal .corruptStream t)
  | overlong {bits : List Bool} {pulled : List Byte} {t : State} : Reads s bits pulled t → Unsettled bits →
      bits.length = s.decMaxW → UnpackRun s (fatal .corruptStream t)
  | exhausted {bits : List Bool} {pulled : List Byte} {t u : State} : Reads s bits pulled t → Unsettled bits →
      bits.length < s.decMaxW → refill t = .exhausted u → UnpackRun s (exhausted (tempsOf bits) u)
  | refused {bits : List Bool} {pulled : List Byte} {t u : State} : Reads s bits pulled t → Unsettled bits →
      bits.length < s.decMaxW → refill t = .err u → UnpackRun s (fatal .ioError u)

/-- NEXT's loop in the middle of a call, with `n` bits to go. -/
theorem unpackRun_of_reads {s t : State} {bits : List Bool} {pulled : List Byte} {n : Nat} (h : Reads s bits pulled t)
    (hu : Unsettled bits) (hn : bits.length + n = s.decMaxW) : UnpackRun s (unpack n (tempsOf bits) t) := by
  induction n generalizing bits pulled t with
  | zero => exact .overlong h hu hn
  | succ n ih =>
    rcases unpack_succ n (tempsOf bits) t with ⟨t', hr, hrun⟩ | ⟨t', hr, hrun⟩ | ⟨t', hr, hw, hfb, hrun⟩ |
      ⟨t', hr, -, hzr, hrun⟩ | ⟨t', hr, hlead, hzr, hrun⟩ <;> rw [hrun]
    · exact .refused h hu (by omega) hr
    · exact .exhausted h hu (by omega) hr
    all_goals
      obtain ⟨more, hbit⟩ := reads_of_refill_ready hr
      have hnext := h.trans hbit
    · obtain ⟨rfl, hb⟩ := (takeBit_leading_zero_iff bits _).1 ⟨hw, hfb⟩
      rw [hb] at hnext
      exact .leadingZero hnext
    · obtain ⟨hlast, hb⟩ := (takeBit_terminator_iff hu _).1 hzr
      rw [← tempsOf_append_bit, tempsOf_w, tempsOf_code, hb]
      rw [hb] at hnext
      exact .codeword hnext (framed_append_zero hu hlast) (by simp; omega)
    · rw [takeBit_leading_zero_iff] at hlead
      rw [ne_eq, takeBit_terminator_iff hu] at hzr
      rw [← tempsOf_append_bit]
      refine ih hnext (unsettled_append_bit hu (fun hnil => ?_) hzr) (by simp; omega)
      exact Bool.eq_true_of_not_eq_false fun hb => hlead ⟨hnil, hb⟩

theorem unpackRun_unpack (s : State) : UnpackRun s (unpack s.decMaxW freshTemps s) :=
  unpackRun_of_reads (.refl s) unsettled_nil (Nat.zero_add _)

/-! ### NEXT -/

/-- The bounds of a legal `DEC_MAX_W` (R5). -/
theorem decMaxW_bounds {s : State} (hs : CanRead s) : 12 ≤ s.decMaxW ∧ s.decMaxW ≤ 32 := by
  obtain ⟨-, -, hmax⟩ := hs
  simpa [decMaxWLegal] using hmax

theorem exec_next_of_canRead {s : State} (hs : CanRead s) : exec .next s = nextCodeword s :=
  inPass_of_open _ hs.1 hs.2.1

/-- NEXT where all leftover bits are zero follows the padding rule (R125). -/
theorem exec_next_of_onlyPadding {s : State} (hs : CanRead s) (hp : onlyPadding s = true) :
    exec .next s = .next (skipPadding s) := by
  simp only [exec_next_of_canRead hs, nextCodeword, hs.2.2, hp, if_true]

/-- NEXT where the padding rule does not apply runs its loop (R121). -/
theorem exec_next_of_not_onlyPadding {s : State} (hs : CanRead s) (hp : onlyPadding s = false) :
    exec .next s = .next (unpack s.decMaxW freshTemps s) := by
  simp [exec_next_of_canRead hs, nextCodeword, hs.2.2, hp]

/-- Leftover bits that do not start with a zero are no padding, whatever follows them (R125). -/
theorem onlyPadding_eq_false {s : State} {rest : List Bool} (h : (heldBits s ++ rest).head? ≠ some false) :
    onlyPadding s = false := by
  refine Bool.eq_false_iff.2 fun hp => h ?_
  obtain ⟨h1, -, hzero⟩ := (onlyPadding_iff s).1 hp
  cases hheld : heldBits s with
  | nil =>
    have hlen := heldBits_length s
    rw [hheld, List.length_nil] at hlen
    omega
  | cons b bits => simp [hzero b (by simp [hheld])]

theorem exec_next_run {s : State} {rest : List Bool} (hs : CanRead s) (h : (heldBits s ++ rest).head? ≠ some false) :
    ∃ t, exec .next s = .next t ∧ UnpackRun s t :=
  ⟨_, exec_next_of_not_onlyPadding hs (onlyPadding_eq_false h), unpackRun_unpack s⟩

theorem exec_next_run_of_first_one {s : State} (hs : CanRead s) (h : (unreadBits s).head? = some true) :
    ∃ t, exec .next s = .next t ∧ UnpackRun s t :=
  exec_next_run (rest := streamBits s.source.bytes) hs (by rw [← unreadBits, h]; decide)

/-- `NextEffect s t`: all that NEXT can do where it takes `s` to `t` (R121, R177). -/
inductive NextEffect (s : State) : State → Prop
  | report (st : Status) : ¬ CanRead s → st = .wrongMode ∨ st = .failed → NextEffect s (respond st 0 0 s)
  | padding : CanRead s → onlyPadding s = true → NextEffect s (skipPadding s)
  | unpack {t : State} : CanRead s → UnpackRun s t → NextEffect s t

theorem nextEffect_of_exec {s t : State} (h : exec .next s = .next t) : NextEffect s t := by
  rcases inPass_cases .dec nextCodeword s with ⟨hm, he⟩ | ⟨-, hf, he⟩ | ⟨hm, hf, he⟩ <;>
    rw [exec, execNext, he] at h
  · cases h
    exact .report _ (fun hs => hm hs.1) (.inl rfl)
  · cases h
    exact .report _ (fun hs => absurd (hf.symm.trans hs.2.1) (by decide)) (.inr rfl)
  · rcases nextCodeword_cases s with ⟨-, hn⟩ | ⟨hmax, hp, hn⟩ | ⟨hmax, -, hn⟩ <;> rw [hn] at h <;> cases h
    · exact .padding ⟨hm, hf, hmax⟩ hp
    · exact .unpack ⟨hm, hf, hmax⟩ (unpackRun_unpack s)

end Sys2Proof.Machine
end

section
/-! The rules of NEXT that need no whole codeword: the end of the source, the padding rule and the leading-zero rule
(spec/43_read_path.md R124 to R126), and what every NEXT keeps (R121, R128, R129). -/

namespace Sys2Proof.Machine

open Sys2Proof.Safety

/-! ### The first round -/

/-- A legal `DEC_MAX_W` leaves NEXT at least one round. -/
theorem exists_succ_of_canRead {s : State} (hs : CanRead s) : ∃ n, s.decMaxW = n + 1 := by
  obtain ⟨hle, -⟩ := decMaxW_bounds hs
  exact ⟨s.decMaxW - 1, by omega⟩

/-- With an empty buffer NEXT looks for a bit: the padding rule needs a leftover (R125). -/
theorem exec_next_of_empty {s : State} (hs : CanRead s) (hc : s.cnt = 0) :
    exec .next s = .next (unpack s.decMaxW freshTemps s) :=
  exec_next_of_not_onlyPadding hs (onlyPadding_eq_false (rest := []) (by simp [heldBits_of_empty hc]))

/-- At the end of the source, with no bit consumed, the loop answers END_OF_STREAM (R126). -/
theorem exec_next_of_refill_exhausted {s u : State} (hs : CanRead s) (hc : s.cnt = 0) (h : refill s = .exhausted u) :
    exec .next s = .next (respond .endOfStream 0 0 (u.setBuf 0 u.cnt)) := by
  obtain ⟨n, hn⟩ := exists_succ_of_canRead hs
  rw [exec_next_of_empty hs hc, hn]
  simp [unpack, h, exhausted, freshTemps]

/-- A first bit of 0 ends the call at once (R124). -/
theorem exec_next_of_leading_zero {s t : State} (hs : CanRead s) (hp : onlyPadding s = false) (h : refill s = .ready t)
    (hb : topBit t = false) : exec .next s = .next (fatal .corruptStream (dropBit t)) := by
  obtain ⟨n, hn⟩ := exists_succ_of_canRead hs
  rw [exec_next_of_not_onlyPadding hs hp, hn]
  simp [unpack, h, hb, takeBit, freshTemps]

/-- A search for a bit in an empty buffer pulls once (R121). -/
theorem refill_of_no_byte {s : State} (hc : s.cnt = 0) (heos : s.eos = false) (hans : sourceAnswerAt s.source 0 = .ok)
    (hb : s.source.bytes = []) : refill s = .exhausted ((s.setSource ⟨[], s.source.oracle.skip 1⟩).setEos true) := by
  simp [refill, hc, heos, sourcePull, sourceAnswer_head, hans, hb, Oracle.advance]

theorem refill_of_byte {s : State} {b : Byte} {bs : List Byte} (hc : s.cnt = 0) (heos : s.eos = false)
    (hans : sourceAnswerAt s.source 0 = .ok) (hb : s.source.bytes = b :: bs) :
    refill s = .ready ((s.setSource ⟨bs, s.source.oracle.skip 1⟩).setBuf b 8) := by
  simp [refill, hc, heos, sourcePull, sourceAnswer_head, hans, hb, Oracle.advance]

/-- Settles O48: with an empty buffer the first search for a bit meets the end. -/
theorem nextAtTheEnd : Obligations.NextAtTheEnd := by
  unfold Obligations.NextAtTheEnd
  refine fun s hs hc => ⟨fun heos => ?_, fun heos hbytes hans => ?_⟩
  · rw [exec_next_of_refill_exhausted hs hc (u := s) (by simp [refill, hc, heos])]
    rfl
  · rw [exec_next_of_refill_exhausted hs hc (refill_of_no_byte hc heos hans hbytes)]
    rfl

/-- Settles O50: the padding rule's one pull has three answers. -/
theorem paddingRule : Obligations.PaddingRule := by
  unfold Obligations.PaddingRule
  intro s hs h1 h7 hzero
  rw [exec_next_of_onlyPadding hs ((onlyPadding_iff s).2 ⟨h1, h7, hzero⟩)]
  rcases skipPadding_cases s with ⟨ha, hp⟩ | ⟨ha, hb, hp⟩ | ⟨b, bs, ha, hb, hp⟩ <;> rw [hp]
  · simp only [ha, reduceCtorEq, false_implies, implies_true, true_implies, true_and]
    rfl
  · simp only [ha, hb, reduceCtorEq, false_implies, implies_true, true_implies, and_true]
    rfl
  · simp only [ha, hb, reduceCtorEq, false_implies, implies_true, true_implies, and_true, true_and, List.cons.injEq]
    rintro _ _ ⟨rfl, rfl⟩
    rfl

/-- Settles O51: the first bit is found in the leftover or in a fresh byte. -/
theorem leadingZeroRule : Obligations.LeadingZeroRule := by
  unfold Obligations.LeadingZeroRule
  refine fun s hs => ⟨fun hhead hone => ?_, fun b bs hc heos hans hbytes hbit => ?_⟩
  · have hc : s.cnt ≠ 0 := fun hz => by simp [heldBits_of_empty hz] at hhead
    have htop : topBit s = false := by simpa [heldBits_dropBit s hc] using hhead
    have hp : onlyPadding s = false := Bool.eq_false_iff.2 fun hpad => by
      obtain ⟨-, h7, hzero⟩ := (onlyPadding_iff s).1 hpad
      rcases hone with h8 | ⟨b, hb, hb1⟩
      · omega
      · exact absurd ((hzero b hb).symm.trans hb1) (by decide)
    rw [exec_next_of_leading_zero hs hp (by simp [refill, hc]) htop]
    rfl
  · have hp : onlyPadding s = false := onlyPadding_eq_false (rest := []) (by simp [heldBits_of_empty hc])
    rw [exec_next_of_leading_zero hs hp (refill_of_byte hc heos hans hbytes) hbit]
    rfl

/-! ### What every NEXT keeps -/

theorem ReadFrame.eq_with {s t : State} (h : ReadFrame s t) :
    t = { s with acc := t.acc, cnt := t.cnt, eos := t.eos, failed := t.failed, source := t.source, rsp := t.rsp } :=
  State.eq_of_fields rfl rfl rfl rfl h.mode h.rom h.decMaxW h.sink rfl rfl h.host

theorem readFrame_of_exec_next {s t : State} (h : exec .next s = .next t) : ReadFrame s t := by
  cases commandEffect_of_exec h with
  | report st l d => exact readFrame_respond st l d s
  | padding => exact readFrame_skipPadding s
  | unpack => exact readFrame_unpack _ _ s

@[simp] theorem exhausted_source (t : NextTemps) (s : State) : (exhausted t s).source = s.source := by
  rcases exhausted_cases t s with ⟨-, he⟩ | ⟨-, he⟩ <;> rw [he] <;> rfl

theorem source_suffix_of_skipPadding (s : State) : (skipPadding s).source.bytes <:+ s.source.bytes := by
  rcases skipPadding_cases s with ⟨-, hp⟩ | ⟨-, hb, hp⟩ | ⟨b, bs, -, hb, hp⟩ <;> rw [hp]
  · exact List.suffix_rfl
  · exact List.nil_suffix
  · exact hb ▸ List.suffix_cons b bs

theorem source_suffix_of_unpackRun {s t : State} (h : UnpackRun s t) : t.source.bytes <:+ s.source.bytes := by
  cases h with
  | codeword h => exact ⟨_, h.bytes.symm⟩
  | leadingZero h => exact ⟨_, h.bytes.symm⟩
  | overlong h => exact ⟨_, h.bytes.symm⟩
  | exhausted h _ _ hr =>
    rw [exhausted_source]
    obtain ⟨-, ⟨-, rfl⟩ | ⟨-, -, -, rfl⟩⟩ := refill_exhausted hr
    · exact ⟨_, h.bytes.symm⟩
    · exact List.nil_suffix
  | refused h _ _ hr =>
    obtain ⟨-, -, -, rfl⟩ := refill_err hr
    exact ⟨_, h.bytes.symm⟩

/-- Settles O47: the fields NEXT may touch are those of its frame, and however it ends it has taken bytes off the source's
front. -/
theorem nextFrame : Obligations.NextFrame := by
  unfold Obligations.NextFrame
  refine fun s t h => ⟨(readFrame_of_exec_next h).eq_with, ?_⟩
  cases nextEffect_of_exec h with
  | report st => exact List.suffix_rfl
  | padding => exact source_suffix_of_skipPadding s
  | unpack _ hrun => exact source_suffix_of_unpackRun hrun

/-- `NextOutcome s t`: what a NEXT whose checks passed may leave (R128): a codeword read, the end of the stream with an empty
buffer, or a failed pass. -/
inductive NextOutcome (s : State) : State → Prop
  | codeword {bits : List Bool} {pulled : List Byte} {t : State} : Reads s bits pulled t → Framed bits →
      bits.length ≤ s.decMaxW →
      NextOutcome s (respond .codeword (BitVec.ofNat 6 bits.length) (BitVec.ofNat 32 (valueOf bits)) t)
  | endOfStream {t : State} : t.acc = 0 → t.cnt = 0 → t.eos = true → t.failed = s.failed →
      NextOutcome s (respond .endOfStream 0 0 t)
  | fatal (f : FatalStatus) (t : State) : NextOutcome s (fatal f t)

theorem nextOutcome_skipPadding (s : State) : NextOutcome s (skipPadding s) := by
  rcases skipPadding_cases s with ⟨-, hp⟩ | ⟨-, -, hp⟩ | ⟨b, bs, -, -, hp⟩ <;> rw [hp]
  · exact .fatal _ _
  · exact .endOfStream rfl rfl rfl rfl
  · exact .fatal _ _

theorem nextOutcome_of_unpackRun {s t : State} (h : UnpackRun s t) : NextOutcome s t := by
  cases h with
  | codeword h hframed hle => exact .codeword h hframed hle
  | leadingZero => exact .fatal _ _
  | overlong => exact .fatal _ _
  | @exhausted bits pulled t u h _ _ hr =>
    rcases exhausted_cases (tempsOf bits) u with ⟨-, he⟩ | ⟨-, he⟩ <;> rw [he]
    · obtain ⟨hc, ⟨heos, rfl⟩ | ⟨-, -, -, rfl⟩⟩ := refill_exhausted hr
      · exact .endOfStream rfl hc heos h.failed
      · exact .endOfStream rfl hc rfl h.failed
    · exact .fatal _ _
  | refused => exact .fatal _ _

theorem nextOutcome_of_exec {s t : State} (hs : CanRead s) (h : exec .next s = .next t) : NextOutcome s t := by
  cases nextEffect_of_exec h with
  | report _ hnot => exact absurd hs hnot
  | padding => exact nextOutcome_skipPadding s
  | unpack _ hrun => exact nextOutcome_of_unpackRun hrun

/-- NEXT answers one of its own four statuses only if its checks passed (R177). -/
theorem canRead_of_rsp {s t : State} {r : RspWord} (h : exec .next s = .next t) (hr : t.rsp = some r)
    (hst : rspStatusBits r ≠ 0x8 ∧ rspStatusBits r ≠ 0x9) : CanRead s := by
  cases nextEffect_of_exec h with
  | report st _ hst' =>
    cases hr
    rw [rspStatusBits_rspWord] at hst
    rcases hst' with rfl | rfl
    · exact absurd rfl hst.1
    · exact absurd rfl hst.2
  | padding hs => exact hs
  | unpack hs => exact hs

theorem ne_nil_of_framed {bits : List Bool} (h : Framed bits) : bits ≠ [] := fun hnil => by simp [Framed, hnil] at h

/-- The status that a response word on the channel carries (R61). -/
theorem rspStatusBits_of_rsp {st : Status} {l : LenField} {d : DataField} {r : RspWord}
    (h : some (rspWord st l d) = some r) : rspStatusBits r = statusCode st := by
  cases h
  exact rspStatusBits_rspWord st l d

/-- Settles O46: each outcome of NEXT fixes the registers the statement names. -/
theorem stateAfterNext : Obligations.StateAfterNext := by
  unfold Obligations.StateAfterNext
  intro s t r hs hexec hr
  cases nextOutcome_of_exec hs hexec with
  | codeword hread hframed _ =>
    rw [rspStatusBits_of_rsp hr]
    refine ⟨fun _ => ⟨hread.leftover (.inr (ne_nil_of_framed hframed)), hread.eos, _, hread.bytes, hread.acc⟩, ?_⟩
    simp [statusCode]
  | endOfStream hacc hcnt heos =>
    rw [rspStatusBits_of_rsp hr]
    simp [statusCode, hacc, hcnt, heos]
  | fatal f t =>
    rw [rspStatusBits_of_rsp hr]
    cases f <;> simp [statusCode, fatalCode]

/-- Settles O49: after END_OF_STREAM the buffer is empty and `eos` is set, so the next search for a bit ends at once. -/
theorem endOfStreamRepeats : Obligations.EndOfStreamRepeats := by
  unfold Obligations.EndOfStreamRepeats
  intro s t hexec hr
  have hs := canRead_of_rsp hexec hr (by decide)
  have hframe := readFrame_of_exec_next hexec
  cases nextOutcome_of_exec hs hexec with
  | codeword => exact absurd (rspStatusBits_of_rsp hr) (by decide)
  | fatal f t =>
    have hst := rspStatusBits_of_rsp hr
    cases f <;> exact absurd hst (by decide)
  | @endOfStream u hacc hcnt heos hfail =>
    have hs' : CanRead (respond .endOfStream 0 0 u) :=
      ⟨hframe.mode.trans hs.1, hfail.trans hs.2.1, (congrArg decMaxWLegal hframe.decMaxW).trans hs.2.2⟩
    rw [exec_next_of_refill_exhausted (u := respond .endOfStream 0 0 u) hs' hcnt (by simp [refill, hcnt, heos])]
    exact congrArg Host.Outcome.next (State.eq_of_fields hacc.symm rfl rfl rfl rfl rfl rfl rfl rfl rfl rfl)

end Sys2Proof.Machine
end

section
/-! The codeword that NEXT returns (spec/43_read_path.md R121 to R123, R132). -/

namespace Sys2Proof.Machine

open Sys2Proof.Safety

/-! ### From the response to the bits -/

/-- A CODEWORD response spells a framed sequence that was read off the front of the unread bits (R121). -/
theorem codeword_of_exec_next {s t : State} {r : RspWord} (hexec : exec .next s = .next t) (hr : t.rsp = some r)
    (hst : rspStatusBits r = 0x1) :
    CanRead s ∧ Framed (bitsOf (rspDataBits r) (rspLenBits r).toNat) ∧ (rspLenBits r).toNat ≤ s.decMaxW ∧
      (rspDataBits r).toNat < 2 ^ (rspLenBits r).toNat ∧
      unreadBits s = bitsOf (rspDataBits r) (rspLenBits r).toNat ++ unreadBits t := by
  have hs := canRead_of_rsp hexec hr (by rw [hst]; decide)
  obtain ⟨-, hmax⟩ := decMaxW_bounds hs
  cases nextOutcome_of_exec hs hexec with
  | @codeword bits pulled u hread hframed hle =>
    cases hr
    have hlen : (BitVec.ofNat 6 bits.length).toNat = bits.length := by
      rw [BitVec.toNat_ofNat, Nat.mod_eq_of_lt (by omega)]
    have hbits : bitsOf (BitVec.ofNat 32 (valueOf bits)) bits.length = bits := bitsOf_valueOf (by omega)
    have hlt := valueOf_lt bits
    rw [rspDataBits_rspWord, rspLenBits_rspWord, hlen, hbits]
    refine ⟨hs, hframed, hle, ?_, hread.unread⟩
    exact Nat.lt_of_le_of_lt (Nat.mod_le _ _) hlt
  | endOfStream => exact absurd ((rspStatusBits_of_rsp hr).symm.trans hst) (by decide)
  | fatal f u =>
    have hcode := (rspStatusBits_of_rsp hr).symm.trans hst
    cases f <;> exact absurd hcode (by decide)

/-- Settles O45: the consumed bits are those the response spells. -/
theorem noBitLostOrDuplicated : Obligations.NoBitLostOrDuplicated := by
  unfold Obligations.NoBitLostOrDuplicated
  intro s t r hexec hr hst
  obtain ⟨-, -, -, -, hunread⟩ := codeword_of_exec_next hexec hr hst
  exact hunread

/-- A framed sequence as the bits of its value: T3 is its first bit, T4 its last two, T5 the bits between (R84, R132). -/
theorem shape_of_framed_bitsOf {n L : Nat} {v : BitVec n} (h : Framed (bitsOf v L)) :
    3 ≤ L ∧ v.getLsbD (L - 1) = true ∧ v.getLsbD 1 = false ∧ v.getLsbD 0 = false ∧
      ∀ j, 1 ≤ j → j ≤ L - 2 → ¬ (v.getLsbD (j + 1) = false ∧ v.getLsbD j = false) := by
  obtain ⟨hhead, hlen, hend, hfirst⟩ := h
  rw [bitsOf_length] at hlen hend hfirst
  have hbit1 : L - 1 - (L - 2) = 1 := by omega
  rw [zerosAt_bitsOf_iff _ (by omega), hbit1, Nat.sub_self] at hend
  rw [List.head?_eq_getElem?, bitsOf_getElem? _ _ _ (by omega), Nat.sub_zero, Option.some.injEq] at hhead
  refine ⟨hlen, hhead, hend.1, hend.2, fun j h1 hj hz => hfirst (L - 2 - j) (by omega) ?_⟩
  have hhigh : L - 1 - (L - 2 - j) = j + 1 := by omega
  have hlow : L - 2 - (L - 2 - j) = j := by omega
  rwa [zerosAt_bitsOf_iff _ (by omega), hhigh, hlow]

/-- Settles O44: the response spells a framed sequence, and the bit above its final `00` is a one, or a `00` would stand
earlier. -/
theorem codewordShape : Obligations.CodewordShape := by
  unfold Obligations.CodewordShape
  intro s t r hexec hr hst
  obtain ⟨-, hframed, hle, hlt, -⟩ := codeword_of_exec_next hexec hr hst
  obtain ⟨hlen, htop, h1, h0, hinner⟩ := shape_of_framed_bitsOf hframed
  have h2 : (rspDataBits r).getLsbD 2 = true :=
    Bool.eq_true_of_not_eq_false fun h2 => hinner 1 le_rfl (by omega) ⟨h2, h1⟩
  exact ⟨hlen, hle, hlt, htop, h1, h0, h2, hinner⟩

/-! ### From the bits to the response -/

/-- Two sequences that start the same bits: the shorter starts the longer. -/
theorem prefix_of_append_eq {a b restA restB : List Bool} (h : a ++ restA = b ++ restB)
    (hle : a.length ≤ b.length) : a <+: b :=
  List.prefix_of_prefix_length_le ⟨restA, h⟩ ⟨restB, rfl⟩ hle

/-- Where pull number `n` is refused, a reading has pulled no more than `n` bytes. -/
theorem Reads.pulled_le {s t : State} {bits : List Bool} {pulled : List Byte} {n : Nat} (h : Reads s bits pulled t)
    (herr : sourceAnswerAt s.source n = .err) : pulled.length ≤ n :=
  Nat.le_of_not_lt fun hlt => absurd (herr.symm.trans (h.answers n hlt)) (by decide)

/-- A refused pull comes after all bits that the pulls answered `Ok` give. -/
theorem Reads.length_le_of_refill_err {s t u : State} {bits : List Bool} {pulled : List Byte} {n : Nat}
    (h : Reads s bits pulled t) (hr : refill t = .err u) (hok : SourceOk (pullsFor n s.cnt.val) s) : n ≤ bits.length := by
  obtain ⟨hc, -, herr, -⟩ := refill_err hr
  rw [h.sourceAnswerAt_eq] at herr
  have hlen := h.length_eq
  have hpulls : ¬ pulled.length < pullsFor n s.cnt.val := fun hlt => absurd (herr.symm.trans (hok _ hlt)) (by decide)
  rw [hc] at hlen
  rw [pullsFor] at hpulls
  simp at hlen
  omega

/-- At the end of the source all unread bits are consumed (R126). -/
theorem Reads.unread_of_refill_exhausted {s t u : State} {bits : List Bool} {pulled : List Byte} (h : Reads s bits pulled t)
    (heos : s.eos = false) (hr : refill t = .exhausted u) :
    unreadBits s = bits ∧ pulled = s.source.bytes ∧ sourceAnswerAt s.source pulled.length = .ok ∧
      u = (t.setSource ⟨[], t.source.oracle.skip 1⟩).setEos true := by
  obtain ⟨hc, ⟨he, -⟩ | ⟨-, hans, hb, hu⟩⟩ := refill_exhausted hr
  · exact absurd (he.symm.trans (h.eos.trans heos)) (by decide)
  · refine ⟨?_, ?_, (h.sourceAnswerAt_eq 0).symm.trans hans, hu⟩
    · rw [h.unread]
      simp [unreadBits, heldBits_of_empty hc, hb]
    · simp [h.bytes, hb]

/-- The leading-zero rule applies only where the unread bits start with a zero (R124). -/
theorem Reads.head_unread {s t : State} {pulled : List Byte} (h : Reads s [false] pulled t) :
    (unreadBits s).head? = some false := by
  rw [h.unread]; rfl

/-- NEXT reads the framed codeword at the front of the unread bits (R121, R123): any other end of its loop would have consumed
the codeword's bits and found them unsettled. -/
theorem exec_next_codeword {s : State} {cw rest : List Bool} (hs : CanRead s) (heos : s.eos = false) (hcw : Framed cw)
    (hle : cw.length ≤ s.decMaxW) (hunread : unreadBits s = cw ++ rest)
    (hok : SourceOk (pullsFor cw.length s.cnt.val) s) :
    ∃ t pulled, exec .next s =
        .next (respond .codeword (BitVec.ofNat 6 cw.length) (BitVec.ofNat 32 (valueOf cw)) t) ∧ Reads s cw pulled t := by
  have hhead : (unreadBits s).head? = some true := by rw [hunread, List.head?_append, hcw.1]; rfl
  obtain ⟨u, hexec, hrun⟩ := exec_next_run_of_first_one hs hhead
  have unsettled_shorter {bits : List Bool} {pulled : List Byte} {t : State} (h : Reads s bits pulled t)
      (hu : Unsettled bits) : bits.length < cw.length :=
    Nat.lt_of_not_le fun hlen => not_framed_prefix hcw hu (prefix_of_append_eq (hunread.symm.trans h.unread) hlen)
  cases hrun with
  | @codeword bits pulled t hread hframed =>
    have hsame := hunread.symm.trans hread.unread
    have hbits : bits = cw := by
      rcases Nat.le_total bits.length cw.length with hlen | hlen
      · exact eq_of_prefix_of_framed hframed hcw (prefix_of_append_eq hsame.symm hlen)
      · exact (eq_of_prefix_of_framed hcw hframed (prefix_of_append_eq hsame hlen)).symm
    subst hbits
    exact ⟨t, pulled, hexec, hread⟩
  | leadingZero hread => exact absurd (hhead.symm.trans hread.head_unread) (by decide)
  | overlong hread hu hlen => exact absurd (unsettled_shorter hread hu) (by omega)
  | exhausted hread hu _ hr =>
    obtain ⟨hall, -⟩ := hread.unread_of_refill_exhausted heos hr
    have hlen := congrArg List.length (hall.symm.trans hunread)
    rw [List.length_append] at hlen
    exact absurd (unsettled_shorter hread hu) (by omega)
  | refused hread hu _ hr => exact absurd (unsettled_shorter hread hu) (Nat.not_lt.2 (hread.length_le_of_refill_err hr hok))

/-- Settles O43: the reading that consumes the codeword fixes every field. -/
theorem nextReturnsTheCodeword : Obligations.NextReturnsTheCodeword := by
  unfold Obligations.NextReturnsTheCodeword
  intro s cw rest hs heos hcw hle hunread hok
  obtain ⟨t, pulled, hexec, hread⟩ := exec_next_codeword hs heos hcw hle hunread hok
  have hne := ne_nil_of_framed hcw
  refine ⟨_, pulled, hexec, congrArg (respond .codeword _ _) hread.frame, hread.bytes, hread.pulled_length hne,
    hread.oracle, hread.leftover (.inr hne), hread.acc, ?_⟩
  exact List.append_cancel_left (hread.unread.symm.trans hunread)

end Sys2Proof.Machine
end

section
/-! The bits that are no codeword, and the pulls that are refused (spec/43_read_path.md R126, R127, R131). In each proof the
loop's other ends are ruled out by what the unread bits are. -/

namespace Sys2Proof.Machine

open Sys2Proof.Safety

/-- A codeword is found only where a `00` stands among the unread bits, within its length (R123). -/
theorem Reads.zerosAt_unread {s t : State} {bits : List Bool} {pulled : List Byte} (h : Reads s bits pulled t)
    (hframed : Framed bits) : ZerosAt (unreadBits s) (bits.length - 2) := by
  rw [h.unread]
  exact (framed_first_zeros hframed _).1

/-- Settles O52: only the end of the source stops a loop that finds no `00` in fewer than `DEC_MAX_W` bits. -/
theorem truncatedCodeword : Obligations.TruncatedCodeword := by
  unfold Obligations.TruncatedCodeword
  intro s hs heos hhead hzeros hlt hok
  obtain ⟨u, hexec, hrun⟩ := exec_next_run_of_first_one hs hhead
  cases hrun with
  | codeword hread hframed => exact absurd (hread.zerosAt_unread hframed) (hzeros _)
  | leadingZero hread => exact absurd (hhead.symm.trans hread.head_unread) (by decide)
  | overlong hread _ hlen =>
    have hle := congrArg List.length hread.unread
    rw [List.length_append] at hle
    omega
  | @exhausted bits pulled t u hread _ _ hr =>
    obtain ⟨hall, hpulled, -, rfl⟩ := hread.unread_of_refill_exhausted heos hr
    have hne : (tempsOf bits).w ≠ 0 := by
      rw [tempsOf_w, ← hall]
      exact fun hz => by simp [List.eq_nil_of_length_eq_zero hz] at hhead
    rw [exhausted, if_neg hne] at hexec
    refine ⟨_, hexec, ?_, ?_⟩
    · exact congrArg (fun x => fatal .corruptStream ((x.setSource ⟨[], t.source.oracle.skip 1⟩).setEos true)) hread.frame
    · simp [hread.oracle, Oracle.skip_skip, hpulled]
  | @refused bits pulled t u hread _ _ hr =>
    obtain ⟨-, -, herr, -⟩ := refill_err hr
    rw [hread.sourceAnswerAt_eq] at herr
    have hle := congrArg List.length hread.bytes
    rw [List.length_append] at hle
    exact absurd (herr.symm.trans (hok _ (by omega))) (by decide)

/-- Settles O53: the loop reaches its bound before a `00`, before the end of the source and before any refused pull. -/
theorem overlongCodeword : Obligations.OverlongCodeword := by
  unfold Obligations.OverlongCodeword
  intro s hs heos hhead hle hzeros hok
  obtain ⟨u, hexec, hrun⟩ := exec_next_run_of_first_one hs hhead
  cases hrun with
  | codeword hread hframed hlen =>
    obtain ⟨-, h3, -⟩ := id hframed
    exact absurd (hread.zerosAt_unread hframed) (hzeros _ (by omega))
  | leadingZero hread => exact absurd (hhead.symm.trans hread.head_unread) (by decide)
  | @overlong bits pulled t hread _ hlen =>
    have hpos : bits ≠ [] := by
      obtain ⟨n, hn⟩ := exists_succ_of_canRead hs
      exact List.ne_nil_of_length_pos (by omega)
    have hpulled := hread.pulled_length hpos
    rw [hlen] at hpulled
    exact ⟨_, hexec, congrArg (fatal .corruptStream) hread.frame, hpulled ▸ hread.source_eq⟩
  | exhausted hread _ hlen hr =>
    obtain ⟨hall, -⟩ := hread.unread_of_refill_exhausted heos hr
    rw [hall] at hle
    omega
  | refused hread _ hlen hr => exact absurd (hread.length_le_of_refill_err hr hok) (Nat.not_le.2 hlen)

/-- Where pull number `k` is refused, what is consumed before it are bits of the buffer and of `k` bytes. -/
theorem Reads.prefix_of_pulled_le {s t : State} {bits : List Bool} {pulled : List Byte} {k : Nat} (h : Reads s bits pulled t)
    (hk : pulled.length ≤ k) : bits <+: heldBits s ++ streamBits (s.source.bytes.take k) := by
  have hpulled : s.source.bytes.take pulled.length = pulled := by rw [h.bytes, List.take_left]
  obtain ⟨more, hmore⟩ := List.take_prefix_take_left (l := s.source.bytes) hk
  rw [hpulled] at hmore
  rw [← hmore, streamBits_append, ← List.append_assoc, h.stream, List.append_assoc]
  exact List.prefix_append _ _

/-- Settles O54: the bits before the refused pull let the loop go on, and no other end of it comes before that pull. -/
theorem nextSourceError : Obligations.NextSourceError := by
  unfold Obligations.NextSourceError
  intro s k hs heos hk hok herr hcase
  obtain ⟨hu, hlt⟩ : Unsettled (heldBits s ++ streamBits (s.source.bytes.take k)) ∧
      (heldBits s ++ streamBits (s.source.bytes.take k)).length < s.decMaxW := by
    rcases hcase with ⟨hc, rfl⟩ | ⟨hhead, hzeros, hlt⟩
    · obtain ⟨n, hn⟩ := exists_succ_of_canRead hs
      have hnil : heldBits s ++ streamBits (s.source.bytes.take 0) = [] := by simp [heldBits_of_empty hc]
      rw [hnil]
      exact ⟨unsettled_nil, by rw [hn]; exact n.succ_pos⟩
    · exact ⟨⟨by rw [hhead]; decide, hzeros⟩, hlt⟩
  obtain ⟨u, hexec, hrun⟩ := exec_next_run hs hu.1
  cases hrun with
  | codeword hread hframed =>
    exact absurd (hread.prefix_of_pulled_le (hread.pulled_le herr)) (not_framed_prefix hframed hu)
  | leadingZero hread =>
    obtain ⟨more, hmore⟩ := hread.prefix_of_pulled_le (hread.pulled_le herr)
    exact absurd (by rw [← hmore]; rfl) hu.1
  | overlong hread _ hlen =>
    have hle := (hread.prefix_of_pulled_le (hread.pulled_le herr)).length_le
    omega
  | exhausted hread _ _ hr =>
    obtain ⟨-, hpulled, hans, -⟩ := hread.unread_of_refill_exhausted heos hr
    have hlen := Nat.le_antisymm (hread.pulled_le herr) (by rwa [hpulled])
    rw [hlen] at hans
    exact absurd (herr.symm.trans hans) (by decide)
  | @refused bits pulled t u hread _ _ hr =>
    obtain ⟨-, -, hans, rfl⟩ := refill_err hr
    rw [hread.sourceAnswerAt_eq] at hans
    have hlen : pulled.length = k := Nat.le_antisymm (hread.pulled_le herr) <| Nat.le_of_not_lt fun hlt =>
      absurd (hans.symm.trans (hok _ hlt)) (by decide)
    refine ⟨_, hexec, ?_, ?_⟩
    · exact congrArg (fun x => fatal .ioError (x.setSource ⟨t.source.bytes, t.source.oracle.skip 1⟩)) hread.frame
    · simp [hread.source_eq, Oracle.skip_skip, hlen]

end Sys2Proof.Machine
end

section
/-! The round trip over the two drivers (spec/60_exceptions.md R186, R187; spec/43_read_path.md R133). A text over the alphabet
is a list of table entries; the encoder packs their codewords, and the decoder reads them back one by one. -/

namespace Sys2Proof.Machine

open Sys2Proof.Safety

/-! ### Commands and responses at the drivers -/

/-- A driver's command word is always well-formed: it is the word of its command (R68). -/
theorem issue_eq_exec (i : Instr) (s : State) : issue i s = exec i s := runWord_of_decode (decodeOfEncode i) s

@[simp] theorem rspIs_respond (st st' : Status) (l : LenField) (d : DataField) (s : State) :
    rspIs st (respond st' l d s) = (statusCode st' == statusCode st) := by
  simp [rspIs]

@[simp] theorem rspLen_respond (st : Status) (l : LenField) (d : DataField) (s : State) : rspLen (respond st l d s) = l := by
  simp [rspLen]

@[simp] theorem rspData_respond (st : Status) (l : LenField) (d : DataField) (s : State) : rspData (respond st l d s) = d := by
  simp [rspData]

theorem rspIs_of_rsp {st st' : Status} {l : LenField} {d : DataField} {s : State} (h : s.rsp = some (rspWord st' l d)) :
    rspIs st s = (statusCode st' == statusCode st) := by
  simp [rspIs, h]

/-- A run ends with END, which always answers OK (R152). -/
theorem endRun_eq {α : Type} (r : α) (s : State) : endRun r s = .next (r, respond .ok 0 0 (setPass .idle s)) := by
  rw [endRun, issue_eq_exec]; rfl

/-! ### A text as entries of the table -/

/-- Every text over the alphabet is spelled by entries of a legal table (T0). -/
theorem exists_entries_of_text {t : List RomEntry} (h : tableLegal t = true) {text : List Byte}
    (htext : ∀ c ∈ text, InAlphabet c) : ∃ es : List RomEntry, (∀ e ∈ es, e ∈ t) ∧ es.map RomEntry.sym = text := by
  induction text with
  | nil => exact ⟨[], by simp, rfl⟩
  | cons c text ih =>
    obtain ⟨hc, htail⟩ := List.forall_mem_cons.1 htext
    obtain ⟨e, he, rfl⟩ := exists_entry_of_inAlphabet h hc
    obtain ⟨es, hes, rfl⟩ := ih htail
    exact ⟨e :: es, List.forall_mem_cons.2 ⟨he, hes⟩, rfl⟩

/-- The codewords of a text, one after the other. -/
def codewordBits (es : List RomEntry) : List Bool := es.flatMap entryBits

@[simp] theorem codewordBits_nil : codewordBits [] = [] := rfl

@[simp] theorem codewordBits_cons (e : RomEntry) (es : List RomEntry) :
    codewordBits (e :: es) = entryBits e ++ codewordBits es := List.flatMap_cons

/-- A codeword is at most 12 bits long (T1). -/
theorem codewordBits_length_le {es : List RomEntry} (h : ∀ e ∈ es, entryLegal e = true) :
    (codewordBits es).length ≤ 12 * es.length := by
  induction es with
  | nil => simp
  | cons e es ih =>
    obtain ⟨he, hes⟩ := List.forall_mem_cons.1 h
    obtain ⟨⟨-, h12⟩, -⟩ := (entryLegal_iff e).1 he
    have hrest := ih hes
    rw [codewordBits_cons, List.length_append, entryBits_length, List.length_cons]
    omega

theorem entryLen_toNat (e : RomEntry) : (entryLen e).toNat = e.len.toNat := by
  have hlt := e.len.isLt
  rw [entryLen, BitVec.toNat_setWidth, Nat.mod_eq_of_lt (by omega)]

/-- The operands that CODE_OF returns spell the entry's codeword (R86). -/
theorem bitsOf_entryData {e : RomEntry} (h : entryLegal e = true) : bitsOf (entryData e) e.len.toNat = entryBits e := by
  obtain ⟨⟨-, h12⟩, -⟩ := (entryLegal_iff e).1 h
  refine bitsOf_congr _ _ _ fun j hj => ?_
  have hin : j < 32 := by omega
  simp [entryData, hin]

/-- The value and the length NEXT returns for an entry's codeword are the entry's (R88, R121). -/
theorem entry_of_codeword {e : RomEntry} (h : entryLegal e = true) :
    e.val.toNat = (BitVec.ofNat 32 (valueOf (entryBits e))).toNat ∧
      e.len.toNat = (BitVec.ofNat 6 (entryBits e).length).toNat := by
  obtain ⟨-, hval, -⟩ := (entryLegal_iff e).1 h
  have hv := e.val.isLt
  have hl := e.len.isLt
  rw [entryBits_length, entryBits, valueOf_bitsOf, Nat.mod_eq_of_lt hval, BitVec.toNat_ofNat, BitVec.toNat_ofNat]
  omega

/-! ### The encoder -/

/-- ENCSYM packs the codeword of its symbol (R69). -/
theorem encSym_packs {s : State} {e : RomEntry} (hs : CanWrite s) (hrom : tableLegal s.rom = true) (he : e ∈ s.rom)
    (hok : SinkOk ((s.cnt.val + e.len.toNat - 1) / 8) s) :
    ∃ t out, encSym e.sym s = .next t ∧ t.rsp = some (rspWord .ok 0 0) ∧ Packs s (entryBits e) out t := by
  have hlegal := entryLegal_of_mem hrom he
  obtain ⟨⟨h3, h12⟩, -⟩ := (entryLegal_iff e).1 hlegal
  have hlen := entryLen_toNat e
  obtain ⟨t, out, hexec, hrsp, -, hp⟩ := exec_append_packs (s := respond .ok (entryLen e) (entryData e) s) (l := entryLen e)
    (entryData e) hs (by omega) (by omega) (by rwa [hlen])
  rw [hlen, bitsOf_entryData hlegal] at hp
  refine ⟨t, out, ?_, hrsp, ((Packs.refl s).respond _ _ _).trans hp⟩
  rw [encSym, issue_eq_exec, exec_codeOf_of_some hrom (codeOf_of_mem hrom he)]
  simp [andThen, issue_eq_exec, hexec]

/-- A FLUSH that does not fail does not answer IO_ERROR (R102, R172). -/
theorem rspIs_ioError_flushBuf {s : State} (h : (flushBuf s).failed = false) : rspIs .ioError (flushBuf s) = false := by
  rcases flushBuf_cases s with ⟨-, hf⟩ | ⟨-, -, hf⟩ | ⟨-, -, hf⟩ | ⟨-, -, hf⟩ <;> rw [hf] at h ⊢
  · simp [statusCode]
  · simp [statusCode]
  · exact absurd h (by simp)
  · exact absurd h (by simp)

/-- The encoder's loop packs the codewords of its text, and FLUSH fills the last byte with zeros (R186). -/
theorem encodeSymbols_packs {es : List RomEntry} {s : State} (hs : CanWrite s) (hrom : tableLegal s.rom = true)
    (hes : ∀ e ∈ es, e ∈ s.rom) (hok : SinkOk ((s.cnt.val + (codewordBits es).length + 7) / 8) s) :
    ∃ t out k, encodeSymbols (es.map RomEntry.sym) s = endRun .done t ∧ t.cnt = 0 ∧ k < 8 ∧
      Packs s (codewordBits es ++ List.replicate k false) out t := by
  induction es generalizing s with
  | nil =>
    have hans (hc : s.cnt ≠ 0) : sinkAnswerAt s.sink 0 = .ok := by
      have hpos : s.cnt.val ≠ 0 := fun hz => hc (Fin.ext hz)
      exact hok 0 (by omega)
    obtain ⟨t, out, hexec, hcnt, hp⟩ := exec_flush_packs hs hans
    refine ⟨t, out, _, ?_, hcnt, Nat.mod_lt _ (by decide), hp⟩
    have hfail : t.failed = false := hp.failed.trans hs.2
    cases (exec_flush_of_canWrite hs).symm.trans hexec
    rw [List.map_nil, encodeSymbols, issue_eq_exec, hexec]
    simp [andThen, rspIs_ioError_flushBuf hfail]
  | cons e es ih =>
    obtain ⟨he, hes'⟩ := List.forall_mem_cons.1 hes
    rw [codewordBits_cons, List.length_append, entryBits_length] at hok
    obtain ⟨t, out, henc, hrsp, hp⟩ := encSym_packs hs hrom he fun n hn => hok n (by omega)
    have hlen := hp.length_eq
    rw [entryBits_length] at hlen
    have hrom' : t.rom = s.rom := hp.frame.rom
    obtain ⟨u, out', k, hrun, hcnt, hk, hq⟩ := ih (hp.canWrite hs) (by rwa [hrom']) (by rwa [hrom'])
      (hp.sinkOk fun n hn => hok n (by omega))
    refine ⟨u, out ++ out', k, ?_, hcnt, hk, by simpa using hp.trans hq⟩
    rw [List.map_cons, encodeSymbols, henc, ← hrun]
    simp [andThen, rspIs_of_rsp hrsp, statusCode]

/-- The encoder driver's bytes spell the codewords of its text and fewer than 8 zeros (R103, R186). -/
theorem encodeDriver_streamBits {es : List RomEntry} {s : State} (hm : s.mode = .idle) (hrom : tableLegal s.rom = true)
    (hes : ∀ e ∈ es, e ∈ s.rom) (hok : SinkOk (2 * es.length) s) :
    ∃ t out k, encodeDriver (es.map RomEntry.sym) s = .next (.done, t) ∧ t.sink.bytes = s.sink.bytes ++ out ∧ k < 8 ∧
      streamBits out = codewordBits es ++ List.replicate k false := by
  have hlen := codewordBits_length_le fun e he => entryLegal_of_mem hrom (hes e he)
  obtain ⟨t, out, k, hrun, hcnt, hk, hp⟩ := encodeSymbols_packs (s := respond .ok 0 0 (setPass .enc s)) ⟨rfl, rfl⟩ hrom hes
    fun n hn => hok n (by change n < (0 + _ + 7) / 8 at hn; omega)
  refine ⟨respond .ok 0 0 (setPass .idle t), out, k, ?_, hp.bytes, hk, ?_⟩
  · rw [encodeDriver, issue_eq_exec, exec_startEnc_of_idle hm, andThen, hrun, endRun_eq]
  · have hstart : heldBits (respond .ok 0 0 (setPass .enc s)) = [] := heldBits_of_empty rfl
    have hstream := hp.stream
    rwa [hstart, heldBits_of_empty hcnt, List.append_nil] at hstream

/-! ### The decoder -/

/-- `Decoding es s`: in an open decode pass, what is left to read are the codewords of `es` and then fewer than 8 zeros, from a
source that refuses no pull (R133). -/
structure Decoding (es : List RomEntry) (s : State) : Prop where
  canRead : CanRead s
  eos : s.eos = false
  rom : tableLegal s.rom = true
  mem : ∀ e ∈ es, e ∈ s.rom
  answers : SourceOk (s.source.bytes.length + 1) s
  unread : ∃ k < 8, unreadBits s = codewordBits es ++ List.replicate k false

/-- A response is no part of what is left to read. -/
theorem Decoding.respond {es : List RomEntry} {s : State} (h : Decoding es s) (st : Status) (l : LenField) (d : DataField) :
    Decoding es (respond st l d s) :=
  ⟨h.canRead, h.eos, h.rom, h.mem, h.answers, h.unread⟩

/-- DECSYM returns the symbol whose codeword is next, and leaves the later ones (R69). -/
theorem decSym_of_decoding {e : RomEntry} {es : List RomEntry} {s : State} (h : Decoding (e :: es) s) :
    ∃ t, decSym s = .next (respond .ok 0 (symData e) t) ∧ Decoding es t := by
  obtain ⟨hs, heos, hrom, hmem, hok, k, hk, hunread⟩ := h
  obtain ⟨he, hes⟩ := List.forall_mem_cons.1 hmem
  have hlegal := entryLegal_of_mem hrom he
  obtain ⟨⟨-, h12⟩, -⟩ := (entryLegal_iff e).1 hlegal
  obtain ⟨hmax, -⟩ := decMaxW_bounds hs
  rw [codewordBits_cons, List.append_assoc] at hunread
  have hlen := congrArg List.length hunread
  simp only [unreadBits, List.length_append, heldBits_length, streamBits_length, entryBits_length] at hlen
  obtain ⟨t, pulled, hexec, hread⟩ := exec_next_codeword hs heos (framed_entryBits hlegal)
    (by rw [entryBits_length]; omega) hunread fun n hn => hok n (by rw [entryBits_length, pullsFor] at hn; omega)
  have hrom' : t.rom = s.rom := hread.rom
  obtain ⟨hval, hlenEq⟩ := entry_of_codeword hlegal
  have hsym := exec_symbolOf_of_mem
    (s := respond .codeword (BitVec.ofNat 6 (entryBits e).length) (BitVec.ofNat 32 (valueOf (entryBits e))) t)
    (by rwa [respond_rom, hrom']) (by rwa [respond_rom, hrom']) hval hlenEq
  refine ⟨t, ?_, hread.canRead hs, hread.eos.trans heos, by rwa [hrom'], by rwa [hrom'], ?_, k, hk, ?_⟩
  · rw [decSym, issue_eq_exec, hexec]
    simp only [andThen, rspIs_respond, beq_self_eq_true, if_true, rspLen_respond, rspData_respond, issue_eq_exec, hsym]
    rfl
  · refine hread.sourceOk fun n hn => hok n ?_
    rw [hread.bytes, List.length_append]
    omega
  · exact List.append_cancel_left (hread.unread.symm.trans hunread)

/-- With nothing but padding left, NEXT answers END_OF_STREAM (R125, R126). -/
theorem exec_next_of_decoding_nil {s : State} (h : Decoding [] s) :
    ∃ t, exec .next s = .next t ∧ t.rsp = some (rspWord .endOfStream 0 0) := by
  obtain ⟨hs, heos, -, -, hok, k, hk, hunread⟩ := h
  rw [codewordBits_nil, List.nil_append] at hunread
  have hlen := congrArg List.length hunread
  simp only [unreadBits, List.length_append, heldBits_length, streamBits_length, List.length_replicate] at hlen
  have hbytes : s.source.bytes = [] := List.eq_nil_of_length_eq_zero (by omega)
  have hans : sourceAnswerAt s.source 0 = .ok := hok 0 (by omega)
  by_cases hc : s.cnt = 0
  · obtain ⟨-, hend⟩ := nextAtTheEnd s hs hc
    exact ⟨_, hend heos hbytes hans, rfl⟩
  · have hpos : s.cnt.val ≠ 0 := fun hz => hc (Fin.ext hz)
    have hzero : ∀ b ∈ heldBits s, b = false := fun b hb =>
      List.eq_of_mem_replicate (n := k) (by rw [← hunread]; exact List.mem_append_left _ hb)
    obtain ⟨hend, -⟩ := paddingRule s hs (by omega) (by omega) hzero
    exact ⟨_, hend hans hbytes, rfl⟩

/-- The decoder's loop writes the symbols whose codewords are left, and ends at the end of the stream (R187). -/
theorem decodeSymbols_of_decoding {es : List RomEntry} {s : State} (h : Decoding es s) {n : Nat} (hn : es.length < n)
    (written : List Byte) : ∃ v, decodeSymbols n written s = .next ((.done, written ++ es.map RomEntry.sym), v) := by
  induction es generalizing s n written with
  | nil =>
    obtain ⟨n, rfl⟩ := Nat.exists_eq_succ_of_ne_zero (Nat.ne_of_gt hn)
    obtain ⟨t, hexec, hrsp⟩ := exec_next_of_decoding_nil h
    refine ⟨respond .ok 0 0 (setPass .idle t), ?_⟩
    rw [decodeSymbols, decSym, issue_eq_exec, hexec]
    simp [andThen, rspIs_of_rsp hrsp, statusCode, endRun_eq]
  | cons e es ih =>
    obtain ⟨n, rfl⟩ := Nat.exists_eq_succ_of_ne_zero (Nat.ne_of_gt (Nat.zero_lt_of_lt hn))
    obtain ⟨t, hdec, hrest⟩ := decSym_of_decoding h
    obtain ⟨v, hrun⟩ := ih (hrest.respond .ok 0 (symData e)) (Nat.lt_of_succ_lt_succ hn) (written ++ [e.sym])
    have hsym : (symData e).setWidth 8 = e.sym := by simp [symData]
    refine ⟨v, ?_⟩
    rw [List.map_cons, List.append_cons, ← hrun, decodeSymbols, hdec]
    simp [andThen, statusCode, hsym]

/-- START_DEC from IDLE opens a decode pass (R151). -/
theorem exec_startDec_of_idle {s : State} (hm : s.mode = .idle) :
    exec .startDec s = .next (respond .ok 0 0 (setPass .dec s)) := if_pos hm

/-- Settles O56: the encoder's bytes are the codewords and fewer than 8 zeros, which is what the decoder reads back. -/
theorem roundTrip : Obligations.RoundTrip := by
  unfold Obligations.RoundTrip
  intro s text hm hrom htext hok
  obtain ⟨es, hes, rfl⟩ := exists_entries_of_text hrom htext
  rw [List.length_map] at hok ⊢
  obtain ⟨t, out, k, hrun, hbytes, hk, hbits⟩ := encodeDriver_streamBits hm hrom hes hok
  refine ⟨t, out, hrun, hbytes, fun u n hidle hrom' hmax hsource hans hn => ?_⟩
  have hdec : Decoding es (respond .ok 0 0 (setPass .dec u)) :=
    { canRead := ⟨rfl, rfl, hmax⟩
      eos := rfl
      rom := hrom'.symm ▸ hrom
      mem := hrom'.symm ▸ hes
      answers := hsource.symm ▸ hans
      unread := ⟨k, hk, by rw [← hbits, ← hsource]; rfl⟩ }
  obtain ⟨v, hv⟩ := decodeSymbols_of_decoding hdec hn []
  refine ⟨v, ?_⟩
  rw [decodeDriver, issue_eq_exec, exec_startDec_of_idle hidle]
  exact hv

end Sys2Proof.Machine
end

section
/-! Pass control (spec/44_pass_control.md R150 to R153): the command words without operands, and what START_ENC, START_DEC, END
and STATUS do to the state. -/

namespace Sys2Proof.Machine

open Sys2Proof.Safety

/-! ### Words and refusals -/

/-- A word with the opcode of a command without operands is that command's word, or it is ILLEGAL_COMMAND (R64, R66). -/
theorem runWord_of_ne_encode {i : Instr} (hi : i ∈ bareCommands) {w : CmdWord} (hop : fieldOf w 44 4 = (opcode i).toNat)
    (hw : w ≠ encode i) (s : State) : runWord w s = .next { s with rsp := some 0x700000000000 } := by
  refine illegalWordsAreAnswered s w fun hlegal => hw (BitVec.eq_of_toNat_eq ?_)
  obtain ⟨-, hmem, h3, h78, h9⟩ := wellFormed_and_opcode_of_mem_bareCommands i hi
  have hzero : fieldOf w 0 44 = 0 := by
    simpa only [FieldsLegal, hop, hmem, h3, h78, h9, true_and, false_and, or_false] using hlegal
  rw [encode_of_mem_bareCommands i hi, mkCmd_toNat]
  rw [fieldOf_eq] at hop hzero
  have hlt := w.isLt
  change w.toNat = (opcode i).toNat * 2 ^ 44 + 0 + 0
  omega

/-- START_ENC and START_DEC are WRONG_MODE while a pass is open (R150, R151). -/
theorem exec_start_of_not_idle {i : Instr} {s : State} (hi : i = .startEnc ∨ i = .startDec) (hm : s.mode ≠ .idle) :
    exec i s = .next { s with rsp := some 0x800000000000 } := by
  obtain ⟨-, -, -, -, -, -, -, hstart⟩ := checksBeforeExecution s 0 0
  obtain ⟨henc, hdec⟩ := hstart hm
  rcases hi with rfl | rfl
  · exact henc
  · exact hdec

/-! ### The statements -/

/-- Settles O24: past the mode check START_ENC creates the buffer and opens the pass. -/
theorem startEncOpensAPass : Obligations.StartEncOpensAPass := by
  unfold Obligations.StartEncOpensAPass
  refine ⟨rfl, fun s => ⟨exec_startEnc_of_idle, exec_start_of_not_idle (.inl rfl), fun w hop hw => ?_⟩⟩
  exact runWord_of_ne_encode (i := .startEnc) (by decide) hop hw s

/-- Settles O25: past the mode check START_DEC creates the buffer and opens the pass, and the source is not read. -/
theorem startDecOpensAPass : Obligations.StartDecOpensAPass := by
  unfold Obligations.StartDecOpensAPass
  refine ⟨rfl, fun s => ⟨exec_startDec_of_idle, exec_start_of_not_idle (.inr rfl), fun w hop hw => ?_⟩⟩
  exact runWord_of_ne_encode (i := .startDec) (by decide) hop hw s

/-- Settles O26: END makes no check and discards the buffer. -/
theorem endClosesThePass : Obligations.EndClosesThePass := by
  unfold Obligations.EndClosesThePass
  refine ⟨rfl, fun s => ⟨rfl, fun w hop hw => ?_⟩⟩
  exact runWord_of_ne_encode (i := .endPass) (by decide) hop hw s

/-- The number the state word spells (R153): each field at its bit position. -/
theorem statusWord_toNat (s : State) :
    (statusWord s).toNat = s.failed.toNat * 2 ^ 15 + s.eos.toNat * 2 ^ 14 + (modeBits s.mode).toNat * 2 ^ 12 +
      s.cnt.val * 2 ^ 8 + s.acc.toNat := by
  have hcnt : (BitVec.ofNat 4 s.cnt.val).toNat = s.cnt.val := by
    rw [BitVec.toNat_ofNat]; omega
  simp only [statusWord, BitVec.toNat_append]
  rw [← Nat.shiftLeft_add_eq_or_of_lt s.acc.isLt, ← Nat.shiftLeft_add_eq_or_of_lt (BitVec.ofNat 4 s.cnt.val).isLt,
    ← Nat.shiftLeft_add_eq_or_of_lt (modeBits s.mode).isLt, ← Nat.shiftLeft_add_eq_or_of_lt (BitVec.ofBool s.eos).isLt,
    ← Nat.shiftLeft_add_eq_or_of_lt (BitVec.ofBool s.failed).isLt, hcnt]
  simp only [Nat.shiftLeft_eq, BitVec.toNat_ofBool, BitVec.toNat_ofNat]
  omega

/-- Settles O27: STATUS makes no check and answers the state word. -/
theorem statusReadsTheState : Obligations.StatusReadsTheState := by
  unfold Obligations.StatusReadsTheState
  refine ⟨rfl, fun s => ⟨⟨statusWord s, rfl, ?_⟩, fun w hop hw => ?_⟩⟩
  · rw [statusWord_toNat]
    cases s.mode <;> rfl
  · exact runWord_of_ne_encode (i := .status) (by decide) hop hw s

end Sys2Proof.Machine
end

section
/-! The pass lifecycle (spec/44_pass_control.md R154): which commands change `mode`, and which answers of APPEND, FLUSH and
NEXT go with `failed` (spec/60_exceptions.md R172). -/

namespace Sys2Proof.Machine

open Sys2Proof.Safety

/-! ### What keeps the mode and the state -/

/-- Only the pass commands change the mode (R27). -/
theorem mode_of_exec {i : Instr} {s t : State} (h : exec i s = .next t)
    (hi : i ≠ .startEnc ∧ i ≠ .startDec ∧ i ≠ .endPass) : t.mode = s.mode := by
  obtain ⟨henc, hdec, hend⟩ := hi
  cases commandEffect_of_exec h with
  | report st l d => rfl
  | startEnc => exact absurd rfl henc
  | startDec => exact absurd rfl hdec
  | endPass => exact absurd rfl hend
  | append len data => exact (writeFrame_appendBits data len.toNat s).mode
  | flush => exact (writeFrame_flushBuf s).mode
  | padding => exact (readFrame_skipPadding s).mode
  | unpack => exact (readFrame_unpack s.decMaxW freshTemps s).mode

/-- A command that only reads changes nothing but the response (R90, R153). -/
theorem eq_with_rsp_of_onlyReads {i : Instr} {s t : State} (hi : OnlyReads i) (h : exec i s = .next t) :
    t = { s with rsp := t.rsp } := by
  rcases hi with ⟨c, rfl⟩ | ⟨c, rfl⟩ | ⟨l, d, rfl⟩ | rfl <;>
    cases commandEffect_of_exec h with
    | report => rfl

/-! ### How a pass fails -/

/-- `PassReport fs s t`: a command of an open pass took `s` to `t` and failed the pass with one of the statuses `fs`, or left
`failed` as it was and answered a status that is not fatal (R172, R173). -/
inductive PassReport (fs : List FatalStatus) (s : State) : State → Prop
  | fatal {f : FatalStatus} (t : State) : f ∈ fs → PassReport fs s (fatal f t)
  | report {st : Status} {l : LenField} {d : DataField} {t : State} : st ≠ .corruptStream ∧ st ≠ .ioError →
      t.failed = s.failed → PassReport fs s (respond st l d t)

/-- A pass that had not failed has failed exactly if the answer is one of those statuses (R172). -/
theorem failed_iff_of_passReport {fs : List FatalStatus} {s t : State} (h : PassReport fs s t) (hs : s.failed = false) :
    t.failed = true ↔ ∃ f ∈ fs, t.rsp = some (rspWord (fatalCode f) 0 0) := by
  cases h with
  | @fatal f t hf => exact ⟨fun _ => ⟨f, hf, rfl⟩, fun _ => rfl⟩
  | @report st l d t hst ht =>
    refine ⟨fun hfail => ?_, fun ⟨f, _, hr⟩ => ?_⟩
    · exact absurd (hfail.symm.trans (ht.trans hs)) (by decide)
    · have hcode : st = fatalCode f :=
        statusCode_injective ((rspStatusBits_of_rsp hr).symm.trans (rspStatusBits_rspWord _ _ _))
      cases f with
      | corruptStream => exact absurd hcode hst.1
      | ioError => exact absurd hcode hst.2

theorem passReport_answer {fs : List FatalStatus} {st : Status} {s t : State}
    (hst : st ≠ .corruptStream ∧ st ≠ .ioError) (h : answer st s = .next t) : PassReport fs s t := by
  cases h
  exact .report hst rfl

theorem passReport_appendBits (v : DataField) (n : Nat) (s : State) : PassReport [.ioError] s (appendBits v n s) := by
  have hrun := appendRun_appendBits v n s
  generalize appendBits v n s = t at hrun
  cases hrun with
  | done hp => exact .report (by decide) hp.failed
  | refused => exact .fatal _ (by decide)

theorem passReport_flushBuf (s : State) : PassReport [.ioError] s (flushBuf s) := by
  rcases flushBuf_cases s with ⟨-, h⟩ | ⟨-, -, h⟩ | ⟨-, -, h⟩ | ⟨-, -, h⟩ <;> rw [h]
  · exact .report (by decide) rfl
  · exact .report (by decide) rfl
  · exact .fatal _ (by decide)
  · exact .fatal _ (by decide)

theorem passReport_of_nextOutcome {s t : State} (h : NextOutcome s t) : PassReport [.corruptStream, .ioError] s t := by
  cases h with
  | codeword hread => exact .report (by decide) hread.failed
  | endOfStream _ _ _ hf => exact .report (by decide) hf
  | fatal f t => exact .fatal t (by cases f <;> decide)

/-- A pass command reports as its run does: a check that fails answers WRONG_MODE or FAILED (R64, R174). -/
theorem passReport_of_inPass {fs : List FatalStatus} {m : Mode} {run : State → Result} {s t : State}
    (h : inPass m run s = .next t) (hrun : run s = .next t → PassReport fs s t) : PassReport fs s t := by
  rcases inPass_cases m run s with ⟨-, he⟩ | ⟨-, -, he⟩ | ⟨-, -, he⟩ <;> rw [he] at h
  · exact passReport_answer (by decide) h
  · exact passReport_answer (by decide) h
  · exact hrun h

theorem passReport_of_exec_append {l : LenField} {d : DataField} {s t : State} (h : exec (.append l d) s = .next t) :
    PassReport [.ioError] s t := by
  cases hwf : WellFormed (.append l d) with
  | false => exact passReport_answer (by decide) ((exec_of_illFormed hwf s).symm.trans h)
  | true =>
    refine passReport_of_inPass ((exec_append_of_wellFormed hwf s).symm.trans h) fun hrun => ?_
    cases hrun
    exact passReport_appendBits d l.toNat s

theorem passReport_of_exec_flush {s t : State} (h : exec .flush s = .next t) : PassReport [.ioError] s t := by
  refine passReport_of_inPass h fun hrun => ?_
  cases hrun
  exact passReport_flushBuf s

theorem passReport_of_exec_next {s t : State} (h : exec .next s = .next t) :
    PassReport [.corruptStream, .ioError] s t := by
  cases nextEffect_of_exec h with
  | report st _ hst =>
    rcases hst with rfl | rfl
    · exact .report (by decide) rfl
    · exact .report (by decide) rfl
  | padding => exact passReport_of_nextOutcome (nextOutcome_skipPadding s)
  | unpack _ hrun => exact passReport_of_nextOutcome (nextOutcome_of_unpackRun hrun)

/-! ### The rows -/

/-- An APPEND or FLUSH keeps the mode, and fails a pass with IO_ERROR only (R154, R172). -/
theorem mode_and_failed_of_write {i : Instr} {s t : State} (hi : (∃ l d, i = .append l d) ∨ i = .flush)
    (h : exec i s = .next t) :
    t.mode = s.mode ∧ (s.failed = false → (t.failed = true ↔ t.rsp = some 0x600000000000)) := by
  have hreport : PassReport [.ioError] s t := by
    rcases hi with ⟨l, d, rfl⟩ | rfl
    · exact passReport_of_exec_append h
    · exact passReport_of_exec_flush h
  refine ⟨mode_of_exec h ?_, fun hf => ?_⟩
  · rcases hi with ⟨l, d, rfl⟩ | rfl <;> simp
  · have hiff := failed_iff_of_passReport hreport hf
    simp only [List.mem_singleton, exists_eq_left] at hiff
    exact hiff

/-- A NEXT keeps the mode, and fails a pass with CORRUPT_STREAM or IO_ERROR (R154, R172). -/
theorem mode_and_failed_of_next {s t : State} (h : exec .next s = .next t) :
    t.mode = s.mode ∧
      (s.failed = false → (t.failed = true ↔ t.rsp = some 0x300000000000 ∨ t.rsp = some 0x600000000000)) := by
  refine ⟨mode_of_exec h (by simp), fun hf => ?_⟩
  have hiff := failed_iff_of_passReport (passReport_of_exec_next h) hf
  simp only [List.mem_cons, List.not_mem_nil, or_false, exists_eq_or_imp, exists_eq_left] at hiff
  exact hiff

/-- APPEND, with legal fields, and FLUSH are WRONG_MODE outside an encode pass (R154, R177). -/
theorem exec_write_of_not_enc {i : Instr} {s : State} (hi : (∃ l d, i = .append l d ∧ WellFormed i = true) ∨ i = .flush)
    (hm : s.mode ≠ .enc) : exec i s = .next { s with rsp := some 0x800000000000 } := by
  rcases hi with ⟨l, d, rfl, hwf⟩ | rfl
  · exact (exec_append_of_wellFormed hwf s).trans (inPass_of_ne _ hm)
  · exact inPass_of_ne _ hm

/-- Settles O28: the rows are what each kind of command does in and outside its mode. -/
theorem passLifecycle : Obligations.PassLifecycle := by
  unfold Obligations.PassLifecycle
  intro i s t h
  have hstate {u : State} (hu : exec i s = .next u) : t = u := Host.Outcome.next.inj (h.symm.trans hu)
  refine ⟨?_, ?_, fun hi hm => ?_, ?_, ?_, fun hi => eq_with_rsp_of_onlyReads hi h,
    fun hi hm => hstate (exec_start_of_not_idle hi hm), fun hi hm => hstate (exec_write_of_not_enc hi hm), ?_⟩
  · rintro rfl hm
    rw [hstate (exec_startEnc_of_idle hm)]
    exact ⟨rfl, rfl⟩
  · rintro rfl hm
    rw [hstate (exec_startDec_of_idle hm)]
    exact ⟨rfl, rfl⟩
  · rw [← hm]
    exact mode_and_failed_of_write hi h
  · rintro rfl hm
    rw [← hm]
    exact mode_and_failed_of_next h
  · rintro rfl
    cases h
    exact ⟨rfl, rfl⟩
  · rintro rfl hm
    exact hstate (inPass_of_ne _ hm)

end Sys2Proof.Machine
end

section
/-! The idle core and the bound streams (spec/60_exceptions.md R181, R184), and the way out of a failed pass (R175). -/

namespace Sys2Proof.Machine

/-! ### The host's turns that run no command -/

theorem step_of_host_nil {s : State} (h : s.host = []) : step s = .next s := by
  simp only [step, hostTurn, h]

theorem step_of_host_bindSink {s : State} {bs : List Byte} {rest : List HostAction} (h : s.host = .bindSink bs :: rest) :
    step s = .next (bindSink bs (s.setHost rest)) := by
  simp only [step, hostTurn, h]

theorem step_of_host_bindSource {s : State} {bs : List Byte} {rest : List HostAction}
    (h : s.host = .bindSource bs :: rest) : step s = .next (bindSource bs (s.setHost rest)) := by
  simp only [step, hostTurn, h]

/-- Settles O7: with nothing to do the step returns the state it had, and a binding replaces one stream's bytes. -/
theorem coreIsIdleBetweenCommands : Obligations.CoreIsIdleBetweenCommands := by
  unfold Obligations.CoreIsIdleBetweenCommands
  exact fun s rest bs => ⟨step_of_host_nil, step_of_host_bindSink, step_of_host_bindSource⟩

/-! ### Out of a failed pass -/

/-- In a failed pass the checks stop every command that writes the registers but END (R174, R175). -/
theorem endPass_of_failed_cleared {i : Instr} {s t : State} (h : exec i s = .next t) (hs : s.failed = true)
    (hm : s.mode ≠ .idle) (ht : t.failed = false) : i = .endPass := by
  have hcontra {P : Prop} (hf : s.failed = false) : P := absurd (hs.symm.trans hf) (by decide)
  cases commandEffect_of_exec h with
  | report st l d => exact hcontra ht
  | startEnc hidle => exact absurd hidle hm
  | startDec hidle => exact absurd hidle hm
  | endPass => rfl
  | append _ _ _ hf => exact hcontra hf
  | flush _ hf => exact hcontra hf
  | padding _ hf => exact hcontra hf
  | unpack _ hf => exact hcontra hf

/-- The one word that takes the core out of a failed pass is END's (R175). -/
theorem endWord_of_failed_cleared {w : CmdWord} {s t : State} (h : runWord w s = .next t) (hs : s.failed = true)
    (hm : s.mode ≠ .idle) (ht : t.failed = false) : w = 0x600000000000 := by
  rcases runWord_cases w s with ⟨i, hdec, hrun⟩ | ⟨e, -, hrun⟩ <;> rw [hrun] at h
  · obtain rfl := endPass_of_failed_cleared h hs hm ht
    exact (encodeOfDecode w .endPass hdec).symm
  · cases h
    exact absurd (hs.symm.trans ht) (by decide)

/-- Settles O18: of the command words only END's clears `failed`, and of the host's other actions only the two resets touch it. -/
theorem onlyEndOrResetClearsFailed : Obligations.OnlyEndOrResetClearsFailed := by
  unfold Obligations.OnlyEndOrResetClearsFailed
  intro s t hs hm h ht
  have hcontra {P : Prop} (hf : s.failed = false) : P := absurd (hs.symm.trans hf) (by decide)
  rcases step_cases h with ⟨-, rfl⟩ | ⟨w, rest, hhost, hrun⟩ | ⟨rest, hhost, -⟩ | ⟨w, n, rest, u, hhost, -, -⟩ |
    ⟨bs, rest, -, rfl⟩ | ⟨bs, rest, -, rfl⟩
  · exact hcontra ht
  · obtain rfl := endWord_of_failed_cleared hrun hs hm ht
    exact ⟨rest, .inl hhost⟩
  · exact ⟨rest, .inr (.inl hhost)⟩
  · exact ⟨rest, .inr (.inr ⟨w, n, hhost⟩)⟩
  · exact hcontra ht
  · exact hcontra ht

end Sys2Proof.Machine
end

section
/-! The statuses (spec/60_exceptions.md R170 to R176): which command raises which, and what each kind of status says of the state
it leaves. -/

namespace Sys2Proof.Machine

open Sys2Proof.Safety

/-- The "raised by" column of R170, one row a status. -/
def RaisedBy (i : Instr) : Status → Prop
  | .ok => i ≠ .next
  | .codeword | .endOfStream | .corruptStream => i = .next
  | .unknownSymbol => (∃ c, i = .codeOf c) ∨ ∃ c, i = .bitlenOf c
  | .unknownCode => ∃ l d, i = .symbolOf l d
  | .ioError | .failed => (∃ l d, i = .append l d) ∨ i = .flush ∨ i = .next
  | .illegalCommand => WellFormed i = false
  | .wrongMode => i = .startEnc ∨ i = .startDec ∨ (∃ l d, i = .append l d) ∨ i = .flush ∨ i = .next

theorem raisedBy_ok {i : Instr} (h : i ≠ .next) : RaisedBy i .ok := h

/-- What a status reports: that the command did its work, an error that changes nothing (R176), or a failed pass (R172). -/
inductive StatusKind where
  | success
  | error
  | fatal
deriving DecidableEq

/-- The kind of each status (R170, R173, R176). -/
def statusKind : Status → StatusKind
  | .ok | .codeword | .endOfStream => .success
  | .unknownSymbol | .unknownCode | .illegalCommand | .wrongMode | .failed => .error
  | .corruptStream | .ioError => .fatal

theorem statusKind_eq_error_iff (st : Status) :
    statusKind st = .error ↔
      statusCode st = 0x7 ∨ statusCode st = 0x8 ∨ statusCode st = 0x9 ∨ statusCode st = 0x4 ∨ statusCode st = 0x5 := by
  cases st <;> decide

theorem statusKind_eq_fatal_iff (st : Status) :
    statusKind st = .fatal ↔ statusCode st = 0x3 ∨ statusCode st = 0x6 := by
  cases st <;> decide

@[simp] theorem statusKind_fatalCode (f : FatalStatus) : statusKind (fatalCode f) = .fatal := by
  cases f <;> rfl

theorem statusCode_fatalCode_eq_ioError_iff (f : FatalStatus) : statusCode (fatalCode f) = 0x6 ↔ f = .ioError := by
  cases f <;> decide

/-- `CommandEnd s i t`: command `i` ends in `t` with a status that R170 lets it return. After a success the pass has not newly
failed; an error changes nothing but the response; a fatal status ends a pass that had not failed, and with IO_ERROR the command
has left `eos` alone (R172). -/
inductive CommandEnd (s : State) (i : Instr) : State → Prop
  | success (st : Status) {l : LenField} {d : DataField} {t : State} : RaisedBy i st → statusKind st = .success →
      (t.failed = true → s.failed = true) → CommandEnd s i (respond st l d t)
  | error (st : Status) : RaisedBy i st → statusKind st = .error → CommandEnd s i (respond st 0 0 s)
  | fatal (f : FatalStatus) {t : State} : RaisedBy i (fatalCode f) → s.failed = false → (f = .ioError → t.eos = s.eos) →
      CommandEnd s i (fatal f t)

/-! ### The checks -/

theorem commandEnd_of_answer {i : Instr} (st : Status) {s t : State} (hi : RaisedBy i st) (hst : statusKind st = .error)
    (h : answer st s = .next t) : CommandEnd s i t := by
  cases h
  exact .error st hi hst

theorem commandEnd_of_inMode {i : Instr} {m : Mode} {run : State → Result} {s t : State} (h : inMode m run s = .next t)
    (hi : RaisedBy i .wrongMode) (hrun : run s = .next t → CommandEnd s i t) : CommandEnd s i t := by
  rcases inMode_cases m run s with ⟨-, he⟩ | ⟨-, he⟩ <;> rw [he] at h
  · exact commandEnd_of_answer .wrongMode hi rfl h
  · exact hrun h

theorem commandEnd_of_inPass {i : Instr} {m : Mode} {run : State → Result} {s t : State} (h : inPass m run s = .next t)
    (hmode : RaisedBy i .wrongMode) (hfailed : RaisedBy i .failed)
    (hrun : s.failed = false → run s = .next t → CommandEnd s i t) : CommandEnd s i t := by
  rcases inPass_cases m run s with ⟨-, he⟩ | ⟨-, -, he⟩ | ⟨-, hf, he⟩ <;> rw [he] at h
  · exact commandEnd_of_answer .wrongMode hmode rfl h
  · exact commandEnd_of_answer .failed hfailed rfl h
  · exact hrun hf h

/-- The table check refuses or lets the lookup run (R84). -/
theorem commandEnd_of_withTable {i : Instr} {run : State → Result} {s t : State} (h : withTable run s = .next t)
    (hrun : run s = .next t → CommandEnd s i t) : CommandEnd s i t := by
  rcases withTable_cases run s with ⟨-, he⟩ | ⟨-, he⟩ <;> rw [he] at h
  · exact hrun h
  · cases h

/-! ### The commands -/

theorem commandEnd_of_append {l : LenField} {d : DataField} {s t : State} (h : exec (.append l d) s = .next t) :
    CommandEnd s (.append l d) t := by
  cases hwf : WellFormed (.append l d) with
  | false => exact commandEnd_of_answer .illegalCommand hwf rfl ((exec_of_illFormed hwf s).symm.trans h)
  | true =>
    have hwrite : RaisedBy (.append l d) .ioError := .inl ⟨l, d, rfl⟩
    refine commandEnd_of_inPass ((exec_append_of_wellFormed hwf s).symm.trans h) (.inr (.inr (.inl ⟨l, d, rfl⟩))) hwrite
      fun hf hrun => ?_
    cases hrun
    have hloop := appendRun_appendBits d l.toNat s
    generalize appendBits d l.toNat s = t at hloop
    cases hloop with
    | done hp => exact .success .ok (raisedBy_ok nofun) rfl fun ht => hp.failed.symm.trans ht
    | refused hp => exact .fatal .ioError hwrite hf fun _ => hp.frame.eos

theorem commandEnd_of_flush {s t : State} (h : exec .flush s = .next t) : CommandEnd s .flush t := by
  have hok : RaisedBy .flush .ok := raisedBy_ok nofun
  have hwrite : RaisedBy .flush .ioError := .inr (.inl rfl)
  refine commandEnd_of_inPass h (.inr (.inr (.inr (.inl rfl)))) hwrite fun hf hrun => ?_
  cases hrun
  rcases flushBuf_cases s with ⟨-, he⟩ | ⟨-, -, he⟩ | ⟨-, -, he⟩ | ⟨-, -, he⟩ <;> rw [he]
  · exact .success .ok hok rfl id
  · exact .success .ok hok rfl id
  · exact .fatal .ioError hwrite hf fun _ => rfl
  · exact .fatal .ioError hwrite hf fun _ => rfl

theorem commandEnd_skipPadding {s : State} (hf : s.failed = false) : CommandEnd s .next (skipPadding s) := by
  rcases skipPadding_cases s with ⟨-, he⟩ | ⟨-, -, he⟩ | ⟨b, bs, -, -, he⟩ <;> rw [he]
  · exact .fatal .ioError (.inr (.inr rfl)) hf fun _ => rfl
  · exact .success .endOfStream rfl rfl id
  · exact .fatal .corruptStream rfl hf fun _ => rfl

theorem commandEnd_of_unpackRun {s t : State} (hf : s.failed = false) (h : UnpackRun s t) : CommandEnd s .next t := by
  cases h with
  | codeword hread => exact .success .codeword rfl rfl fun ht => hread.failed.symm.trans ht
  | leadingZero => exact .fatal .corruptStream rfl hf nofun
  | overlong => exact .fatal .corruptStream rfl hf nofun
  | @exhausted bits _ t u hread _ _ hr =>
    rcases exhausted_cases (tempsOf bits) u with ⟨-, he⟩ | ⟨-, he⟩ <;> rw [he]
    · have hu : u.failed = s.failed := by
        have hsearch := refill_failed t
        rw [hr] at hsearch
        exact hsearch.trans hread.failed
      exact .success .endOfStream rfl rfl fun ht => hu.symm.trans ht
    · exact .fatal .corruptStream rfl hf nofun
  | refused hread _ _ hr =>
    obtain ⟨-, -, -, rfl⟩ := refill_err hr
    exact .fatal .ioError (.inr (.inr rfl)) hf fun _ => hread.eos

theorem commandEnd_of_next {s t : State} (h : exec .next s = .next t) : CommandEnd s .next t := by
  cases nextEffect_of_exec h with
  | report st _ hst =>
    rcases hst with rfl | rfl
    · exact .error .wrongMode (by simp [RaisedBy]) rfl
    · exact .error .failed (by simp [RaisedBy]) rfl
  | padding hs => exact commandEnd_skipPadding hs.2.1
  | unpack hs hrun => exact commandEnd_of_unpackRun hs.2.1 hrun

theorem commandEnd_of_codeOf {c : Byte} {s t : State} (h : execCodeOf c s = .next t) :
    CommandEnd s (.codeOf c) t := by
  refine commandEnd_of_withTable h fun hrun => ?_
  rcases codeOf_cases s.rom c with ⟨e, -, -, he⟩ | ⟨-, he⟩ <;> simp only [he] at hrun
  · cases hrun
    exact .success .ok (raisedBy_ok nofun) rfl id
  · exact commandEnd_of_answer .unknownSymbol (.inl ⟨c, rfl⟩) rfl hrun

theorem commandEnd_of_bitlenOf {c : Byte} {s t : State} (h : execBitlenOf c s = .next t) :
    CommandEnd s (.bitlenOf c) t := by
  refine commandEnd_of_withTable h fun hrun => ?_
  rcases codeOf_cases s.rom c with ⟨e, -, -, he⟩ | ⟨-, he⟩ <;> simp only [he] at hrun
  · cases hrun
    exact .success .ok (raisedBy_ok nofun) rfl id
  · exact commandEnd_of_answer .unknownSymbol (.inr ⟨c, rfl⟩) rfl hrun

theorem commandEnd_of_symbolOf {l : LenField} {d : DataField} {s t : State} (h : execSymbolOf l d s = .next t) :
    CommandEnd s (.symbolOf l d) t := by
  refine commandEnd_of_withTable h fun hrun => ?_
  rcases symOf_cases s.rom d l with ⟨e, -, -, he⟩ | ⟨-, he⟩ <;> simp only [he] at hrun
  · cases hrun
    exact .success .ok (raisedBy_ok nofun) rfl id
  · exact commandEnd_of_answer .unknownCode ⟨l, d, rfl⟩ rfl hrun

/-- Every next state of a command is one of its ends (R170 to R176). -/
theorem commandEnd_of_exec {i : Instr} {s t : State} (h : exec i s = .next t) : CommandEnd s i t := by
  cases i with
  | startEnc | startDec =>
    simp only [exec, execStartEnc, execStartDec] at h
    refine commandEnd_of_inMode h (by simp [RaisedBy]) fun hrun => ?_
    cases hrun
    exact .success .ok (raisedBy_ok nofun) rfl nofun
  | append l d => exact commandEnd_of_append h
  | flush => exact commandEnd_of_flush h
  | next => exact commandEnd_of_next h
  | endPass =>
    cases h
    exact .success .ok (raisedBy_ok nofun) rfl nofun
  | codeOf c => exact commandEnd_of_codeOf h
  | bitlenOf c => exact commandEnd_of_bitlenOf h
  | symbolOf l d => exact commandEnd_of_symbolOf h
  | status =>
    cases h
    exact .success .ok (raisedBy_ok nofun) rfl id

/-! ### The statements -/

/-- The status of a command's response is one that R170 lets the command return. -/
theorem raisedBy_of_exec {i : Instr} {s t : State} {r : RspWord} (h : exec i s = .next t) (hr : t.rsp = some r) :
    ∃ st, rspStatusBits r = statusCode st ∧ RaisedBy i st := by
  cases commandEnd_of_exec h with
  | success st hi => exact ⟨st, rspStatusBits_of_rsp hr, hi⟩
  | error st hi => exact ⟨st, rspStatusBits_of_rsp hr, hi⟩
  | fatal f hi => exact ⟨fatalCode f, rspStatusBits_of_rsp hr, hi⟩

/-- Settles O20: the status is a row of R170, and each row names the commands that raise it. -/
theorem statusesByCommand : Obligations.StatusesByCommand := by
  unfold Obligations.StatusesByCommand
  intro i s t r h hr
  obtain ⟨st, hst, hi⟩ := raisedBy_of_exec h hr
  rw [hst]
  cases st <;> simpa [statusCode, RaisedBy] using hi

/-- Settles O21: an error ends the command at once, and neither a success nor a fatal status has the code of an error. -/
theorem errorAnswersChangeNothing : Obligations.ErrorAnswersChangeNothing := by
  unfold Obligations.ErrorAnswersChangeNothing
  intro i s t r h hr hcode
  have hkind {st : Status} (hst : rspStatusBits r = statusCode st) : statusKind st = .error :=
    (statusKind_eq_error_iff st).2 (hst ▸ hcode)
  cases commandEnd_of_exec h with
  | success _ _ hsucc => exact absurd (hsucc.symm.trans (hkind (rspStatusBits_of_rsp hr))) (by decide)
  | error => rw [← hr]; rfl
  | fatal f => exact absurd ((statusKind_fatalCode f).symm.trans (hkind (rspStatusBits_of_rsp hr))) (by decide)

/-- No pass command raises a fatal status (R170). -/
theorem not_passCommand_of_raisedBy_fatal {i : Instr} {f : FatalStatus} (h : RaisedBy i (fatalCode f)) :
    i ≠ .startEnc ∧ i ≠ .startDec ∧ i ≠ .endPass := by
  refine ⟨?_, ?_, ?_⟩ <;> rintro rfl <;> cases f <;> simp [RaisedBy, fatalCode] at h

/-- A command that fails the pass keeps `eos` once it is set: only the pass commands clear it (R25). -/
theorem eos_of_fatal {i : Instr} {f : FatalStatus} {s t : State} (h : exec i s = .next t) (hi : RaisedBy i (fatalCode f))
    (hs : s.eos = true) : t.eos = true := by
  obtain ⟨henc, hdec, hend⟩ := not_passCommand_of_raisedBy_fatal hi
  refine Bool.eq_true_of_not_eq_false fun ht => ?_
  rcases passCommand_of_eos_cleared h hs ht with hpass | hpass | hpass
  · exact henc hpass
  · exact hdec hpass
  · exact hend hpass

/-- Settles O22: `raise Fatal` is the one end of a command that sets `failed`, and the one with a fatal status. -/
theorem fatalOutcomes : Obligations.FatalOutcomes := by
  unfold Obligations.FatalOutcomes
  intro i s t r h hr
  have hnot {st : Status} (hst : rspStatusBits r = statusCode st) (hkind : statusKind st ≠ .fatal) :
      ¬ (rspStatusBits r = 0x3 ∨ rspStatusBits r = 0x6) := by rwa [hst, ← statusKind_eq_fatal_iff]
  cases commandEnd_of_exec h with
  | success _ _ hkind hfail =>
    refine ⟨fun hcode => absurd hcode (hnot (rspStatusBits_of_rsp hr) (by simp [hkind])), fun hs ht => ?_⟩
    exact absurd (hs.symm.trans (hfail ht)) (by decide)
  | error _ _ hkind =>
    refine ⟨fun hcode => absurd hcode (hnot (rspStatusBits_of_rsp hr) (by simp [hkind])), fun hs ht => ?_⟩
    exact absurd (hs.symm.trans ht) (by decide)
  | fatal f hi hs hio =>
    have hst := rspStatusBits_of_rsp hr
    refine ⟨fun _ => ⟨rfl, rfl, rfl, ?_, hs, fun h6 => ?_, eos_of_fatal h hi⟩, fun _ _ => ?_⟩
    · exact mode_of_exec h (not_passCommand_of_raisedBy_fatal hi)
    · exact hio ((statusCode_fatalCode_eq_ioError_iff f).1 (hst.symm.trans h6))
    · rw [hst, ← statusKind_eq_fatal_iff]
      exact statusKind_fatalCode f

end Sys2Proof.Machine
end

section
/-! The device calls of one command (spec/60_exceptions.md R190): a device's `draws` counts the calls it has answered. -/

namespace Sys2Proof.Machine

open Sys2Proof.Safety

/-! ### SinkWrites -/

/-- APPEND's loop writes only to make room for a bit, and its room is 8 bits (R100). -/
theorem sinkDraws_of_appendRun {s t : State} {bits : List Bool} (h : AppendRun s bits t) :
    s.sink.oracle.draws ≤ t.sink.oracle.draws ∧
      t.sink.oracle.draws ≤ s.sink.oracle.draws + (s.cnt.val + bits.length - 1) / 8 := by
  cases h with
  | @done t out hp hempty =>
    have hout : out.length ≤ (s.cnt.val + bits.length - 1) / 8 := by
      by_cases hc : t.cnt = 0
      · obtain ⟨rfl, hs⟩ := hempty hc
        have hlen := hp.length_eq
        simp only [hc, hs, List.length_nil, Fin.val_zero] at hlen
        omega
      · exact (hp.counts hc).1.le
    simp only [respond_sink, hp.oracle, Oracle.skip_draws]
    omega
  | @refused t out taken rest hp hbits hrest h8 =>
    have hlt := hp.refused_lt hrest h8
    rw [← hbits] at hlt
    simp only [fatal_sink, State.setSink_sink, Sink.refuse, hp.oracle, Oracle.skip_draws]
    omega

/-- APPEND makes at most 4 SinkWrites: at most 8 bits are held and at most 32 come in (R100). -/
theorem sinkDraws_of_append {l : LenField} {d : DataField} {s t : State} (h : exec (.append l d) s = .next t) :
    s.sink.oracle.draws ≤ t.sink.oracle.draws ∧ t.sink.oracle.draws ≤ s.sink.oracle.draws + 4 := by
  cases hwf : WellFormed (.append l d) with
  | false =>
    rw [exec_of_illFormed hwf] at h
    cases h
    exact ⟨Nat.le_refl _, Nat.le_add_right _ _⟩
  | true =>
    obtain ⟨-, h32⟩ := (wellFormed_append_iff l d).1 hwf
    cases commandEffect_of_exec h with
    | report => exact ⟨Nat.le_refl _, Nat.le_add_right _ _⟩
    | append =>
      obtain ⟨hle, hmax⟩ := sinkDraws_of_appendRun (appendRun_appendBits d l.toNat s)
      rw [bitsOf_length] at hmax
      have hcnt := s.cnt.isLt
      omega

/-- FLUSH makes at most one SinkWrite (R102). -/
theorem sinkDraws_of_flush {s t : State} (h : exec .flush s = .next t) :
    s.sink.oracle.draws ≤ t.sink.oracle.draws ∧ t.sink.oracle.draws ≤ s.sink.oracle.draws + 1 := by
  cases commandEffect_of_exec h with
  | report => exact ⟨Nat.le_refl _, Nat.le_add_right _ _⟩
  | flush =>
    rcases flushBuf_cases s with ⟨-, he⟩ | ⟨-, -, he⟩ | ⟨-, -, he⟩ | ⟨-, -, he⟩ <;> rw [he] <;> simp

/-- A command makes at most 4 SinkWrites, since those that are neither APPEND nor FLUSH make none (R55, R190). -/
theorem sinkDraws_of_exec {i : Instr} {s t : State} (h : exec i s = .next t) :
    s.sink.oracle.draws ≤ t.sink.oracle.draws ∧ t.sink.oracle.draws ≤ s.sink.oracle.draws + 4 := by
  by_cases hsink : t.sink = s.sink
  · rw [hsink]
    exact ⟨Nat.le_refl _, Nat.le_add_right _ _⟩
  · obtain ⟨⟨l, d, rfl⟩ | rfl, -⟩ := appendOrFlush_of_sink_changed h hsink
    · exact sinkDraws_of_append h
    · exact (sinkDraws_of_flush h).imp_right fun hle => hle.trans (by omega)

/-! ### SourcePulls -/

/-- Consuming at most `n` bits pulls at most ⌈n/8⌉ bytes (R121). -/
theorem Reads.pulled_length_le {s t : State} {bits : List Bool} {pulled : List Byte} {n : Nat}
    (h : Reads s bits pulled t) (hn : bits.length ≤ n) : pulled.length ≤ (n + 7) / 8 := by
  by_cases hbits : bits = []
  · have hlen := h.length_eq
    have hcnt := t.cnt.isLt
    have hleft : s.cnt.val ≤ 7 → t.cnt.val ≤ 7 := fun h7 => h.leftover (.inl h7)
    rw [hbits, List.length_nil] at hlen
    omega
  · rw [h.pulled_length hbits, pullsFor]
    omega

/-- Each pull of a reading is a byte that was pulled. -/
theorem Reads.source_draws {s t : State} {bits : List Bool} {pulled : List Byte} (h : Reads s bits pulled t) :
    t.source.oracle.draws = s.source.oracle.draws + pulled.length := by
  rw [h.oracle, Oracle.skip_draws]

/-- The padding rule pulls exactly once (R125). -/
theorem sourceDraws_skipPadding (s : State) : (skipPadding s).source.oracle.draws = s.source.oracle.draws + 1 := by
  rcases skipPadding_cases s with ⟨-, he⟩ | ⟨-, -, he⟩ | ⟨b, bs, -, -, he⟩ <;> rw [he] <;> rfl

/-- NEXT's loop pulls for the bits it consumes, and once more where the last search for a bit finds no byte (R121). -/
theorem sourceDraws_of_unpackRun {s t : State} (hs : CanRead s) (h : UnpackRun s t) :
    s.source.oracle.draws ≤ t.source.oracle.draws ∧
      t.source.oracle.draws ≤ s.source.oracle.draws + ((s.decMaxW + 7) / 8 + 1) := by
  cases h with
  | codeword hread _ hle =>
    have hpulled := hread.pulled_length_le hle
    rw [respond_source, hread.source_draws]
    omega
  | leadingZero hread =>
    have hpulled := hread.pulled_length_le (n := s.decMaxW) (Nat.le_trans (by decide) (decMaxW_bounds hs).1)
    rw [fatal_source, hread.source_draws]
    omega
  | overlong hread _ heq =>
    have hpulled := hread.pulled_length_le heq.le
    rw [fatal_source, hread.source_draws]
    omega
  | exhausted hread _ hlt hr =>
    have hpulled := hread.pulled_length_le hlt.le
    have hdraws := hread.source_draws
    rw [exhausted_source]
    obtain ⟨-, ⟨-, rfl⟩ | ⟨-, -, -, rfl⟩⟩ := refill_exhausted hr
    · omega
    · simp only [State.setEos_source, State.setSource_source, Oracle.skip_draws]
      omega
  | refused hread _ hlt hr =>
    have hpulled := hread.pulled_length_le hlt.le
    have hdraws := hread.source_draws
    obtain ⟨-, -, -, rfl⟩ := refill_err hr
    simp only [fatal_source, State.setSource_source, Oracle.skip_draws]
    omega

/-- NEXT makes at most ⌈`DEC_MAX_W`/8⌉ + 1 SourcePulls (R190). -/
theorem sourceDraws_of_next {s t : State} (h : exec .next s = .next t) :
    s.source.oracle.draws ≤ t.source.oracle.draws ∧
      t.source.oracle.draws ≤ s.source.oracle.draws + ((s.decMaxW + 7) / 8 + 1) := by
  cases nextEffect_of_exec h with
  | report => exact ⟨Nat.le_refl _, Nat.le_add_right _ _⟩
  | padding =>
    rw [sourceDraws_skipPadding]
    omega
  | unpack hs hrun => exact sourceDraws_of_unpackRun hs hrun

/-- No command takes back a SourcePull, since those other than NEXT leave the source alone (R55). -/
theorem sourceDraws_le_of_exec {i : Instr} {s t : State} (h : exec i s = .next t) :
    s.source.oracle.draws ≤ t.source.oracle.draws := by
  by_cases hsource : t.source = s.source
  · rw [hsource]
  · obtain ⟨rfl, -⟩ := next_of_source_changed h hsource
    exact (sourceDraws_of_next h).1

/-- Settles O55: only APPEND and FLUSH write and only NEXT pulls, each for the bits that its loop moves. -/
theorem deviceCallsAreBounded : Obligations.DeviceCallsAreBounded := by
  unfold Obligations.DeviceCallsAreBounded
  intro i s t h
  obtain ⟨hsinkLe, hsinkMax⟩ := sinkDraws_of_exec h
  refine ⟨hsinkLe, hsinkMax, ?_, sourceDraws_le_of_exec h, ?_, ?_⟩
  · rintro rfl
    exact (sinkDraws_of_flush h).2
  · rintro rfl
    exact (sourceDraws_of_next h).2
  · rintro rfl hs h1 h7 hzero
    rw [exec_next_of_onlyPadding hs ((onlyPadding_iff s).2 ⟨h1, h7, hzero⟩)] at h
    cases h
    exact sourceDraws_skipPadding s

end Sys2Proof.Machine
end

section
/-! The host's turns, and reset between commands (spec/70_reset_and_hazards.md R200, R203). -/

namespace Sys2Proof.Machine

/-- A word that answers has run a command, or was answered ILLEGAL_COMMAND (R65). -/
theorem runWord_next {w : CmdWord} {s t : State} (h : runWord w s = .next t) :
    (∃ i, exec i s = .next t) ∨ t = respond .illegalCommand 0 0 s := by
  rcases runWord_cases w s with ⟨i, -, hrun⟩ | ⟨e, -, hrun⟩ <;> rw [hrun] at h
  · exact .inl ⟨i, h⟩
  · cases h
    exact .inr rfl

/-- No command touches what the host will do (R203). -/
theorem host_of_exec {i : Instr} {s t : State} (h : exec i s = .next t) : t.host = s.host := by
  cases commandEffect_of_exec h with
  | report st l d => rfl
  | startEnc => rfl
  | startDec => rfl
  | endPass => rfl
  | append len data => exact (writeFrame_appendBits data len.toNat s).host
  | flush => exact (writeFrame_flushBuf s).host
  | padding => exact (readFrame_skipPadding s).host
  | unpack => exact (readFrame_unpack s.decMaxW freshTemps s).host

theorem host_of_runWord {w : CmdWord} {s t : State} (h : runWord w s = .next t) : t.host = s.host := by
  rcases runWord_next h with ⟨i, hexec⟩ | rfl
  · exact host_of_exec hexec
  · rfl

/-- Settles O8: every turn takes one action off the host's list before anything else, and no command touches the rest. -/
theorem oneActionAStep : Obligations.OneActionAStep := by
  unfold Obligations.OneActionAStep
  intro s t h
  rcases step_cases h with ⟨hhost, rfl⟩ | ⟨w, rest, hhost, hrun⟩ | ⟨rest, hhost, rfl⟩ | ⟨w, n, rest, u, hhost, -, rfl⟩ |
    ⟨bs, rest, hhost, rfl⟩ | ⟨bs, rest, hhost, rfl⟩ <;> rw [hhost]
  · rfl
  · exact host_of_runWord hrun
  · rfl
  · rfl
  · rfl
  · rfl

theorem step_of_host_reset {s : State} {rest : List HostAction} (h : s.host = .reset :: rest) :
    step s = .next (resetCore (s.setHost rest)) := by
  simp only [step, hostTurn, h]

/-- Settles O10: the step is `resetCore`, which writes the registers and the response channel and nothing else. -/
theorem resetBetweenCommands : Obligations.ResetBetweenCommands := by
  unfold Obligations.ResetBetweenCommands
  exact fun s rest hhost => step_of_host_reset hhost

end Sys2Proof.Machine
end

section
/-! Reset during a command (spec/70_reset_and_hazards.md R200). A cut after `n` device calls is a part of the whole command
because each of a command's calls but the last moves a byte: only then are the first `n` calls `n` bytes of its stream. -/

namespace Sys2Proof.Machine

/-- Of the SinkWrites that take the sink from `k` to `l`, all but the last stored a byte (R42, R172). -/
abbrev StoresButLast (k l : Sink) : Prop :=
  l.oracle.draws + k.bytes.length ≤ k.oracle.draws + l.bytes.length + 1

/-- Of the SourcePulls that take the source from `k` to `l`, all but the last took a byte (R43, R172). -/
abbrev TakesButLast (k l : Source) : Prop :=
  l.oracle.draws + l.bytes.length ≤ k.oracle.draws + k.bytes.length + 1

/-! ### Every write but the last stores a byte -/

/-- APPEND goes on only after a write that is answered `Ok` (R100). -/
theorem storesButLast_of_appendRun {s t : State} {bits : List Bool} (h : AppendRun s bits t) :
    StoresButLast s.sink t.sink := by
  cases h with
  | done hp =>
    simp only [StoresButLast, respond_sink, hp.bytes, hp.oracle, Oracle.skip_draws, List.length_append]
    omega
  | refused hp =>
    simp only [StoresButLast, fatal_sink, State.setSink_sink, Sink.refuse, hp.bytes, hp.oracle, Oracle.skip_draws,
      List.length_append]
    omega

/-- FLUSH makes at most one write (R102). -/
theorem storesButLast_flushBuf (s : State) : StoresButLast s.sink (flushBuf s).sink := by
  rcases flushBuf_cases s with ⟨-, he⟩ | ⟨-, -, he⟩ | ⟨-, -, he⟩ | ⟨-, -, he⟩ <;> rw [he] <;> simp <;> omega

theorem storesButLast_of_exec {i : Instr} {s t : State} (h : exec i s = .next t) : StoresButLast s.sink t.sink := by
  have hkept {k : Sink} (hk : k = s.sink) : StoresButLast s.sink k := hk ▸ Nat.le_succ _
  cases commandEffect_of_exec h with
  | report st l d => exact hkept rfl
  | startEnc => exact hkept rfl
  | startDec => exact hkept rfl
  | endPass => exact hkept rfl
  | append len data => exact storesButLast_of_appendRun (appendRun_appendBits data len.toNat s)
  | flush => exact storesButLast_flushBuf s
  | padding => exact hkept (readFrame_skipPadding s).sink
  | unpack => exact hkept (readFrame_unpack s.decMaxW freshTemps s).sink

theorem storesButLast_of_runWord {w : CmdWord} {s t : State} (h : runWord w s = .next t) :
    StoresButLast s.sink t.sink := by
  rcases runWord_next h with ⟨i, hexec⟩ | rfl
  · exact storesButLast_of_exec hexec
  · exact Nat.le_succ _

/-! ### Every pull but the last takes a byte -/

/-- Each pull of a reading took a byte. -/
theorem Reads.draws_add_length {s t : State} {bits : List Bool} {pulled : List Byte} (h : Reads s bits pulled t) :
    t.source.oracle.draws + t.source.bytes.length = s.source.oracle.draws + s.source.bytes.length := by
  rw [h.source_draws, h.bytes, List.length_append]
  omega

/-- NEXT's loop ends at a pull that gives no byte (R121). -/
theorem takesButLast_of_unpackRun {s t : State} (h : UnpackRun s t) : TakesButLast s.source t.source := by
  cases h with
  | codeword hread => exact hread.draws_add_length.le.trans (Nat.le_succ _)
  | leadingZero hread => exact hread.draws_add_length.le.trans (Nat.le_succ _)
  | overlong hread => exact hread.draws_add_length.le.trans (Nat.le_succ _)
  | exhausted hread _ _ hr =>
    have hsum := hread.draws_add_length
    rw [exhausted_source]
    obtain ⟨-, ⟨-, rfl⟩ | ⟨-, -, -, rfl⟩⟩ := refill_exhausted hr
    · omega
    · simp only [TakesButLast, State.setEos_source, State.setSource_source, Oracle.skip_draws, List.length_nil]
      omega
  | refused hread _ _ hr =>
    have hsum := hread.draws_add_length
    obtain ⟨-, -, -, rfl⟩ := refill_err hr
    simp only [TakesButLast, fatal_source, State.setSource_source, Oracle.skip_draws]
    omega

/-- The padding rule makes one pull (R125). -/
theorem takesButLast_skipPadding (s : State) : TakesButLast s.source (skipPadding s).source := by
  have hlen := (source_suffix_of_skipPadding s).length_le
  rw [TakesButLast, sourceDraws_skipPadding]
  omega

theorem takesButLast_of_next {s t : State} (h : exec .next s = .next t) : TakesButLast s.source t.source := by
  cases nextEffect_of_exec h with
  | report => exact Nat.le_succ _
  | padding => exact takesButLast_skipPadding s
  | unpack _ hrun => exact takesButLast_of_unpackRun hrun

/-- A command takes bytes off the source's front, one with every pull but the last (R43, R55). -/
theorem source_of_exec {i : Instr} {s t : State} (h : exec i s = .next t) :
    t.source.bytes <:+ s.source.bytes ∧ TakesButLast s.source t.source := by
  by_cases hsource : t.source = s.source
  · rw [hsource]
    exact ⟨List.suffix_rfl, Nat.le_succ _⟩
  · obtain ⟨rfl, -⟩ := next_of_source_changed h hsource
    exact ⟨(nextFrame s t h).2, takesButLast_of_next h⟩

theorem source_of_runWord {w : CmdWord} {s t : State} (h : runWord w s = .next t) :
    t.source.bytes <:+ s.source.bytes ∧ TakesButLast s.source t.source := by
  rcases runWord_next h with ⟨i, hexec⟩ | rfl
  · exact source_of_exec hexec
  · exact ⟨List.suffix_rfl, Nat.le_succ _⟩

/-! ### A stream cut short -/

theorem Sink.cut_bytes_prefix (n : Nat) (k l : Sink) : (Sink.cut n k l).bytes <+: l.bytes := by
  rcases Nat.lt_or_ge (k.oracle.draws + n) l.oracle.draws with hlt | hge
  · rw [Sink.cut_some hlt]
    exact List.take_prefix _ _
  · rw [Sink.cut_all hge]

theorem Sink.cut_draws (n : Nat) (k l : Sink) :
    (Sink.cut n k l).oracle.draws = min (k.oracle.draws + n) l.oracle.draws := by
  rcases Nat.lt_or_ge (k.oracle.draws + n) l.oracle.draws with hlt | hge
  · rw [Sink.cut_some hlt, Oracle.skip_draws, min_eq_left hlt.le]
  · rw [Sink.cut_all hge, min_eq_right hge]

/-- Where the command makes more than `n` writes, its first `n` stored `n` bytes (R200). -/
theorem Sink.cut_length {n : Nat} {k l : Sink} (h : StoresButLast k l) (hlt : k.oracle.draws + n < l.oracle.draws) :
    (Sink.cut n k l).bytes.length = k.bytes.length + n := by
  rw [Sink.cut_some hlt, List.length_take_of_le (by omega)]

theorem Source.cut_draws (n : Nat) (k l : Source) :
    (Source.cut n k l).oracle.draws = min (k.oracle.draws + n) l.oracle.draws := by
  rcases Nat.lt_or_ge (k.oracle.draws + n) l.oracle.draws with hlt | hge
  · rw [Source.cut_some hlt, Oracle.skip_draws, min_eq_left hlt.le]
  · rw [Source.cut_all hge, min_eq_right hge]

/-- Where the command makes more than `n` pulls, its first `n` took `n` bytes (R200). -/
theorem Source.cut_length {n : Nat} {k l : Source} (h : TakesButLast k l) (hlt : k.oracle.draws + n < l.oracle.draws) :
    (Source.cut n k l).bytes.length + n = k.bytes.length := by
  rw [Source.cut_some hlt, List.length_drop]
  omega

theorem Source.cut_bytes_suffix (n : Nat) {k l : Source} (h : l.bytes <:+ k.bytes) :
    (Source.cut n k l).bytes <:+ k.bytes := by
  rcases Nat.lt_or_ge (k.oracle.draws + n) l.oracle.draws with hlt | hge
  · rw [Source.cut_some hlt]
    exact List.drop_suffix n _
  · rwa [Source.cut_all hge]

/-- The whole command takes the bytes that its first `n` pulls take. -/
theorem Source.bytes_suffix_cut (n : Nat) {k l : Source} (h : l.bytes <:+ k.bytes) (htakes : TakesButLast k l) :
    l.bytes <:+ (Source.cut n k l).bytes := by
  rcases Nat.lt_or_ge (k.oracle.draws + n) l.oracle.draws with hlt | hge
  · have hlen := Source.cut_length htakes hlt
    exact List.suffix_of_suffix_length_le h (Source.cut_bytes_suffix n h) (by omega)
  · rw [Source.cut_all hge]

/-! ### The step -/

theorem step_of_host_resetDuring {s t : State} {w : CmdWord} {n : Nat} {rest : List HostAction}
    (h : s.host = .resetDuring w n :: rest) (hrun : runWord w (s.setHost rest) = .next t) :
    step s = .next (abandon n (s.setHost rest) t) := by
  simp only [step, hostTurn, h, runCut, hrun]

/-- Settles O11: the step is `abandon`, a reset with both streams cut after `n` calls, and a cut lies between the stream before
the command and the stream the whole command leaves. -/
theorem resetDuringACommand : Obligations.ResetDuringACommand := by
  unfold Obligations.ResetDuringACommand
  intro s t w n rest hhost hrun
  have hgrows := sinkBytes_prefix_runWord hrun
  have hstores := storesButLast_of_runWord hrun
  obtain ⟨hshrinks, htakes⟩ := source_of_runWord hrun
  refine ⟨abandon n (s.setHost rest) t, step_of_host_resetDuring hhost hrun, rfl, ?_⟩
  exact ⟨Sink.bytes_prefix_cut n hgrows, Sink.cut_bytes_prefix n s.sink t.sink,
    Source.cut_bytes_suffix n hshrinks, Source.bytes_suffix_cut n hshrinks htakes,
    Sink.cut_draws n s.sink t.sink, Source.cut_draws n s.source t.source,
    fun hlt => ⟨Sink.cut_length hstores hlt, congrArg Sink.oracle (Sink.cut_some hlt)⟩,
    fun hlt => ⟨Source.cut_length htakes hlt, congrArg Source.oracle (Source.cut_some hlt)⟩,
    Sink.cut_all, Source.cut_all⟩

end Sys2Proof.Machine
end
